-- ==== Sys2Proof/Word.lean ====
section
/-! DEFINITION. Word.lean: the words of the machine. A stream carries bits, COMPRESS reads bytes of 8 bits, a symbol
field of a header leaf record is 9 bits wide (spec 00_scope.md R8, R13). -/

namespace Sys2Proof

/-- One bit: `false` is the spec's `0`, `true` its `1` (R13). -/
abbrev Bit := Bool

/-- A bit sequence in the order the bits travel on a stream, first bit first (R13). -/
abbrev Bits := List Bool

/-- BYTE_W = 8: an input byte of COMPRESS or an output byte of DECOMPRESS (R8). -/
abbrev Byte := BitVec 8

/-- SYM_W = 9: the unsigned symbol field of a header leaf record, values 0 to 511 (R8, R95). -/
abbrev Symbol := BitVec 9

end Sys2Proof
end

