-- ==== Sys2Proof/Machine/Bits.lean ====
section
/-! DEFINITION. Machine/Bits.lean: bin_N and val of R13, most significant bit first (R72), and the extensions of R80. -/

namespace Sys2Proof

/-- bin_N(v): "the bit sequence of length N that holds v most significant bit first" (R13): v[n-1], ..., v[0]. -/
def bin : Nat → Nat → Bits
  | 0, _ => []
  | n + 1, v => v.testBit n :: bin n v

/-- val(s): "the unsigned number whose most-significant-first digits are the bit sequence s" (R13). -/
def val (s : Bits) : Nat := s.foldl (fun a b => 2 * a + b.toNat) 0

/-- s = zext_9(b), the symbol of a byte (R80, R95). -/
def zext9 (b : Byte) : Symbol := b.setWidth 9

/-- s[7:0], the byte of a decoded symbol below 256 (R80). -/
def lowByte (s : Symbol) : Byte := s.extractLsb' 0 8

end Sys2Proof
end

