-- ==== Sys2Proof/Config.lean ====
section
/-! DEFINITION. Config.lean: what one implementation fixes (the parameters the spec leaves open, R9), the sizes derived
from them (R10), and the one free value of the machine, the padding the output collaborator adds at Close (R69).
The constants of R8 (ALPH = 257, TERM = 256, SYM_W = 9, BYTE_W = 8, MAGIC_W = 32, TERM_COUNT = 1) and the sizes
NODE_CAP = 513, STACK_CAP = 257, CODE_MAX = 256 of R10 are hard-coded where they are used, as R8 asks. -/

namespace Sys2Proof

/-- The parameters of rule R9, which "a model takes as an argument", and the unit of the output collaborator's medium
(R69). They are held in `State.par`, which no step changes, so that a statement about every state is a statement about
every parameter value. -/
structure Params where
  /-- MAGIC, the 32-bit constant that identifies a container (R9, R91). -/
  magic      : BitVec 32
  /-- WEIGHT_W, the width in bits of a count in FREQ and of a node weight (R9). -/
  weightW    : Nat
  /-- DEC_NODE_CAP, the number of records of the decompressor's tree store, at least 513 (R9). -/
  decNodeCap : Nat
  /-- The unit of the medium behind BitOut in bits: "a byte, for a byte-oriented medium" (R69). -/
  mediumUnit : Nat
  deriving DecidableEq, Repr

/-- The default parameters of R9; the unit is the byte of a byte-oriented medium (R69). -/
def Params.default : Params :=
  { magic := 0xFACE8201#32, weightW := 64, decNodeCap := 513, mediumUnit := 8 }

/-- LEN_MAX = 2^WEIGHT_W - 2, the longest admitted input of COMPRESS in bytes (R10). -/
def Params.lenMax (p : Params) : Nat := 2 ^ p.weightW - 2

/-- DIDX_W = ceil(log2(DEC_NODE_CAP)), the width of an index into DNODE (R10). -/
def Params.didxW (p : Params) : Nat := Nat.clog 2 p.decNodeCap

/-- FREE VALUE (R69, 93_implementation_defined.md U1): how many bits the output collaborator is minded to append at its
k-th Close. It has no body, so nothing can be proved of it. -/
opaque Config.padLength : Nat → Nat

/-- FREE VALUE (R69, U1): the padding bits of the k-th Close, by position. It has no body. -/
opaque Config.padBit : Nat → Nat → Bool

/-- The padding draw of the k-th Close on a medium of unit `u`: "any bits, of any length from 0 up to one unit less one
bit" (R69). -/
def Config.padding (u k : Nat) : Bits :=
  (List.range (Config.padLength k % u)).map (Config.padBit k)

end Sys2Proof
end

