-- ==== Sys2Proof/Syntax.lean ====
section
/-! DEFINITION. Syntax.lean: the instructions, one constructor per row of spec/opcode_table.json (R105): 4 host commands,
20 unit operations, 5 stream tokens; and the three kinds of word they are decoded from. -/

namespace Sys2Proof

/-- The instructions. An operand is a constructor argument exactly where the rule gives the instruction an operand that
is read with it: FC_ACC and EN_SYM carry the byte r "that the step's MemRead(IN, 8) returned" (R122, R168), HDR_LEAF its
symbol field (R158). -/
inductive Instr where
  /-- NOP, cmd_op 0 (R193). -/
  | nop
  /-- COMPRESS, cmd_op 1 (R191). -/
  | compress
  /-- DECOMPRESS, cmd_op 2 (R192). -/
  | decompress
  /-- RSVD3, cmd_op 3, reserved (R194). -/
  | rsvd3
  /-- FC_CLEAR (R121). -/
  | fcClear
  /-- FC_ACC with the byte read (R122). -/
  | fcAcc (r : Byte)
  /-- FC_END (R123). -/
  | fcEnd
  /-- TB_INIT (R133). -/
  | tbInit
  /-- TB_MERGE (R134). -/
  | tbMerge
  /-- TB_ROOT (R135). -/
  | tbRoot
  /-- CG_INIT (R141). -/
  | cgInit
  /-- CG_STEP (R142). -/
  | cgStep
  /-- EN_MAGIC (R166). -/
  | enMagic
  /-- HS_START (R151). -/
  | hsStart
  /-- HS_STEP (R152). -/
  | hsStep
  /-- EN_REWIND (R167). -/
  | enRewind
  /-- EN_SYM with the byte read (R168). -/
  | enSym (r : Byte)
  /-- EN_TERM (R169). -/
  | enTerm
  /-- EN_CLOSE (R170). -/
  | enClose
  /-- DE_MAGIC (R176). -/
  | deMagic
  /-- HD_START (R155). -/
  | hdStart
  /-- HD_STEP (R156). -/
  | hdStep
  /-- DE_STEP (R178). -/
  | deStep
  /-- DE_CLOSE (R181). -/
  | deClose
  /-- The stream token MAGIC (R177). -/
  | magic
  /-- The stream token HDR_INTERNAL (R157). -/
  | hdrInternal
  /-- The stream token HDR_LEAF with its 9-bit symbol field (R158). -/
  | hdrLeaf (sym : Symbol)
  /-- The stream token BR_LEFT (R179). -/
  | brLeft
  /-- The stream token BR_RIGHT (R180). -/
  | brRight
  deriving DecidableEq, Repr

/-- The sequencer phases of R103 ("the codes not listed are never held"). -/
inductive Phase where
  | pIdle
  | cClear | cCount | cTbinit | cMerge | cCginit | cCgen | cMagic | cHsinit | cHdr | cRewind | cEnc | cClose
  | dMagic | dHdinit | dHdr | dDec | dClose
  deriving DecidableEq, Repr

/-- The stated condition of a row of R104, evaluated at the start of the step. -/
inductive Cond where
  /-- "always". -/
  | always
  /-- r = MemRead(IN, 8) is this number. -/
  | byte (r : Byte)
  /-- r = MemRead(IN, 8) is EOS. -/
  | eos
  /-- count(ACTIVE) >= 2. -/
  | many
  /-- count(ACTIVE) = 1. -/
  | one
  deriving DecidableEq, Repr

/-- The three sections of the compressed stream (R107). -/
inductive Sect where
  | magic | header | payload
  deriving DecidableEq, Repr

/-- A word the decoder is given (R105): the command port's cmd_op, the sequencer's PHASE code with its condition, or the
bits of a stream token with the section they stand in ("decoding depends on the position in the stream", R107). -/
inductive Code where
  | cmd (op : BitVec 2)
  | phase (code : BitVec 5) (c : Cond)
  | stream (sec : Sect) (bits : Bits)
  deriving DecidableEq, Repr

/-- Why a word is no instruction. -/
inductive DecodeError where
  /-- A PHASE code R103 does not list. -/
  | phaseNotListed
  /-- P_IDLE selects no unit operation (R103, R104). -/
  | noUnitOperation
  /-- The condition is none that R104 gives this phase. -/
  | wrongCondition
  /-- A 32-bit word other than MAGIC at stream position 0 (R177: "not a token of this format"). -/
  | notMagic
  /-- The bits end before the token is complete (R98 a, b). -/
  | incomplete
  /-- Bits are left over after the token. -/
  | trailingBits
  deriving DecidableEq, Repr

/-- What decoding a word gives: an instruction, or the reason there is none. -/
inductive Decoded where
  | ok (i : Instr)
  | reject (e : DecodeError)
  deriving DecidableEq, Repr

/-- What reading one token from the front of a bit sequence gives: the token and the bits after it, or a reason. -/
inductive Token where
  | ok (i : Instr) (rest : Bits)
  | reject (e : DecodeError)
  deriving DecidableEq, Repr

end Sys2Proof
end

