-- ==== Sys2Proof/Machine/State.lean ====
section
/-! DEFINITION. Machine/State.lean: the state, all of it plain data (10_state.md R20 to R46), the reasons a step stops,
and the state after reset (R42, R240).

"NO VALUE". Rule R41 makes "holds no value" a condition of the machine's own: the tables and working registers of groups
(2) to (4) hold none outside the lifetimes of R40, after reset, after a command ends and before the command's first write,
and R42 lists exactly that as the reset value of each. `none` in a field below is that condition and nothing else; a read of it is the fault R41
asks for (log entry 1). -/

namespace Sys2Proof.Machine

/-- STATUS.ST, the run state (R22, R102). -/
inductive RunState where
  | idle | busy | done | error
  deriving DecidableEq, Repr

/-- STATUS.ERR, the error code of the last command (R24, R102, R210); codes 6 and 7 "are never produced". -/
inductive ErrCode where
  | none | format | malformed | capacity | symRange | noCode
  deriving DecidableEq, Repr

/-- A record of NODE (R30, R31): the two variants of HuffmanNode, so that "malformed half-leaf nodes" cannot be written.
The fields R31 calls "not meaningful" (sym of an internal node, children of a leaf) do not exist (U19). -/
inductive Node where
  | leaf (sym : Symbol) (weight : Nat)
  | internal (weight left right : Nat)
  deriving DecidableEq, Repr

/-- An entry of STACK (R35). HS_START and HS_STEP write only `node`; depth and bit then hold no value. -/
structure StackEntry where
  node  : Nat
  depth : Option Nat
  bit   : Option Bit
  deriving DecidableEq, Repr

/-- A record of DNODE (R36), field by field, since HD_STEP writes `leaf`, `left` and `right` each on its own (R156): no weight
field, and a field holds no value until it is written. -/
structure DNode where
  leaf  : Option Bool
  sym   : Option Symbol
  left  : Option Nat
  right : Option Nat
  deriving DecidableEq, Repr

/-- A record that holds no value. -/
def DNode.blank : DNode := { leaf := none, sym := none, left := none, right := none }

/-- An entry of DSTACK (R37): `stage` is false while the node lacks its left child, true once it has it. -/
structure DEntry where
  node  : Nat
  stage : Bool
  deriving DecidableEq, Repr

/-- One transaction as the core issued it (R16, R60): BitRead of n bits with the number it returned or EOS (`none`),
Rewind, BitWrite of the n low bits of v, Close. -/
inductive Transaction where
  | read (n : Nat) (r : Option Nat)
  | rewind
  | write (n v : Nat)
  | close
  deriving DecidableEq, Repr

/-- The tables and working registers of groups (2) to (4) of R20, as a fault names them. -/
inductive Reg where
  | freq | node | active | nextIdx | root | codeLen | codeBits | stack | sp | path
  | dnode | dnext | dstack | dsp | cur
  deriving DecidableEq, Repr

/-- The reasons a step stops although no error of R210 is raised. None of them is reached in a run the spec describes;
each is raised only in states the spec says never arise, so each is SAFE (the model stops, nothing is proved). -/
inductive Fault where
  /-- A read of state that holds no value (R41, U11: "fault of the model (the state holds no value); never zero"). Raised
  by any operation that reads a register, a table entry or a field, and by none that writes one. Safe. -/
  | noValue (r : Reg)
  /-- A read or write of an entry the table does not have: an index past its end (R31, R35, R37 bound them; "a push never
  overflows"). Raised by the table and stack operations. Safe. -/
  | noEntry (r : Reg)
  /-- A pop of an empty stack; "SP > 0 holds whenever PHASE = C_CGEN" (R142, R152). Raised by CG_STEP and HS_STEP. Safe. -/
  | emptyStack
  /-- argmin over an empty collection, or "the one i with ACTIVE[i] = 1" where there is not exactly one (R14, R134, R135).
  Raised by TB_MERGE and TB_ROOT. Safe. -/
  | collectionSize
  /-- A BitWrite after Close: it "requires closed = 0" (R81), "the core never writes after Close" (R66). Raised by every
  writing operation when the host bound a closed output against R244. Safe. -/
  | writeAfterClose
  /-- A BitWrite of 0 or more than 256 bits (R66: 1 <= n <= 256). Raised by EN_TERM and EN_SYM on a code length no tree
  gives. Safe. -/
  | writeWidth
  deriving DecidableEq, Repr

/-- The reasons the model refuses: the spec gives no meaning. -/
inductive Refusal where
  /-- No meaning yet; raised only by an arm of exec. Safe. -/
  | notModelled (mnemonic : String)
  /-- The input is longer than LEN_MAX (U8: "outside the admitted subset; a model must not wrap a counter and go on").
  Raised by FC_ACC, and by TB_MERGE on weights no admitted input gives. Safe. -/
  | inputTooLong
  /-- Hardware reset asserted while BUSY (R242, U15: "the spec gives such a run no result: a model treats it as refused").
  Raised by the fetch. Safe. -/
  | resetWhileBusy
  /-- ST = BUSY and R104 has no row for PHASE and the condition (P_IDLE, or count(ACTIVE) = 0): "cannot occur" (R23, R135).
  Raised by the fetch and the step. Safe. -/
  | noUnitOperation
  deriving DecidableEq, Repr

/-- The state of the machine. -/
structure State where
  /-- The parameters (R9): configuration, not state of the core (R12); no step changes it. -/
  par      : Params
  /-- The one reset input (R240), asserted by the host. -/
  rst      : Bool
  /-- `cmd_valid` of the command port (R21): the host presents a command. -/
  cmdValid : Bool
  /-- `cmd_op` of the command port (R21). -/
  cmdOp    : BitVec 2
  /-- The collaborators answer (R71, R256): while false, a transaction does not complete and the core is stuck. -/
  ioReady  : Bool
  /-- STATUS.ST (R22). -/
  st       : RunState
  /-- STATUS.ERR (R24). -/
  err      : ErrCode
  /-- STATUS.PHASE (R23). -/
  phase    : Phase
  /-- FREQ[0..256], counts of WEIGHT_W bits (R26). -/
  freq     : Option (Vector Nat 257)
  /-- NODE[0..512] (R31). -/
  node     : Vector (Option Node) 513
  /-- ACTIVE[0..512] (R32). -/
  active   : Option (Vector Bool 513)
  /-- NEXT, 10 bits (R33). -/
  nextIdx  : Option Nat
  /-- ROOT, 10 bits (R33). -/
  root     : Option Nat
  /-- CODE_LEN[0..256], 9 bits each (R34). -/
  codeLen  : Vector (Option Nat) 257
  /-- CODE_BITS[0..256] (R34). -/
  codeBits : Vector (Option Bits) 257
  /-- STACK[0..256] (R35). -/
  stack    : Vector (Option StackEntry) 257
  /-- SP, 9 bits (R35). -/
  sp       : Option Nat
  /-- PATH, 256 bits, PATH[0] the branch at the root (R35). -/
  path     : Vector (Option Bit) 256
  /-- DNODE[0..DEC_NODE_CAP-1] (R36). -/
  dnode    : List DNode
  /-- DNEXT, DIDX_W + 1 bits (R37). -/
  dnext    : Option Nat
  /-- DSTACK[0..DEC_NODE_CAP-1] (R37). -/
  dstack   : List (Option DEntry)
  /-- DSP, DIDX_W + 1 bits (R37). -/
  dsp      : Option Nat
  /-- CUR, DIDX_W bits (R38). -/
  cur      : Option Nat
  /-- BitIn: the bit sequence IN it serves (R43, R61). -/
  inBits   : Bits
  /-- BitIn: the read position rp (R43, R61). -/
  rp       : Nat
  /-- BitOut: the bit sequence OUT (R43, R65). -/
  outBits  : Bits
  /-- BitOut: the flag `closed` (R43, R65). -/
  closed   : Bool
  /-- The medium behind BitOut after Close: OUT and the padding (R68, R69). -/
  medium   : Bits
  /-- The transactions issued so far, in order (R16, R45, R200): the observation claims are made of. -/
  trace    : List Transaction
  /-- The model's own field, not the spec's: how many padding draws (R69) have been taken. -/
  draw     : Nat
  deriving DecidableEq, Repr

/-- The state after reset under parameters `p` (R42, R240): ST = IDLE, ERR = NONE, PHASE = P_IDLE, every table and working
register holds no value. The host's and the collaborators' fields are "not the core's" (R42): no command presented, no
reset, an empty input and an empty open output (DESIGN CHOICE, log entry 2). -/
def State.resetWith (p : Params) : State where
  par := p
  rst := false
  cmdValid := false
  cmdOp := 0#2
  ioReady := true
  st := .idle
  err := .none
  phase := .pIdle
  freq := none
  node := Vector.replicate 513 none
  active := none
  nextIdx := none
  root := none
  codeLen := Vector.replicate 257 none
  codeBits := Vector.replicate 257 none
  stack := Vector.replicate 257 none
  sp := none
  path := Vector.replicate 256 none
  dnode := List.replicate p.decNodeCap DNode.blank
  dnext := none
  dstack := List.replicate p.decNodeCap none
  dsp := none
  cur := none
  inBits := []
  rp := 0
  outBits := []
  closed := false
  medium := []
  trace := []
  draw := 0

/-- The machine right after reset, with the default parameters of R9. -/
def State.reset : State := State.resetWith Params.default

/-- What the start of a step finds to do (R104): nothing (`stay`), or a word to decode and run, after the read that the
step begins with. -/
inductive Fetched where
  | stay (s : State)
  | run (w : Code) (s : State)
  deriving DecidableEq, Repr

end Sys2Proof.Machine
end

