-- ==== Sys2Proof/Machine/Ops.lean ====
section
/-! DEFINITION. Machine/Ops.lean: the named operations every meaning is written over: outcomes in sequence, tables, the
four transactions of 20_memory.md, the lifetimes of the tables (R40, R41), ending a command, raising an error (R216), and
the explicit stack (R35). -/

namespace Sys2Proof.Machine

/-- What an operation that yields an `α` answers. -/
abbrev Res (α : Type) := Host.Outcome α Fault Refusal

/-- One operation after another; a fault or a refusal ends the step. -/
def chain {α β : Type} (x : Res α) (f : α → Res β) : Res β :=
  match x with
  | .next a => f a
  | .fault e => .fault e
  | .refused e => .refused e

/-- Reading state that may hold no value: the fault R41 and U11 ask for. -/
def need {α : Type} (x : Option α) (r : Reg) : Res α :=
  match x with
  | some a => .next a
  | none => .fault (.noValue r)

/-- Reading an entry of a table, `t[i]?`: past the end there is no entry, and an entry may hold no value. -/
def entry {α : Type} (x : Option (Option α)) (r : Reg) : Res α :=
  match x with
  | some (some a) => .next a
  | some none => .fault (.noValue r)
  | none => .fault (.noEntry r)

/-- A table of n entries, entry i being `f i`. -/
def tabulate {α : Type} (n : Nat) (f : Nat → α) : Vector α n :=
  ⟨((List.range n).map f).toArray, by simp⟩

/-- Writing entry i of a table. -/
def putVec {α : Type} {n : Nat} (t : Vector α n) (i : Nat) (x : α) (r : Reg) : Res (Vector α n) :=
  if h : i < n then .next (t.set i x h) else .fault (.noEntry r)

/-- Writing entry i of a table whose size is a parameter (DNODE, DSTACK). -/
def putList {α : Type} (t : List α) (i : Nat) (x : α) (r : Reg) : Res (List α) :=
  if i < t.length then .next (t.set i x) else .fault (.noEntry r)

/-! ## The transactions (R60 to R71, R81) -/

/-- MemRead(IN, n) (R62, R81): the unsigned number in the next n bits and rp moved past them, or EOS with rp unchanged.
A read that can be only partly satisfied is EOS. -/
def bitRead (n : Nat) (s : State) : Option (BitVec n) × State :=
  if s.rp + n ≤ s.inBits.length then
    let v := val ((s.inBits.drop s.rp).take n)
    (some (BitVec.ofNat n v), { s with rp := s.rp + n, trace := s.trace ++ [.read n (some v)] })
  else (none, { s with trace := s.trace ++ [.read n none] })

/-- Rewind(IN) (R64, R81): "sets rp <- 0 and changes nothing else". -/
def rewind (s : State) : State := { s with rp := 0, trace := s.trace ++ [.rewind] }

/-- MemWrite(OUT, n, v) (R66, R81): appends bin_n(v) to OUT; 1 <= n <= 256, and it requires closed = 0. -/
def memWrite (n v : Nat) (s : State) : Res State :=
  if s.closed then .fault .writeAfterClose
  else if 1 ≤ n ∧ n ≤ 256 then
    .next { s with outBits := s.outBits ++ bin n v, trace := s.trace ++ [.write n v] }
  else .fault .writeWidth

/-- Close(OUT) (R68, R69, R81): closed <- 1; the collaborator delivers OUT and pads it with its draw. On an output already
closed, which a host that breaks R244 can bring about, it delivers again, with a new draw (DESIGN CHOICE, log entry 20). -/
def closeOut (s : State) : State :=
  { s with
    closed := true
    medium := s.outBits ++ Config.padding s.par.mediumUnit s.draw
    draw := s.draw + 1
    trace := s.trace ++ [.close] }

/-! ## Lifetimes (R40, R41) -/

/-- The phases whose unit operation lies in the lifetime of a table or working register, first to last as R40 names them:
"FREQ is live from FC_CLEAR to TB_INIT", and so on. Only C_MERGE's TB_ROOT and D_HDR's last HD_STEP begin the lifetimes of
ROOT and CUR. -/
def lifetime : Reg → List Phase
  | .freq => [.cClear, .cCount, .cTbinit]
  | .node => [.cTbinit, .cMerge, .cCginit, .cCgen, .cMagic, .cHsinit, .cHdr]
  | .root => [.cMerge, .cCginit, .cCgen, .cMagic, .cHsinit, .cHdr]
  | .active => [.cTbinit, .cMerge]
  | .nextIdx => [.cTbinit, .cMerge]
  | .codeLen => [.cCginit, .cCgen, .cMagic, .cHsinit, .cHdr, .cRewind, .cEnc]
  | .codeBits => [.cCginit, .cCgen, .cMagic, .cHsinit, .cHdr, .cRewind, .cEnc]
  | .stack => [.cCginit, .cCgen, .cHsinit, .cHdr]
  | .sp => [.cCginit, .cCgen, .cHsinit, .cHdr]
  | .path => [.cCginit, .cCgen, .cHsinit, .cHdr]
  | .dnode => [.dHdinit, .dHdr, .dDec, .dClose]
  | .dnext => [.dHdinit, .dHdr]
  | .dstack => [.dHdinit, .dHdr]
  | .dsp => [.dHdinit, .dHdr]
  | .cur => [.dHdr, .dDec, .dClose]

/-- A table's contents while its lifetime includes the unit operation of the phase, and `gone` outside it. -/
def keep {α : Type} (r : Reg) (s : State) (contents gone : α) : α := if s.phase ∈ lifetime r then contents else gone

/-- "State outside its lifetime holds no value" (R41): what the tables and working registers hold for the unit operation of
PHASE. The state that the last operation of a lifetime leaves still shows its values, as 95_test_vectors.md lists them
there, and no operation after it finds them (DEDUCED, log entry 7). -/
def expire (s : State) : State :=
  { s with
    freq := keep .freq s s.freq none
    node := keep .node s s.node (Vector.replicate 513 none)
    active := keep .active s s.active none
    nextIdx := keep .nextIdx s s.nextIdx none
    root := keep .root s s.root none
    codeLen := keep .codeLen s s.codeLen (Vector.replicate 257 none)
    codeBits := keep .codeBits s s.codeBits (Vector.replicate 257 none)
    stack := keep .stack s s.stack (Vector.replicate 257 none)
    sp := keep .sp s s.sp none
    path := keep .path s s.path (Vector.replicate 256 none)
    dnode := keep .dnode s s.dnode (List.replicate s.par.decNodeCap DNode.blank)
    dnext := keep .dnext s s.dnext none
    dstack := keep .dstack s s.dstack (List.replicate s.par.decNodeCap none)
    dsp := keep .dsp s s.dsp none
    cur := keep .cur s s.cur none }

/-! ## The end of a command, and errors -/

/-- After a command the tables and working registers of groups (2) to (4) hold no value (R41, R200, R216). -/
def dropTables (s : State) : State :=
  { s with
    freq := none
    node := Vector.replicate 513 none
    active := none
    nextIdx := none
    root := none
    codeLen := Vector.replicate 257 none
    codeBits := Vector.replicate 257 none
    stack := Vector.replicate 257 none
    sp := none
    path := Vector.replicate 256 none
    dnode := List.replicate s.par.decNodeCap DNode.blank
    dnext := none
    dstack := List.replicate s.par.decNodeCap none
    dsp := none
    cur := none }

/-- The successful end of a command: Close(OUT), ST <- DONE, pc <- P_IDLE (R170, R181); ERR is left as it is. -/
def finish (s : State) : State :=
  { dropTables (closeOut s) with st := .done, phase := .pIdle }

/-- The abort sequence (R216): Close(OUT), ERR <- code(E), ST <- ERROR, pc <- P_IDLE. Reads already made stay made and OUT
keeps what was written; nothing is saved or rolled back. -/
def abort (e : ErrCode) (s : State) : State :=
  { dropTables (closeOut s) with err := e, st := .error, phase := .pIdle }

/-- `raise E` (R14, R216), the one shared operation every error goes through. The spec gives no return from it (R220). -/
def raise (e : ErrCode) (s : State) : Res State := .next (abort e s)

/-- Acceptance of COMPRESS or DECOMPRESS (R190): ST <- BUSY, ERR <- NONE, PHASE <- the command's first phase. It "issues no
transaction", and while ST = BUSY a presented command simply waits. -/
def accept (first : Phase) (s : State) : State :=
  if s.st = .busy then s else { s with st := .busy, err := .none, phase := first }

/-- The core's share of the reset state (R240, R242): ST, ERR, PHASE and the tables. The streams stay as they are ("OUT
holds whatever had been written and is left unclosed; rp is wherever it was"), no transaction is issued, and the reset
input is released. -/
def hardReset (s : State) : State :=
  { dropTables s with rst := false, st := .idle, err := .none, phase := .pIdle }

/-! ## The explicit stack of the compressor's walks (R35) -/

/-- push: "writes STACK[SP] and adds 1 to SP". -/
def push (e : StackEntry) (s : State) : Res State :=
  chain (need s.sp .sp) fun n =>
  chain (putVec s.stack n (some e) .stack) fun t =>
  .next { s with stack := t, sp := some (n + 1) }

/-- pop: "subtracts 1 from SP and returns STACK[SP]". -/
def pop (s : State) : Res (StackEntry × State) :=
  chain (need s.sp .sp) fun n =>
  match n with
  | 0 => .fault .emptyStack
  | k + 1 =>
    chain (entry s.stack[k]? .stack) fun e =>
    .next (e, { s with sp := some k })

/-- The end of a walk step: "if SP = 0 then pc <- done else pc <- more" (R142, R152). -/
def walkPhase (done more : Phase) (s : State) : Res State :=
  chain (need s.sp .sp) fun n =>
  .next { s with phase := if n = 0 then done else more }

end Sys2Proof.Machine
end

