-- ==== Sys2Proof/Machine/Operands.lean ====
section
/-! DEFINITION. Machine/Operands.lean: every operand form. A unit operation's operands are registers and table entries
(10_state.md); each is read and written through an accessor here, which faults where the state holds no value (R41). -/

namespace Sys2Proof.Machine

/-! ## FrequencyCounter -/

/-- FREQ[zext_9(r)] is entry r of FREQ, and FREQ[256] "is never the target, since r < 256" (R122). -/
def symIndex (r : Byte) : Fin 257 :=
  ⟨(zext9 r).toNat, by
    have h := r.isLt
    simp only [zext9, BitVec.toNat_setWidth]
    omega⟩

/-- The sum of all counts: input bytes counted so far plus 1 for the terminator (R120, R124). -/
def freqTotal (f : Vector Nat 257) : Nat := f.toList.sum

/-! ## TreeBuilder -/

/-- NODE[i].weight (R31). -/
def Node.weight : Node → Nat
  | .leaf _ w => w
  | .internal w _ _ => w

/-- NODE[i]. -/
def nodeAt (s : State) (i : Nat) : Res Node := entry s.node[i]? .node

/-- The indices of the 1 bits of a list whose first bit has index i, ascending. -/
def onesFrom : Nat → List Bool → List Nat
  | _, [] => []
  | i, b :: bs => if b then i :: onesFrom (i + 1) bs else onesFrom (i + 1) bs

/-- The indices i with ACTIVE[i] = 1, ascending (R32). -/
def activeIndices (a : Vector Bool 513) : List Nat := onesFrom 0 a.toList

/-- count(ACTIVE), "the number of 1 bits" (R32). -/
def countActive (a : Vector Bool 513) : Nat := (activeIndices a).length

/-- The key order (R131): lexicographic on (weight, index), unsigned, smaller first. -/
def keyLt (p q : Nat × Nat) : Bool := decide (p.1 < q.1) || (decide (p.1 = q.1) && decide (p.2 < q.2))

/-- The lesser of two keys. -/
def keyMin (p q : Nat × Nat) : Nat × Nat := if keyLt q p then q else p

/-- The keys (NODE[i].weight, i) of the indices given; reading a record that holds no value is a fault. -/
def keysOf (s : State) : List Nat → Res (List (Nat × Nat))
  | [] => .next []
  | i :: is =>
    chain (nodeAt s i) fun n =>
    chain (keysOf s is) fun ks =>
    .next ((n.weight, i) :: ks)

/-- argmin over { i : ACTIVE[i] = 1 } of (NODE[i].weight, i) (R14, R131, R134). -/
def lightest (s : State) (a : Vector Bool 513) : Res Nat :=
  chain (keysOf s (activeIndices a)) fun ks =>
  match ks with
  | [] => .fault .collectionSize
  | k :: ks => .next (ks.foldl keyMin k).2

/-! ## CodeTableGenerator and StreamEncoder -/

/-- PATH[i] <- b (R142). -/
def setPath (i : Nat) (b : Bit) (s : State) : Res State :=
  chain (putVec s.path i (some b) .path) fun p => .next { s with path := p }

/-- PATH[0 .. d - 1] (R142). -/
def pathBits (s : State) (d : Nat) : Res Bits :=
  match (s.path.toList.take d).mapM id with
  | some bits => .next bits
  | none => .fault (.noValue .path)

/-- CODE_LEN[sym] <- len and CODE_BITS[sym] <- bits (R141, R142). -/
def setCode (sym len : Nat) (bits : Bits) (s : State) : Res State :=
  chain (putVec s.codeLen sym (some len) .codeLen) fun cl =>
  chain (putVec s.codeBits sym (some bits) .codeBits) fun cb =>
  .next { s with codeLen := cl, codeBits := cb }

/-- CODE_LEN[sym] (R34). -/
def codeLenAt (s : State) (sym : Nat) : Res Nat := entry s.codeLen[sym]? .codeLen

/-- CODE_BITS[sym][0 .. len - 1]: the bits beyond CODE_LEN "are not meaningful", and bits that were never written hold no
value (R34, R142, U19). -/
def codeBitsAt (s : State) (sym len : Nat) : Res Bits :=
  chain (entry s.codeBits[sym]? .codeBits) fun bits =>
  if len ≤ bits.length then .next (bits.take len) else .fault (.noValue .codeBits)

/-- Writing a code: `MemWrite(OUT, len(c), val(c))`, the explicit bit count keeping the leading zeros (R66, R96, R168). -/
def writeCode (c : Bits) (s : State) : Res State := memWrite c.length (val c) s

/-! ## HeaderCodec, deserialize half, and StreamDecoder -/

/-- DNODE[i], as a record whose fields may each lack a value. -/
def dnodeAt (s : State) (i : Nat) : Res DNode :=
  match s.dnode[i]? with
  | some n => .next n
  | none => .fault (.noEntry .dnode)

/-- DNODE[i].leaf = 1 (R36). -/
def isLeaf (s : State) (i : Nat) : Res Bool := chain (dnodeAt s i) fun n => need n.leaf .dnode

/-- DNODE[i].sym (R36). -/
def symOf (s : State) (i : Nat) : Res Symbol := chain (dnodeAt s i) fun n => need n.sym .dnode

/-- DNODE[i].left for the branch bit 0, DNODE[i].right for the branch bit 1 (R178, R179, R180). -/
def childOf (s : State) (i : Nat) (b : BitVec 1) : Res Nat :=
  chain (dnodeAt s i) fun n => need (if b = 0#1 then n.left else n.right) .dnode

/-- A write of some fields of DNODE[i]: it needs no value there before, and the fields it does not name stay. -/
def writeDnode (i : Nat) (f : DNode → DNode) (s : State) : Res State :=
  if i < s.dnode.length then .next { s with dnode := s.dnode.modify i f } else .fault (.noEntry .dnode)

/-- DNODE[i].leaf <- 0 (R156). -/
def DNode.asInternal (n : DNode) : DNode := { n with leaf := some false }

/-- DNODE[i] <- {leaf = 1, sym = s} (R156); "children of a leaf" have no value (U19; log entry 13). -/
def DNode.ofLeaf (sym : Symbol) : DNode := { leaf := some true, sym := some sym, left := none, right := none }

/-- DNODE[p].left <- i (R156). -/
def DNode.withLeft (i : Nat) (n : DNode) : DNode := { n with left := some i }

/-- DNODE[p].right <- i (R156). -/
def DNode.withRight (i : Nat) (n : DNode) : DNode := { n with right := some i }

/-- DSTACK[i]. -/
def dstackAt (s : State) (i : Nat) : Res DEntry := entry s.dstack[i]? .dstack

/-- DSTACK[i] <- e. -/
def setDstack (i : Nat) (e : DEntry) (s : State) : Res State :=
  chain (putList s.dstack i (some e) .dstack) fun t => .next { s with dstack := t }

/-- push(DSTACK, e) (R37: "used as SP is in rule R35"). -/
def dpush (e : DEntry) (s : State) : Res State :=
  chain (need s.dsp .dsp) fun n =>
  chain (setDstack n e s) fun s =>
  .next { s with dsp := some (n + 1) }

end Sys2Proof.Machine
end

