-- ==== Sys2Proof/Machine/CodeTableGenerator.lean ====
section
/-! DEFINITION. Machine/CodeTableGenerator.lean: CG_INIT, CG_STEP (42_code_table_generator.md). -/

namespace Sys2Proof.Machine

/-- The two pushes of R141 and R142: the right child with bit 1, then the left child with bit 0, so that the left child is
visited first; "left = 0, right = 1" (R144). -/
def pushEdges (left right depth : Nat) (s : State) : Res State :=
  chain (push { node := right, depth := some depth, bit := some true } s) fun s =>
  push { node := left, depth := some depth, bit := some false } s

/-- CG_INIT (R141): every CODE_LEN <- 0, SP <- 0; the degenerate tree's sole leaf gets the code `0` (R143), any other root
starts the walk. -/
def execCgInit (s : State) : Res State :=
  chain (need s.root .root) fun root =>
  chain (nodeAt s root) fun n =>
  let s := { s with codeLen := Vector.replicate 257 (some 0), sp := some 0 }
  match n with
  | .leaf sym _ =>
    chain (setCode sym.toNat 1 [false] s) fun s => .next { s with phase := .cMagic }
  | .internal _ l r =>
    chain (pushEdges l r 1 s) fun s => .next { s with phase := .cCgen }

/-- CG_STEP (R142). -/
def execCgStep (s : State) : Res State :=
  chain (pop s) fun (e, s) =>
  chain (need e.depth .stack) fun d =>
  chain (need e.bit .stack) fun b =>
  match d with
  | 0 => .fault (.noEntry .path)
  | k + 1 =>
    chain (setPath k b s) fun s =>
    chain (nodeAt s e.node) fun n =>
    match n with
    | .leaf sym _ =>
      chain (pathBits s (k + 1)) fun bits =>
      chain (setCode sym.toNat (k + 1) bits s) fun s =>
      walkPhase .cMagic .cCgen s
    | .internal _ l r =>
      chain (pushEdges l r (k + 2) s) fun s =>
      walkPhase .cMagic .cCgen s

end Sys2Proof.Machine
end

