-- ==== Sys2Proof/Machine/Command.lean ====
section
/-! DEFINITION. Machine/Command.lean: the host commands (46_commands.md). The handshake itself is in Machine/Fetch.lean. -/

namespace Sys2Proof.Machine

/-- NOP (R193): "accepted when ST is not BUSY and changes nothing". -/
def execNop (s : State) : Res State := .next s

/-- COMPRESS (R190, R191): ST <- BUSY; ERR <- NONE; pc <- C_CLEAR. -/
def execCompress (s : State) : Res State := .next (accept .cClear s)

/-- DECOMPRESS (R190, R192): ST <- BUSY; ERR <- NONE; pc <- D_MAGIC. -/
def execDecompress (s : State) : Res State := .next (accept .dMagic s)

/-- RSVD3 (R194): "behaves exactly as NOP". -/
def execRsvd3 (s : State) : Res State := .next s

end Sys2Proof.Machine
end

