-- ==== Sys2Proof/Machine/FrequencyCounter.lean ====
section
/-! DEFINITION. Machine/FrequencyCounter.lean: FC_CLEAR, FC_ACC, FC_END (40_frequency_accumulator.md). -/

namespace Sys2Proof.Machine

/-- FC_CLEAR (R121): FREQ[0..255] <- 0, FREQ[256] <- 1, pc <- C_COUNT. -/
def execFcClear (s : State) : Res State :=
  .next { s with freq := some (tabulate 257 fun i => if i = 256 then 1 else 0), phase := .cCount }

/-- FC_ACC (R122): FREQ[zext_9(r)] <- FREQ[zext_9(r)] + 1, pc <- C_COUNT. "An input longer than LEN_MAX is refused" (U8): the
counts sum to the bytes read plus 1 (R124), so the byte is one too many exactly when that sum would not fit WEIGHT_W
bits. -/
def execFcAcc (r : Byte) (s : State) : Res State :=
  chain (need s.freq .freq) fun f =>
  if freqTotal f + 1 < 2 ^ s.par.weightW then
    .next { s with freq := some (f.set (symIndex r) (f[symIndex r] + 1)), phase := .cCount }
  else .refused .inputTooLong

/-- FC_END (R123): pc <- C_TBINIT. -/
def execFcEnd (s : State) : Res State := .next { s with phase := .cTbinit }

end Sys2Proof.Machine
end

