-- ==== Sys2Proof/Machine/HeaderCodec.lean ====
section
/-! DEFINITION. Machine/HeaderCodec.lean: HS_START, HS_STEP (serialize), HD_START, HD_STEP (deserialize) and the stream
tokens HDR_INTERNAL, HDR_LEAF (43_header_codec.md). -/

namespace Sys2Proof.Machine

/-! ## Serialize -/

/-- push(STACK, {node = n}): "depth and bit fields not used by this walk" (R151). -/
def pushNode (n : Nat) (s : State) : Res State := push { node := n, depth := none, bit := none } s

/-- HS_START (R151): SP <- 0, push ROOT, pc <- C_HDR. -/
def execHsStart (s : State) : Res State :=
  chain (need s.root .root) fun root =>
  chain (pushNode root { s with sp := some 0 }) fun s =>
  .next { s with phase := .cHdr }

/-- HS_STEP (R152): one header record (R92) for the popped node, the left child pushed last and so written first. -/
def execHsStep (s : State) : Res State :=
  chain (pop s) fun (e, s) =>
  chain (nodeAt s e.node) fun n =>
  match n with
  | .leaf sym _ =>
    chain (memWrite 1 1 s) fun s =>
    chain (memWrite 9 sym.toNat s) fun s =>
    walkPhase .cRewind .cHdr s
  | .internal _ l r =>
    chain (memWrite 1 0 s) fun s =>
    chain (pushNode r s) fun s =>
    chain (pushNode l s) fun s =>
    walkPhase .cRewind .cHdr s

/-! ## Deserialize -/

/-- HD_START (R155): DNEXT <- 0, DSP <- 0, pc <- D_HDR. -/
def execHdStart (s : State) : Res State :=
  .next { s with dnext := some 0, dsp := some 0, phase := .dHdr }

/-- The tag of a header record (R156, R218): the read and its EOS check, then the capacity check. -/
def headerTag (s : State) (k : BitVec 1 → State → Res State) : Res State :=
  match bitRead 1 s with
  | (none, s) => raise .malformed s
  | (some t, s) =>
    chain (need s.dnext .dnext) fun n =>
    if n = s.par.decNodeCap then raise .capacity s else k t s

/-- The symbol field of a leaf record and its EOS check (R156, R158). -/
def headerSymbol (s : State) (k : Symbol → State → Res State) : Res State :=
  match bitRead 9 s with
  | (none, s) => raise .malformed s
  | (some sym, s) => k sym s

/-- "Attach record i to the node waiting for a child" (R156). -/
def attach (i : Nat) (s : State) : Res State :=
  chain (need s.dsp .dsp) fun n =>
  match n with
  | 0 => .next s
  | k + 1 =>
    chain (dstackAt s k) fun p =>
    if p.stage then
      chain (writeDnode p.node (DNode.withRight i) s) fun s => .next { s with dsp := some k }
    else
      chain (writeDnode p.node (DNode.withLeft i) s) fun s => setDstack k { p with stage := true } s

/-- i <- DNEXT, DNEXT <- DNEXT + 1, and the attachment (R156). -/
def allocate (s : State) (k : Nat → State → Res State) : Res State :=
  chain (need s.dnext .dnext) fun i =>
  chain (attach i { s with dnext := some (i + 1) }) fun s => k i s

/-- The last line of R156: if DSP = 0 then (CUR <- 0; pc <- D_DEC) else pc <- D_HDR. -/
def headerEnd (s : State) : Res State :=
  chain (need s.dsp .dsp) fun n =>
  if n = 0 then .next { s with cur := some 0, phase := .dDec } else .next { s with phase := .dHdr }

/-- The branch t = 0 of R156 (R157): a new internal node, which becomes the innermost unfinished node. -/
def addInternal (s : State) : Res State :=
  allocate s fun i s =>
  chain (writeDnode i DNode.asInternal s) fun s =>
  chain (dpush { node := i, stage := false } s) fun s =>
  headerEnd s

/-- The branch t = 1 of R156 (R158): a new leaf; the symbol value is "stored as read, 0 to 511, with no check" (R160). -/
def addLeaf (sym : Symbol) (s : State) : Res State :=
  allocate s fun i s =>
  chain (writeDnode i (fun _ => DNode.ofLeaf sym) s) fun s =>
  headerEnd s

/-- HD_STEP (R156): "one step reads one record". -/
def execHdStep (s : State) : Res State :=
  headerTag s fun t s =>
  if t = 1#1 then headerSymbol s fun sym s => addLeaf sym s
  else addInternal s

/-- The token HDR_INTERNAL at the read position (R157): its bit is read, then the branch t = 0 of R156 with its errors. -/
def execHdrInternal (s : State) : Res State :=
  headerTag s fun _ s => addInternal s

/-- The token HDR_LEAF with symbol field `sym` at the read position (R158): its 10 bits are read, then the branch t = 1 of
R156 with its errors. -/
def execHdrLeaf (sym : Symbol) (s : State) : Res State :=
  headerTag s fun _ s =>
  headerSymbol s fun _ s => addLeaf sym s

end Sys2Proof.Machine
end

