-- ==== Sys2Proof/Machine/StreamDecoder.lean ====
section
/-! DEFINITION. Machine/StreamDecoder.lean: DE_MAGIC, DE_STEP, DE_CLOSE and the stream tokens MAGIC, BR_LEFT, BR_RIGHT
(45_stream_decoder.md). -/

namespace Sys2Proof.Machine

/-- DE_MAGIC (R176): FormatError if the 32-bit read gives EOS or a value other than MAGIC, else pc <- D_HDINIT. -/
def execDeMagic (s : State) : Res State :=
  match bitRead 32 s with
  | (none, s) => raise .format s
  | (some m, s) => if m = s.par.magic then .next { s with phase := .dHdinit } else raise .format s

/-- The token MAGIC at the read position (R177): "accepted, read position moves to 32, header parsing begins". With fewer
than 32 bits left there is no such token and the read is EOS (R176). -/
def execMagic (s : State) : Res State :=
  match bitRead 32 s with
  | (none, s) => raise .format s
  | (some _, s) => .next { s with phase := .dHdinit }

/-- A payload bit and its EOS check (R178). -/
def payloadBit (s : State) (k : BitVec 1 → State → Res State) : Res State :=
  match bitRead 1 s with
  | (none, s) => raise .malformed s
  | (some b, s) => k b s

/-- The move of R178: under an ordinary tree CUR goes to the child the bit names; under the degenerate tree "CUR stays 0, b
is consumed and ignored" (R182). -/
def walkDown (b : BitVec 1) (s : State) : Res State :=
  chain (isLeaf s 0) fun degenerate =>
  if degenerate then .next s
  else
    chain (need s.cur .cur) fun c =>
    chain (childOf s c b) fun c' => .next { s with cur := some c' }

/-- The leaf test of R178: the terminator ends the payload, a symbol above 256 is SymbolRangeError, any other leaf writes
its byte and returns to the root. -/
def leafTest (s : State) : Res State :=
  chain (need s.cur .cur) fun c =>
  chain (isLeaf s c) fun leaf =>
  if leaf then
    chain (symOf s c) fun sym =>
    if sym = 256#9 then .next { s with phase := .dClose }
    else if 256 < sym.toNat then raise .symRange s
    else chain (memWrite 8 (lowByte sym).toNat s) fun s => .next { s with cur := some 0, phase := .dDec }
  else .next { s with phase := .dDec }

/-- DE_STEP (R178): "one step reads one bit". -/
def execDeStep (s : State) : Res State :=
  payloadBit s fun b s => chain (walkDown b s) leafTest

/-- The token BR_LEFT at the read position (R179): the branch b = 0 of R178. -/
def execBrLeft (s : State) : Res State :=
  payloadBit s fun _ s => chain (walkDown 0#1 s) leafTest

/-- The token BR_RIGHT at the read position (R180): the branch b = 1 of R178. -/
def execBrRight (s : State) : Res State :=
  payloadBit s fun _ s => chain (walkDown 1#1 s) leafTest

/-- DE_CLOSE (R181): Close(OUT), ST <- DONE, pc <- P_IDLE. -/
def execDeClose (s : State) : Res State := .next (finish s)

end Sys2Proof.Machine
end

