-- ==== Sys2Proof/Machine/StreamEncoder.lean ====
section
/-! DEFINITION. Machine/StreamEncoder.lean: EN_MAGIC, EN_REWIND, EN_SYM, EN_TERM, EN_CLOSE (44_stream_encoder.md). -/

namespace Sys2Proof.Machine

/-- EN_MAGIC (R166): MemWrite(OUT, 32, MAGIC), pc <- C_HSINIT. -/
def execEnMagic (s : State) : Res State :=
  chain (memWrite 32 s.par.magic.toNat s) fun s => .next { s with phase := .cHsinit }

/-- EN_REWIND (R167): Rewind(IN), pc <- C_ENC. -/
def execEnRewind (s : State) : Res State := .next { rewind s with phase := .cEnc }

/-- EN_SYM (R168): NoCodeError if CODE_LEN[zext_9(r)] = 0, else the code is written and pc <- C_ENC. -/
def execEnSym (r : Byte) (s : State) : Res State :=
  chain (codeLenAt s (zext9 r).toNat) fun len =>
  if len = 0 then raise .noCode s
  else
    chain (codeBitsAt s (zext9 r).toNat len) fun c =>
    chain (writeCode c s) fun s => .next { s with phase := .cEnc }

/-- EN_TERM (R169): the terminator's code is written, pc <- C_CLOSE. -/
def execEnTerm (s : State) : Res State :=
  chain (codeLenAt s 256) fun len =>
  chain (codeBitsAt s 256 len) fun c =>
  chain (writeCode c s) fun s => .next { s with phase := .cClose }

/-- EN_CLOSE (R170): Close(OUT), ST <- DONE, pc <- P_IDLE. -/
def execEnClose (s : State) : Res State := .next (finish s)

end Sys2Proof.Machine
end

