-- ==== Sys2Proof/Machine/TreeBuilder.lean ====
section
/-! DEFINITION. Machine/TreeBuilder.lean: TB_INIT, TB_MERGE, TB_ROOT (41_tree_builder.md). -/

namespace Sys2Proof.Machine

/-- Symbol s has a leaf: s in 0..256 with FREQ[s] > 0 (R133). -/
def occurs (f : Vector Nat 257) (i : Nat) : Bool := decide (0 < f[i]?.getD 0)

/-- TB_INIT (R133): one leaf per symbol with count > 0; a symbol whose count is 0 "gets no leaf and NODE[s] keeps no
value". -/
def execTbInit (s : State) : Res State :=
  chain (need s.freq .freq) fun f =>
  .next { s with
    node := tabulate 513 fun i =>
      if occurs f i then some (.leaf (BitVec.ofNat 9 i) (f[i]?.getD 0)) else (s.node[i]?).join
    active := some (tabulate 513 fun i => occurs f i)
    nextIdx := some 257
    phase := .cMerge }

/-- TB_MERGE (R134): the two lowest keys are removed, the first becoming `left` and the second `right` of a new internal
node at NEXT whose weight is their sum. A sum of more than WEIGHT_W bits is outside the admitted subset (R136, U8). -/
def execTbMerge (s : State) : Res State :=
  chain (need s.active .active) fun act =>
  chain (lightest s act) fun a =>
  chain (putVec act a false .active) fun act =>
  chain (lightest s act) fun b =>
  chain (putVec act b false .active) fun act =>
  chain (nodeAt s a) fun na =>
  chain (nodeAt s b) fun nb =>
  chain (need s.nextIdx .nextIdx) fun n =>
  if na.weight + nb.weight < 2 ^ s.par.weightW then
    chain (putVec s.node n (some (.internal (na.weight + nb.weight) a b)) .node) fun node =>
    chain (putVec act n true .active) fun act =>
    .next { s with node := node, active := some act, nextIdx := some (n + 1), phase := .cMerge }
  else .refused .inputTooLong

/-- TB_ROOT (R135): ROOT <- "the one i with ACTIVE[i] = 1", pc <- C_CGINIT. -/
def execTbRoot (s : State) : Res State :=
  chain (need s.active .active) fun act =>
  match activeIndices act with
  | [i] => .next { s with root := some i, phase := .cCginit }
  | _ => .fault .collectionSize

end Sys2Proof.Machine
end

