-- ==== Sys2Proof/Machine/Dispatch.lean ====
section
/-! DEFINITION. Machine/Dispatch.lean: exec, one arm per constructor of Instr, each one direct call of its meaning. -/

namespace Sys2Proof.Machine

def exec (i : Instr) (s : State) : Host.Outcome State Fault Refusal :=
  match i with
  -- host commands
  | .nop => Sys2Proof.Machine.execNop s
  | .compress => Sys2Proof.Machine.execCompress s
  | .decompress => Sys2Proof.Machine.execDecompress s
  | .rsvd3 => Sys2Proof.Machine.execRsvd3 s
  -- FrequencyCounter
  | .fcClear => Sys2Proof.Machine.execFcClear s
  | .fcAcc r => Sys2Proof.Machine.execFcAcc r s
  | .fcEnd => Sys2Proof.Machine.execFcEnd s
  -- TreeBuilder
  | .tbInit => Sys2Proof.Machine.execTbInit s
  | .tbMerge => Sys2Proof.Machine.execTbMerge s
  | .tbRoot => Sys2Proof.Machine.execTbRoot s
  -- CodeTableGenerator
  | .cgInit => Sys2Proof.Machine.execCgInit s
  | .cgStep => Sys2Proof.Machine.execCgStep s
  -- StreamEncoder and HeaderCodec, serialize half
  | .enMagic => Sys2Proof.Machine.execEnMagic s
  | .hsStart => Sys2Proof.Machine.execHsStart s
  | .hsStep => Sys2Proof.Machine.execHsStep s
  | .enRewind => Sys2Proof.Machine.execEnRewind s
  | .enSym r => Sys2Proof.Machine.execEnSym r s
  | .enTerm => Sys2Proof.Machine.execEnTerm s
  | .enClose => Sys2Proof.Machine.execEnClose s
  -- StreamDecoder and HeaderCodec, deserialize half
  | .deMagic => Sys2Proof.Machine.execDeMagic s
  | .hdStart => Sys2Proof.Machine.execHdStart s
  | .hdStep => Sys2Proof.Machine.execHdStep s
  | .deStep => Sys2Proof.Machine.execDeStep s
  | .deClose => Sys2Proof.Machine.execDeClose s
  -- stream tokens
  | .magic => Sys2Proof.Machine.execMagic s
  | .hdrInternal => Sys2Proof.Machine.execHdrInternal s
  | .hdrLeaf sym => Sys2Proof.Machine.execHdrLeaf sym s
  | .brLeft => Sys2Proof.Machine.execBrLeft s
  | .brRight => Sys2Proof.Machine.execBrRight s

end Sys2Proof.Machine
end

