-- ==== Sys2Proof/WellFormed.lean ====
section
/-! DEFINITION. WellFormed.lean: which parameters make a machine of this spec, which words of the three formats can be
decoded, and which encodings the spec reserves. Every term of `Instr` is well formed by its type (a byte operand has 8
bits, a symbol field 9), so nothing is left to check there but the reserved encodings. -/

namespace Sys2Proof

/-- The parameters R9 admits: WEIGHT_W is a positive integer, DEC_NODE_CAP at least 513; the medium has a unit (R69). -/
def Params.wellFormed (p : Params) : Bool :=
  decide (0 < p.weightW) && decide (513 ≤ p.decNodeCap) && decide (0 < p.mediumUnit)

/-- The encodings the spec reserves: command code 3 (R194) and the symbol fields 257 to 511 (R98 c). They are decoded and
executed like any other (RSVD3 as NOP; the leaf is stored), so this is no refusal. -/
def Instr.reserved : Instr → Bool
  | .rsvd3       => true
  | .hdrLeaf sym => decide (256 < sym.toNat)
  | .nop => false | .compress => false | .decompress => false
  | .fcClear => false | .fcAcc _ => false | .fcEnd => false
  | .tbInit => false | .tbMerge => false | .tbRoot => false
  | .cgInit => false | .cgStep => false
  | .enMagic => false | .hsStart => false | .hsStep => false | .enRewind => false
  | .enSym _ => false | .enTerm => false | .enClose => false
  | .deMagic => false | .hdStart => false | .hdStep => false | .deStep => false | .deClose => false
  | .magic => false | .hdrInternal => false | .brLeft => false | .brRight => false

/-- A condition is one R104 gives the phase with this code: a read of a byte for C_COUNT (2) and C_ENC (11), a count of
ACTIVE for C_MERGE (4), "always" elsewhere. -/
def Cond.fits (code : BitVec 5) : Cond → Bool
  | .byte _ => code == 2#5 || code == 11#5
  | .eos    => code == 2#5 || code == 11#5
  | .many   => code == 4#5
  | .one    => code == 4#5
  | .always => !(code == 2#5 || code == 11#5 || code == 4#5)

/-- The words that have the shape of their format: any cmd_op; a PHASE code R103 lists, but P_IDLE, with a fitting
condition; the bits of exactly one record of the section. MAGIC's value is checked by the decoder, not here. -/
def Code.wellFormed : Code → Bool
  | .cmd _ => true
  | .phase code c =>
    ((decide (1 ≤ code.toNat) && decide (code.toNat ≤ 12)) || (decide (16 ≤ code.toNat) && decide (code.toNat ≤ 20)))
      && c.fits code
  | .stream .magic bits => bits.length == 32
  | .stream .header bits => bits == [false] || (bits.head? == some true && bits.length == 10)
  | .stream .payload bits => bits.length == 1

end Sys2Proof
end

