-- ==== Sys2Proof/Decode.lean ====
section
/-! DEFINITION. Decode.lean: the decoder, total on any word, and after it the encoder, both written from the tables of
30_encoding.md: command codes (R101), PHASE codes and unit-operation selection (R103, R104), stream tokens (R106). -/

namespace Sys2Proof

/-- The command codes of R101. -/
def decodeCmd (op : BitVec 2) : Instr :=
  if op = 0#2 then .nop
  else if op = 1#2 then .compress
  else if op = 2#2 then .decompress
  else .rsvd3

/-- The PHASE codes of R103, from code to phase. -/
def phaseOf (code : BitVec 5) : Option Phase :=
  match code.toNat with
  | 0 => some .pIdle
  | 1 => some .cClear
  | 2 => some .cCount
  | 3 => some .cTbinit
  | 4 => some .cMerge
  | 5 => some .cCginit
  | 6 => some .cCgen
  | 7 => some .cMagic
  | 8 => some .cHsinit
  | 9 => some .cHdr
  | 10 => some .cRewind
  | 11 => some .cEnc
  | 12 => some .cClose
  | 16 => some .dMagic
  | 17 => some .dHdinit
  | 18 => some .dHdr
  | 19 => some .dDec
  | 20 => some .dClose
  | _ => none

/-- The PHASE codes of R103, from phase to code. -/
def phaseCode : Phase → BitVec 5
  | .pIdle => 0#5
  | .cClear => 1#5
  | .cCount => 2#5
  | .cTbinit => 3#5
  | .cMerge => 4#5
  | .cCginit => 5#5
  | .cCgen => 6#5
  | .cMagic => 7#5
  | .cHsinit => 8#5
  | .cHdr => 9#5
  | .cRewind => 10#5
  | .cEnc => 11#5
  | .cClose => 12#5
  | .dMagic => 16#5
  | .dHdinit => 17#5
  | .dHdr => 18#5
  | .dDec => 19#5
  | .dClose => 20#5

/-- The selection table of R104: the unit operation of a phase under a condition. -/
def decodePhase : Phase → Cond → Decoded
  | .pIdle, _ => .reject .noUnitOperation
  | .cClear, .always => .ok .fcClear
  | .cCount, .byte r => .ok (.fcAcc r)
  | .cCount, .eos => .ok .fcEnd
  | .cTbinit, .always => .ok .tbInit
  | .cMerge, .many => .ok .tbMerge
  | .cMerge, .one => .ok .tbRoot
  | .cCginit, .always => .ok .cgInit
  | .cCgen, .always => .ok .cgStep
  | .cMagic, .always => .ok .enMagic
  | .cHsinit, .always => .ok .hsStart
  | .cHdr, .always => .ok .hsStep
  | .cRewind, .always => .ok .enRewind
  | .cEnc, .byte r => .ok (.enSym r)
  | .cEnc, .eos => .ok .enTerm
  | .cClose, .always => .ok .enClose
  | .dMagic, .always => .ok .deMagic
  | .dHdinit, .always => .ok .hdStart
  | .dHdr, .always => .ok .hdStep
  | .dDec, .always => .ok .deStep
  | .dClose, .always => .ok .deClose
  | _, _ => .reject .wrongCondition

/-- Reading one token of a section from the front of a bit sequence (R97, R106, R107): the magic is 32 bits long, a
header record 1 or 10 bits by its tag, a payload branch 1 bit. -/
def decodeToken (p : Params) : Sect → Bits → Token
  | .magic, bits =>
    if bits.length < 32 then .reject .incomplete
    else if val (bits.take 32) = p.magic.toNat then .ok .magic (bits.drop 32)
    else .reject .notMagic
  | .header, [] => .reject .incomplete
  | .header, false :: rest => .ok .hdrInternal rest
  | .header, true :: rest =>
    if rest.length < 9 then .reject .incomplete
    else .ok (.hdrLeaf (BitVec.ofNat 9 (val (rest.take 9)))) (rest.drop 9)
  | .payload, [] => .reject .incomplete
  | .payload, false :: rest => .ok .brLeft rest
  | .payload, true :: rest => .ok .brRight rest

/-- The decoder: total, and rejecting by name. -/
def decode (p : Params) : Code → Decoded
  | .cmd op => .ok (decodeCmd op)
  | .phase code c =>
    match phaseOf code with
    | none => .reject .phaseNotListed
    | some ph => decodePhase ph c
  | .stream sec bits =>
    match decodeToken p sec bits with
    | .ok i [] => .ok i
    | .ok _ (_ :: _) => .reject .trailingBits
    | .reject e => .reject e

/-- The encoder: the word of an instruction, from the same tables. -/
def encode (p : Params) : Instr → Code
  | .nop => .cmd 0#2
  | .compress => .cmd 1#2
  | .decompress => .cmd 2#2
  | .rsvd3 => .cmd 3#2
  | .fcClear => .phase 1#5 .always
  | .fcAcc r => .phase 2#5 (.byte r)
  | .fcEnd => .phase 2#5 .eos
  | .tbInit => .phase 3#5 .always
  | .tbMerge => .phase 4#5 .many
  | .tbRoot => .phase 4#5 .one
  | .cgInit => .phase 5#5 .always
  | .cgStep => .phase 6#5 .always
  | .enMagic => .phase 7#5 .always
  | .hsStart => .phase 8#5 .always
  | .hsStep => .phase 9#5 .always
  | .enRewind => .phase 10#5 .always
  | .enSym r => .phase 11#5 (.byte r)
  | .enTerm => .phase 11#5 .eos
  | .enClose => .phase 12#5 .always
  | .deMagic => .phase 16#5 .always
  | .hdStart => .phase 17#5 .always
  | .hdStep => .phase 18#5 .always
  | .deStep => .phase 19#5 .always
  | .deClose => .phase 20#5 .always
  | .magic => .stream .magic (bin 32 p.magic.toNat)
  | .hdrInternal => .stream .header [false]
  | .hdrLeaf sym => .stream .header (true :: bin 9 sym.toNat)
  | .brLeft => .stream .payload [false]
  | .brRight => .stream .payload [true]

/-- The word an opcode-table number stands for. The table's three 8-bit formats share their numbers (command code 1, PHASE
code 1 and the bit `1` are all the number 1), and only the context tells them apart (R105, R107). A core after reset waits
for a command, so 0 to 3 are read as cmd_op; 4 to 31 as a PHASE code, with an operand byte of zeros where the phase reads
one and count(ACTIVE) >= 2 for C_MERGE; 16 bits as a header record of 10 bits, first bit of the stream most significant;
32 bits as the word at stream position 0. DESIGN CHOICE, log entry 17. -/
def tableCode (nbits w : Nat) : Code :=
  if nbits ≤ 8 then
    if w < 4 then .cmd (BitVec.ofNat 2 w)
    else
      let code := BitVec.ofNat 5 w
      if w = 4 then .phase code .many
      else if w = 11 then .phase code (.byte 0#8)
      else .phase code .always
  else if nbits ≤ 16 then .stream .header (bin 10 w)
  else .stream .magic (bin 32 w)

/-- The instruction the decoder reads from an opcode-table word, under the default parameters (MAGIC's row gives the
default value of the parameter, R112). -/
def decodeTableWord (nbits w : Nat) : Option Instr :=
  if w < 32 ∨ 8 < nbits then
    match decode Params.default (tableCode nbits w) with
    | .ok i => some i
    | .reject _ => none
  else none

end Sys2Proof
end

