-- ==== Sys2Proof/Machine/Flags.lean ====
section
/-! DEFINITION. Machine/Flags.lean: the status codes (R102), the level outputs (R25) and the STATUS word the host reads
(R25, R195). "The core has no arithmetic condition codes." -/

namespace Sys2Proof.Machine

/-- The codes of ST (R22, R102). -/
def stCode : RunState → BitVec 2
  | .idle => 0#2
  | .busy => 1#2
  | .done => 2#2
  | .error => 3#2

/-- The codes of ERR (R24, R102, R210). -/
def errCode : ErrCode → BitVec 3
  | .none => 0#3
  | .format => 1#3
  | .malformed => 2#3
  | .capacity => 3#3
  | .symRange => 4#3
  | .noCode => 5#3

/-- The level output `busy` = (ST = BUSY) (R25). -/
def State.busy (s : State) : Bool := decide (s.st = .busy)

/-- The level output `done` = (ST = DONE) (R25). -/
def State.done (s : State) : Bool := decide (s.st = .done)

/-- The level output `error` = (ST = ERROR) (R25). -/
def State.error (s : State) : Bool := decide (s.st = .error)

/-- `cmd_ready` "is 1 exactly when STATUS.ST is not BUSY" (R21). -/
def State.cmdReady (s : State) : Bool := !s.busy

/-- The STATUS register read as one word: STATUS[1:0] = ST, STATUS[4:2] = ERR, STATUS[9:5] = PHASE, higher bits zero (R25).
The read has no side effect (R195), so it is a function of the state. The width of 32 bits is a DESIGN CHOICE (entry 12). -/
def State.statusWord (s : State) : BitVec 32 :=
  (phaseCode s.phase ++ errCode s.err ++ stCode s.st).setWidth 32

end Sys2Proof.Machine
end

