-- ==== Sys2Proof/Machine/Fetch.lean ====
section
/-! DEFINITION. Machine/Fetch.lean: how a step finds what to do: the reset input (R240), the command port's handshake
(R21, R190), the unit-operation selection of R104 with the read a step begins with, the tables that hold a value for it
(R40, R41), a collaborator that does not answer (R256); what the host may do between steps (R244, R246, R247); and how a single word is put where a step fetches it. -/

namespace Sys2Proof.Machine

/-- The unit operation of this phase issues a transaction (R63, R67 and the rules of files 43 to 45). -/
def issuesTransaction : Phase → Bool
  | .cCount => true
  | .cMagic => true
  | .cHdr => true
  | .cRewind => true
  | .cEnc => true
  | .cClose => true
  | .dMagic => true
  | .dHdr => true
  | .dDec => true
  | .dClose => true
  | .pIdle => false
  | .cClear => false
  | .cTbinit => false
  | .cMerge => false
  | .cCginit => false
  | .cCgen => false
  | .cHsinit => false
  | .dHdinit => false

/-- The read `r = MemRead(IN, 8)` that a step in C_COUNT or C_ENC begins with (R104). -/
def readCond (s : State) : Cond × State :=
  match bitRead 8 s with
  | (some r, s) => (.byte r, s)
  | (none, s) => (.eos, s)

/-- The condition of R104, "evaluated on the state at the start of the step", and the state after the read the step begins
with, if it begins with one. -/
def select (s : State) : Res (Cond × State) :=
  match s.phase with
  | .cCount => .next (readCond s)
  | .cEnc => .next (readCond s)
  | .cMerge =>
    chain (need s.active .active) fun a =>
    if 2 ≤ countActive a then .next (.many, s)
    else if countActive a = 1 then .next (.one, s)
    else .refused .noUnitOperation
  | _ => .next (.always, s)

/-- The start of a step. Reset (R240, R242) comes before a command presented in the same step, which stays on the port for a
later step: the spec does not say which of the two wins (DESIGN CHOICE, log entry 19). While BUSY the phase selects a unit
operation, unless it waits for a collaborator that does not answer (R256: "the core stays in its phase"), and it finds only
the tables whose lifetime includes it (R41); while not BUSY a presented command is accepted, the handshake taking it off
the port (R21, R190), and "an idle core does nothing until a command is accepted" (R223). -/
def fetch (s : State) : Res Fetched :=
  if s.rst then
    if s.st = .busy then .refused .resetWhileBusy else .next (.stay (hardReset s))
  else if s.st = .busy then
    if !s.ioReady && issuesTransaction s.phase then .next (.stay s)
    else chain (select (expire s)) fun (c, s') => .next (.run (.phase (phaseCode s.phase) c) s')
  else if s.cmdValid then .next (.run (.cmd s.cmdOp) { s with cmdValid := false })
  else .next (.stay s)

/-! ## What the host does between steps -/

/-- The host presents a command (R21). -/
def State.present (op : BitVec 2) (s : State) : State := { s with cmdValid := true, cmdOp := op }

/-- The host binds BitIn to an input with rp = 0 and BitOut to an empty, open output (R244). -/
def State.bindStreams (input : Bits) (s : State) : State :=
  { s with inBits := input, rp := 0, outBits := [], closed := false, medium := [] }

/-- What a host that breaks R246 does: BitIn serves other bits from now on. -/
def State.changeInput (input : Bits) (s : State) : State := { s with inBits := input }

/-- The host asserts the reset input (R240). -/
def State.assertReset (s : State) : State := { s with rst := true }

/-- A collaborator stops answering, or answers again (R71, R256). -/
def State.setReady (b : Bool) (s : State) : State := { s with ioReady := b }

/-- The duties of R244 at the step a command is accepted: rp = 0, OUT empty, closed = 0. "The core cannot check any of
this." -/
def State.streamsReady (s : State) : Prop := s.rp = 0 ∧ s.outBits = [] ∧ s.closed = false

/-! ## One word where the next step fetches it -/

/-- The machine about to perform the unit operation of a phase, nothing in the way of the fetch. -/
def State.inPhase (ph : Phase) (s : State) : State :=
  { s with rst := false, ioReady := true, st := .busy, phase := ph }

/-- The machine with a word where its next step fetches it: a command on the port of a core that is not BUSY; a PHASE code
in the sequencer, with what R104's condition needs (an operand byte of zeros for C_ENC, two members of ACTIVE for
C_MERGE); the bits of a stream token on a BitIn read from its start, with the phase of their section (log entry 17). -/
def placeWord (w : Code) (s : State) : State :=
  match w with
  | .cmd op =>
    let s := { s with rst := false, cmdValid := true, cmdOp := op }
    if s.st = .busy then { s with st := .idle, phase := .pIdle } else s
  | .phase code c =>
    match phaseOf code with
    | none => s
    | some ph =>
      let s := s.inPhase ph
      match c with
      | .byte r => { s with inBits := bin 8 r.toNat, rp := 0 }
      | .eos => { s with inBits := [], rp := 0 }
      | .many => { s with active := some (tabulate 513 fun i => decide (i < 2)) }
      | .one => { s with active := some (tabulate 513 fun i => decide (i < 1)) }
      | .always => s
  | .stream .magic bits => { s.inPhase .dMagic with inBits := bits, rp := 0 }
  | .stream .header bits => { s.inPhase .dHdr with inBits := bits, rp := 0 }
  | .stream .payload bits => { s.inPhase .dDec with inBits := bits, rp := 0 }

end Sys2Proof.Machine
end

