-- ==== Sys2Proof/Machine/Step.lean ====
section
/-! DEFINITION. Machine/Step.lean: one step of the machine: fetch, decode, execute. -/

namespace Sys2Proof.Machine

/-- Running what the fetch found. A word that is no instruction is refused; "the codes not listed are never held" (R103),
so that is never reached from a word the fetch makes, but for P_IDLE while BUSY (R23 rules it out). -/
def runFetched (f : Fetched) : Host.Outcome State Fault Refusal :=
  match f with
  | .stay s => .next s
  | .run w s =>
    match decode s.par w with
    | .ok i => exec i s
    | .reject _ => .refused .noUnitOperation

/-- One step (R11, R15, R104): "it takes one step at a time, each step being one unit operation"; acceptance of a command
"takes one step of its own" (R190). -/
def step (s : State) : Host.Outcome State Fault Refusal := chain (fetch s) runFetched

/-- The state with the opcode-table word `w` of `nbits` bits where the next step fetches it. -/
def State.withFetchWord (s : State) (nbits w : Nat) : State := placeWord (tableCode nbits w) s

end Sys2Proof.Machine
end

