-- ==== Sys2Proof/Machine/Reference.lean ====
section
/-! DEFINITION. Machine/Reference.lean: the functions the spec says the units compute, written on trees and sequences and not
on the machine: freq(X) (R120), build(F) (R130), codes(T) (R140), ser(T) and deser (R93, R150, R154), payload and
container (R90, R94), the decoder's walk (R175, R185), DECOMPRESS as a function (R198), and the tree a node store denotes
(R30). Statements compare the machine with them; no step uses them. -/

namespace Sys2Proof.Machine

/-- A Huffman tree (R30): "polymorphic over two variants". -/
inductive Tree where
  | leaf (sym : Symbol) (weight : Nat)
  | internal (weight : Nat) (left right : Tree)
  deriving DecidableEq, Repr

/-- The weight of a tree's root. -/
def Tree.weight : Tree → Nat
  | .leaf _ w => w
  | .internal w _ _ => w

/-- The symbols on the leaves, from left to right. -/
def Tree.symbols : Tree → List Symbol
  | .leaf s _ => [s]
  | .internal _ l r => l.symbols ++ r.symbols

/-- The number of nodes: 2L - 1 for a tree with L leaves (R132). -/
def Tree.nodes : Tree → Nat
  | .leaf _ _ => 1
  | .internal _ l r => l.nodes + r.nodes + 1

/-- The depth of the deepest leaf (R132). -/
def Tree.depth : Tree → Nat
  | .leaf _ _ => 0
  | .internal _ l r => max l.depth r.depth + 1

/-- The same shape and leaf symbols with all weights 0: "weights are not persisted" (R154, R161). -/
def Tree.unweighted : Tree → Tree
  | .leaf s _ => .leaf s 0
  | .internal _ l r => .internal 0 l.unweighted r.unweighted

/-- tree(S, i) for the store NODE (R30), with a bound on the depth. -/
def treeOf (node : Vector (Option Node) 513) : Nat → Nat → Option Tree
  | 0, _ => none
  | k + 1, i =>
    match node[i]? with
    | some (some (.leaf s w)) => some (.leaf s w)
    | some (some (.internal w l r)) =>
      match treeOf node k l, treeOf node k r with
      | some a, some b => some (.internal w a b)
      | _, _ => none
    | _ => none

/-- tree(NODE, i). -/
def State.tree (s : State) (i : Nat) : Option Tree := treeOf s.node 513 i

/-- tree(S, i) for the store DNODE, whose records have "by definition" the weight 0 (R36). -/
def dtreeOf (dnode : List DNode) : Nat → Nat → Option Tree
  | 0, _ => none
  | k + 1, i =>
    match dnode[i]? with
    | some { leaf := some true, sym := some s, .. } => some (.leaf s 0)
    | some { leaf := some false, left := some l, right := some r, .. } =>
      match dtreeOf dnode k l, dtreeOf dnode k r with
      | some a, some b => some (.internal 0 a b)
      | _, _ => none
    | _ => none

/-- tree(DNODE, i). -/
def State.dtree (s : State) (i : Nat) : Option Tree := dtreeOf s.dnode (s.dnode.length + 1) i

/-- The input bit sequence of COMPRESS: bin_8(X[0]) ++ bin_8(X[1]) ++ ... (R61). -/
def bytesToBits (X : List Byte) : Bits := X.flatMap fun b => bin 8 b.toNat

/-- freq(X)[i] (R120). -/
def freqOf (X : List Byte) (i : Nat) : Nat :=
  if i = 256 then 1 else X.countP fun b => decide (b.toNat = i)

/-- freq(X) as a table. -/
def freqTable (X : List Byte) : Vector Nat 257 := tabulate 257 (freqOf X)

/-- A member of the TreeBuilder's collection: the index of its record and its tree. -/
abbrev Item := Nat × Tree

/-- The key of a member (R131). -/
def itemKey (x : Item) : Nat × Nat := (x.2.weight, x.1)

/-- The member with the least key. -/
def leastItem : List Item → Option Item
  | [] => none
  | x :: xs => some (xs.foldl (fun m y => if keyLt (itemKey y) (itemKey m) then y else m) x)

/-- The greedy merge of R130 and R134, the next internal node having index n; at most `k` merges. -/
def mergeAll : Nat → Nat → List Item → Option Item
  | _, _, [x] => some x
  | 0, _, _ => none
  | k + 1, n, c =>
    match leastItem c with
    | none => none
    | some a =>
      let c := c.filter fun x => decide (x.1 ≠ a.1)
      match leastItem c with
      | none => none
      | some b =>
        let c := c.filter fun x => decide (x.1 ≠ b.1)
        mergeAll k (n + 1) (c ++ [(n, .internal (a.2.weight + b.2.weight) a.2 b.2)])

/-- "Insert one leaf per symbol with count > 0" (R130). -/
def leafItems (f : Vector Nat 257) : List Item :=
  (List.range 257).filterMap fun i =>
    if 0 < f[i]?.getD 0 then some (i, .leaf (BitVec.ofNat 9 i) (f[i]?.getD 0)) else none

/-- build(F), with the index of the root's record (R130, R135). -/
def build (f : Vector Nat 257) : Option Item := mergeAll 257 257 (leafItems f)

/-- walk(T, p) of R140. -/
def codeWalk : Tree → Bits → List (Symbol × Bits)
  | .leaf s _, p => [(s, p)]
  | .internal _ l r, p => codeWalk l (p ++ [false]) ++ codeWalk r (p ++ [true])

/-- codes(T) (R140); the sole leaf of the degenerate tree has the code `0` (R143). -/
def codes : Tree → List (Symbol × Bits)
  | .leaf s _ => [(s, [false])]
  | .internal w l r => codeWalk (.internal w l r) []

/-- K(s), empty for a symbol without a code (R34: CODE_LEN = 0 means "no code"). -/
def codeOf (T : Tree) (s : Symbol) : Bits := ((codes T).lookup s).getD []

/-- ser(T) = hdr(T) (R93, R150). -/
def ser : Tree → Bits
  | .leaf s _ => true :: bin 9 s.toNat
  | .internal _ l r => false :: (ser l ++ ser r)

/-- deser (R154), with a bound on the depth; `none` is its MalformedStreamError. -/
def deserFuel : Nat → Bits → Option (Tree × Bits)
  | 0, _ => none
  | _ + 1, [] => none
  | _ + 1, true :: u =>
    if u.length < 9 then none else some (.leaf (BitVec.ofNat 9 (val (u.take 9))) 0, u.drop 9)
  | k + 1, false :: u =>
    match deserFuel k u with
    | none => none
    | some (l, v) =>
      match deserFuel k v with
      | none => none
      | some (r, rest) => some (.internal 0 l r, rest)

/-- deser (R154): every record takes at least one bit, so the length bounds the depth. -/
def deser (u : Bits) : Option (Tree × Bits) := deserFuel (u.length + 1) u

/-- payload(X, K) (R94). -/
def payload (T : Tree) (X : List Byte) : Bits :=
  (X.flatMap fun b => codeOf T (zext9 b)) ++ codeOf T 256#9

/-- container(X) (R90), `none` only if build had no result (R132 rules it out). -/
def container (p : Params) (X : List Byte) : Option Bits :=
  (build (freqTable X)).map fun x => bin 32 p.magic.toNat ++ ser x.2 ++ payload x.2 X

/-- The writes of the header, one record a node in preorder (R152, R197). -/
def headerTrace : Tree → List Transaction
  | .leaf s _ => [.write 1 1, .write 9 s.toNat]
  | .internal _ l r => .write 1 0 :: (headerTrace l ++ headerTrace r)

/-- The write of a code: `MemWrite(OUT, len(c), val(c))` (R66). -/
def codeWrite (c : Bits) : Transaction := .write c.length (val c)

/-- The transactions of a COMPRESS of X whose tree is T, in order (R197). -/
def compressTrace (p : Params) (T : Tree) (X : List Byte) : List Transaction :=
  X.map (fun b => .read 8 (some b.toNat)) ++ [.read 8 none] ++
  [.write 32 p.magic.toNat] ++ headerTrace T ++ [.rewind] ++
  X.flatMap (fun b => [.read 8 (some b.toNat), codeWrite (codeOf T (zext9 b))]) ++
  [.read 8 none, codeWrite (codeOf T 256#9), .close]

/-- How a walk over the payload ends (R175, R178). -/
inductive WalkEnd where
  | terminator | exhausted | reservedSymbol
  deriving DecidableEq, Repr

/-- What a walk over the payload gives: the bytes output, how it ends, and the bits it did not read. -/
structure Walked where
  bytes : List Byte
  how   : WalkEnd
  rest  : Bits
  deriving DecidableEq, Repr

/-- decode(D, u) (R175, R185) from the tree position `cur`; a degenerate tree consumes each bit and ignores it (R182), and
a leaf above 256 stops the walk (R178). -/
def walkBits (D : Tree) : Tree → Bits → Walked
  | _, [] => { bytes := [], how := .exhausted, rest := [] }
  | cur, b :: u =>
    let pos := match D, cur with
      | .leaf _ _, c => c
      | .internal _ _ _, .internal _ l r => if b then r else l
      | .internal _ _ _, .leaf s w => .leaf s w
    match pos with
    | .leaf s _ =>
      if s = 256#9 then { bytes := [], how := .terminator, rest := u }
      else if 256 < s.toNat then { bytes := [], how := .reservedSymbol, rest := u }
      else
        let w := walkBits D D u
        { w with bytes := lowByte s :: w.bytes }
    | .internal w l r => walkBits D (.internal w l r) u

/-- How a header ends (R156): complete after so many records, an end of stream, or a full store; with the bits left. -/
inductive HeaderEnd where
  | complete (records : Nat) (rest : Bits)
  | malformed (rest : Bits)
  | capacity (rest : Bits)
  deriving DecidableEq, Repr

/-- Reading header records (R92, R156, R218) while `open` subtrees are still to come and `n` records are stored, in a
store of `cap` records. -/
def scanHeader (cap : Nat) : Nat → Nat → Nat → Bits → HeaderEnd
  | _, 0, n, u => .complete n u
  | 0, _ + 1, _, u => .malformed u
  | _ + 1, _ + 1, _, [] => .malformed []
  | k + 1, m + 1, n, t :: u =>
    if n = cap then .capacity u
    else if t then
      if u.length < 9 then .malformed u else scanHeader cap k m (n + 1) (u.drop 9)
    else scanHeader cap k (m + 2) (n + 1) u

/-- What a finished run of a command shows (R200): the final STATUS fields, OUT and rp. -/
structure RunResult where
  st  : RunState
  err : ErrCode
  out : Bits
  rp  : Nat
  deriving DecidableEq, Repr

/-- DECOMPRESS as a function (R198), its ways of ending "tested in this order along the stream". -/
def decompressResult (p : Params) (input : Bits) : RunResult :=
  if input.length < 32 then { st := .error, err := .format, out := [], rp := 0 }
  else if val (input.take 32) ≠ p.magic.toNat then { st := .error, err := .format, out := [], rp := 32 }
  else
    match scanHeader p.decNodeCap (input.length + 1) 1 0 (input.drop 32) with
    | .malformed rest => { st := .error, err := .malformed, out := [], rp := input.length - rest.length }
    | .capacity rest => { st := .error, err := .capacity, out := [], rp := input.length - rest.length }
    | .complete _ rest =>
      match deser (input.drop 32) with
      | none => { st := .error, err := .malformed, out := [], rp := input.length - rest.length }
      | some (T, u) =>
        let w := walkBits T T u
        let rp := input.length - w.rest.length
        match w.how with
        | .terminator => { st := .done, err := .none, out := bytesToBits w.bytes, rp := rp }
        | .exhausted => { st := .error, err := .malformed, out := bytesToBits w.bytes, rp := rp }
        | .reservedSymbol => { st := .error, err := .symRange, out := bytesToBits w.bytes, rp := rp }

/-- The observable part of a state (R45, R200): STATUS, OUT, `closed`, rp. -/
def State.result (s : State) : RunResult := { st := s.st, err := s.err, out := s.outBits, rp := s.rp }

end Sys2Proof.Machine
end

