-- ==== Sys2Proof/Safety.lean ====
section
/-! DEFINITION. Safety.lean: what a good state and a good run are, in the words the statements use. -/

namespace Sys2Proof.Machine

/-- The compression tables and the walker state, groups (2) and (3) of R20, hold no value. -/
def State.compressionEmpty (s : State) : Prop :=
  s.freq = none ∧ s.node = Vector.replicate 513 none ∧ s.active = none ∧ s.nextIdx = none ∧ s.root = none ∧
  s.codeLen = Vector.replicate 257 none ∧ s.codeBits = Vector.replicate 257 none ∧
  s.stack = Vector.replicate 257 none ∧ s.sp = none ∧ s.path = Vector.replicate 256 none

/-- The decompression state, group (4) of R20, holds no value. -/
def State.decompressionEmpty (s : State) : Prop :=
  s.dnode = List.replicate s.par.decNodeCap DNode.blank ∧ s.dnext = none ∧
  s.dstack = List.replicate s.par.decNodeCap none ∧ s.dsp = none ∧ s.cur = none

/-- A phase of the COMPRESS flow (R103). -/
def compressing : Phase → Bool
  | .cClear => true | .cCount => true | .cTbinit => true | .cMerge => true | .cCginit => true | .cCgen => true
  | .cMagic => true | .cHsinit => true | .cHdr => true | .cRewind => true | .cEnc => true | .cClose => true
  | .pIdle => false | .dMagic => false | .dHdinit => false | .dHdr => false | .dDec => false | .dClose => false

/-- A phase of the DECOMPRESS flow (R103). -/
def decompressing : Phase → Bool
  | .dMagic => true | .dHdinit => true | .dHdr => true | .dDec => true | .dClose => true
  | .pIdle => false | .cClear => false | .cCount => false | .cTbinit => false | .cMerge => false | .cCginit => false
  | .cCgen => false | .cMagic => false | .cHsinit => false | .cHdr => false | .cRewind => false | .cEnc => false
  | .cClose => false

/-- ST, ERR and PHASE go together: PHASE "is P_IDLE (0) whenever ST is not BUSY" (R23) and only then; ERR "is NONE whenever
ST is IDLE, BUSY or DONE" (R24) and a code in ERROR. -/
def State.coherent (s : State) : Prop :=
  (s.phase = .pIdle ↔ s.st ≠ .busy) ∧ (s.err = .none ↔ s.st ≠ .error)

/-- The table or working register holds no value. -/
def State.holdsNone (s : State) : Reg → Prop
  | .freq => s.freq = none
  | .node => s.node = Vector.replicate 513 none
  | .active => s.active = none
  | .nextIdx => s.nextIdx = none
  | .root => s.root = none
  | .codeLen => s.codeLen = Vector.replicate 257 none
  | .codeBits => s.codeBits = Vector.replicate 257 none
  | .stack => s.stack = Vector.replicate 257 none
  | .sp => s.sp = none
  | .path => s.path = Vector.replicate 256 none
  | .dnode => s.dnode = List.replicate s.par.decNodeCap DNode.blank
  | .dnext => s.dnext = none
  | .dstack => s.dstack = List.replicate s.par.decNodeCap none
  | .dsp => s.dsp = none
  | .cur => s.cur = none

/-- The phases that may follow a phase while the command goes on (R104, column "PHASE after"). -/
def nextPhases : Phase → List Phase
  | .pIdle => []
  | .cClear => [.cCount]
  | .cCount => [.cCount, .cTbinit]
  | .cTbinit => [.cMerge]
  | .cMerge => [.cMerge, .cCginit]
  | .cCginit => [.cCgen, .cMagic]
  | .cCgen => [.cCgen, .cMagic]
  | .cMagic => [.cHsinit]
  | .cHsinit => [.cHdr]
  | .cHdr => [.cHdr, .cRewind]
  | .cRewind => [.cEnc]
  | .cEnc => [.cEnc, .cClose]
  | .cClose => []
  | .dMagic => [.dHdinit]
  | .dHdinit => [.dHdr]
  | .dHdr => [.dHdr, .dDec]
  | .dDec => [.dDec, .dClose]
  | .dClose => []

/-- R40, R41: a table or working register holds a value only where the unit operation before lies in its lifetime. So none
holds one "after reset, after a command ends, and in a DECOMPRESS for the compression tables (and the reverse)". -/
def State.lifetimes (s : State) : Prop :=
  ∀ r : Reg, (∀ before ∈ lifetime r, s.phase ∉ nextPhases before) → s.holdsNone r

/-- Every table has the size 10_state.md gives it (R36, R37), and rp lies in the input (R61). -/
def State.sized (s : State) : Prop :=
  s.dnode.length = s.par.decNodeCap ∧ s.dstack.length = s.par.decNodeCap ∧ s.rp ≤ s.inBits.length

/-- The value, if there is one, satisfies P. -/
def holdsOnly {α : Type} (x : Option α) (P : α → Prop) : Prop := ∀ a, x = some a → P a

/-- Every compression register fits the width 10_state.md gives it (R26, R31, R33 to R35): counts and weights WEIGHT_W
bits, node indices within NODE, NEXT at most 513, CODE_LEN at most 256, SP at most 257, a stack depth 9 bits. -/
def State.compressionFits (s : State) : Prop :=
  holdsOnly s.freq (fun f => freqTotal f < 2 ^ s.par.weightW) ∧
  (∀ (i : Nat) (n : Node), s.node[i]? = some (some n) → n.weight < 2 ^ s.par.weightW ∧
    ∀ w l r, n = .internal w l r → l < 513 ∧ r < 513) ∧
  holdsOnly s.nextIdx (fun n => n ≤ 513) ∧
  holdsOnly s.root (fun n => n < 513) ∧
  (∀ i len : Nat, s.codeLen[i]? = some (some len) → len ≤ 256) ∧
  holdsOnly s.sp (fun n => n ≤ 257) ∧
  (∀ (i : Nat) (e : StackEntry), s.stack[i]? = some (some e) → e.node < 513 ∧ holdsOnly e.depth (fun d => d < 512))

/-- Every decompression register fits its width (R36 to R38): indices within DNODE, DNEXT and DSP at most DEC_NODE_CAP. -/
def State.decompressionFits (s : State) : Prop :=
  holdsOnly s.dnext (fun n => n ≤ s.par.decNodeCap) ∧
  holdsOnly s.dsp (fun n => n ≤ s.par.decNodeCap) ∧
  holdsOnly s.cur (fun n => n < s.par.decNodeCap) ∧
  (∀ (i : Nat) (d : DNode), s.dnode[i]? = some d →
    holdsOnly d.left (fun n => n < s.par.decNodeCap) ∧ holdsOnly d.right (fun n => n < s.par.decNodeCap)) ∧
  (∀ (i : Nat) (e : DEntry), s.dstack[i]? = some (some e) → e.node < s.par.decNodeCap)

/-- "SP > 0 holds whenever PHASE = C_CGEN" (R142) and "whenever PHASE = C_HDR" (R152). -/
def State.walking (s : State) : Prop :=
  (s.phase = .cCgen ∨ s.phase = .cHdr) → ∃ n, s.sp = some (n + 1)

/-- The invariant of the machine. -/
structure State.Inv (s : State) : Prop where
  params : s.par.wellFormed = true
  coherent : s.coherent
  lifetimes : s.lifetimes
  sized : s.sized
  compressionFits : s.compressionFits
  decompressionFits : s.decompressionFits
  walking : s.walking

/-- `k` steps of the machine. -/
def run (k : Nat) (s : State) : Res State := Host.Core.run Sys2Proof.core k s

/-- A function on the next state of an outcome. -/
def mapNext (f : State → State) : Res State → Res State
  | .next s => .next (f s)
  | .fault e => .fault e
  | .refused e => .refused e

/-- The weight of the record NODE[i], 0 where there is none. -/
def weightAt (s : State) (i : Nat) : Nat :=
  match s.node[i]? with
  | some (some n) => n.weight
  | _ => 0

/-- The key of NODE[i] (R131). -/
def keyAt (s : State) (i : Nat) : Nat × Nat := (weightAt s i, i)

/-- The core is in a command and its next step performs the unit operation of phase `ph`: no reset, the collaborators
answer. -/
structure State.inCommand (s : State) (ph : Phase) : Prop where
  noReset : s.rst = false
  ready : s.ioReady = true
  busy : s.st = .busy
  inPhase : s.phase = ph

/-- The state is equal to `t` in everything but the tables and working registers of groups (2) to (4). -/
def State.sameOutside (s t : State) : Prop := dropTables s = dropTables t

/-- The bits the writes of a list of transactions append to OUT (R66). -/
def writtenBits : List Transaction → Bits
  | [] => []
  | .write n v :: l => bin n v ++ writtenBits l
  | .read _ _ :: l => writtenBits l
  | .rewind :: l => writtenBits l
  | .close :: l => writtenBits l

/-- Where the reads and the rewinds of a list of transactions leave rp (R62, R64). -/
def movedTo : Nat → List Transaction → Nat
  | rp, [] => rp
  | rp, .read n (some _) :: l => movedTo (rp + n) l
  | rp, .read _ none :: l => movedTo rp l
  | _, .rewind :: l => movedTo 0 l
  | rp, .write _ _ :: l => movedTo rp l
  | rp, .close :: l => movedTo rp l

/-- The errors a unit operation of this phase may raise (R210, column "raised by"). -/
def phaseErrors : Phase → List ErrCode
  | .dMagic => [.format]
  | .dHdr => [.malformed, .capacity]
  | .dDec => [.malformed, .symRange]
  | .cEnc => [.noCode]
  | .pIdle => [] | .cClear => [] | .cCount => [] | .cTbinit => [] | .cMerge => [] | .cCginit => [] | .cCgen => []
  | .cMagic => [] | .cHsinit => [] | .cHdr => [] | .cRewind => [] | .cClose => [] | .dHdinit => [] | .dClose => []

/-- The machine just before it accepts a command: the command is presented to a core that is not BUSY, nothing is in the
way, and the streams are as R244 asks. -/
structure State.about (s : State) (op : BitVec 2) : Prop where
  noReset : s.rst = false
  presented : s.cmdValid = true
  command : s.cmdOp = op
  ready : s.ioReady = true
  notBusy : s.st ≠ .busy
  streams : s.streamsReady

end Sys2Proof.Machine
end

