-- ==== Sys2Proof/Certificates/Slice0/Obligations.lean ====
section
/-! DEFINITION. Certificates/Slice0/Obligations.lean: the statements for the provers, in the order of the spec: reset and
commands, the step, the streams, each unit's operations, errors, whole-machine rules, encodings, invariants, and the
functions the units and the commands compute. -/

open Sys2Proof Sys2Proof.Machine

/-! ## Reset, STATUS, commands -/

/-- R240. That no command stands on the port and no transaction was made before, so that the core waits, is the model's
choice (log entry 2). -/
def Obligations.ResetLeavesNoValue : Prop :=
  ∀ p : Params,
    (State.resetWith p).st = .idle ∧ (State.resetWith p).err = .none ∧ (State.resetWith p).phase = .pIdle ∧
    (State.resetWith p).cmdReady = true ∧ (State.resetWith p).busy = false ∧ (State.resetWith p).done = false ∧
    (State.resetWith p).error = false ∧ (State.resetWith p).compressionEmpty ∧
    (State.resetWith p).decompressionEmpty ∧ (State.resetWith p).trace = [] ∧
    step (State.resetWith p) = .next (State.resetWith p)

/-- R242, with the model's reading of U15 (log entry 8): reset while not BUSY gives the state of R240, the streams and the
port untouched and no transaction issued; reset while BUSY is refused, and what the core itself becomes is `hardReset`.
That the step takes rst back to false is the model's choice (log entry 10), and so is that reset wins over a command
presented in the same step and leaves it on the port (log entry 19). -/
def Obligations.ResetInputRestoresTheCore : Prop :=
  (∀ s : State, s.rst = true → s.st ≠ .busy → step s = .next (hardReset s)) ∧
  (∀ s : State, s.rst = true → s.st = .busy → step s = .refused .resetWhileBusy) ∧
  (∀ s : State,
    (hardReset s).st = .idle ∧ (hardReset s).err = .none ∧ (hardReset s).phase = .pIdle ∧ (hardReset s).rst = false ∧
    (hardReset s).compressionEmpty ∧ (hardReset s).decompressionEmpty ∧
    (hardReset s).inBits = s.inBits ∧ (hardReset s).rp = s.rp ∧ (hardReset s).outBits = s.outBits ∧
    (hardReset s).closed = s.closed ∧ (hardReset s).medium = s.medium ∧ (hardReset s).trace = s.trace ∧
    (hardReset s).draw = s.draw ∧ (hardReset s).cmdValid = s.cmdValid ∧ (hardReset s).cmdOp = s.cmdOp ∧
    (hardReset s).ioReady = s.ioReady ∧ (hardReset s).par = s.par)

/-- R25, with the codes of ST (R22), ERR (R24, R210) and PHASE (R23, R103) written out; that the word is 32 bits wide is the
model's choice (log entry 12). -/
def Obligations.StatusWordAndLevelOutputs : Prop :=
  ∀ s : State,
    s.statusWord.extractLsb' 0 2 = stCode s.st ∧ s.statusWord.extractLsb' 2 3 = errCode s.err ∧
    s.statusWord.extractLsb' 5 5 = phaseCode s.phase ∧ s.statusWord.extractLsb' 10 22 = 0#22 ∧
    (∀ c ∈ [(RunState.idle, 0#2), (.busy, 1#2), (.done, 2#2), (.error, 3#2)],
      s.st = c.1 → s.statusWord.extractLsb' 0 2 = c.2) ∧
    (∀ c ∈ [(ErrCode.none, 0#3), (.format, 1#3), (.malformed, 2#3), (.capacity, 3#3), (.symRange, 4#3), (.noCode, 5#3)],
      s.err = c.1 → s.statusWord.extractLsb' 2 3 = c.2) ∧
    (∀ c ∈ [(Phase.pIdle, 0#5), (.cClear, 1#5), (.cCount, 2#5), (.cTbinit, 3#5), (.cMerge, 4#5), (.cCginit, 5#5),
        (.cCgen, 6#5), (.cMagic, 7#5), (.cHsinit, 8#5), (.cHdr, 9#5), (.cRewind, 10#5), (.cEnc, 11#5), (.cClose, 12#5),
        (.dMagic, 16#5), (.dHdinit, 17#5), (.dHdr, 18#5), (.dDec, 19#5), (.dClose, 20#5)],
      s.phase = c.1 → s.statusWord.extractLsb' 5 5 = c.2) ∧
    (s.busy = true ↔ s.st = .busy) ∧ (s.done = true ↔ s.st = .done) ∧ (s.error = true ↔ s.st = .error)

/-- R193, R194. What becomes of cmd_valid after the handshake is the host's (the model's choice is log entry 11), so the
statement leaves it open. -/
def Obligations.NopAndReservedChangeNothing : Prop :=
  ∀ s : State,
    exec .nop s = .next s ∧ exec .rsvd3 s = .next s ∧
    (s.rst = false → s.st ≠ .busy → s.cmdValid = true → (s.cmdOp = 0#2 ∨ s.cmdOp = 3#2) →
      ∃ v : Bool, step s = .next { s with cmdValid := v })

/-- R190: acceptance, in a step of its own that issues no transaction; and while BUSY the presented command waits. What
becomes of cmd_valid at the handshake is left open (log entry 11). -/
def Obligations.AcceptanceStartsTheCommand : Prop :=
  (∀ s : State, s.st ≠ .busy →
    exec .compress s = .next { s with st := .busy, err := .none, phase := .cClear } ∧
    exec .decompress s = .next { s with st := .busy, err := .none, phase := .dMagic } ∧
    (s.rst = false → s.cmdValid = true → s.cmdOp = 1#2 →
      ∃ v : Bool, step s = .next { s with cmdValid := v, st := .busy, err := .none, phase := .cClear }) ∧
    (s.rst = false → s.cmdValid = true → s.cmdOp = 2#2 →
      ∃ v : Bool, step s = .next { s with cmdValid := v, st := .busy, err := .none, phase := .dMagic })) ∧
  (∀ s t : State, s.st = .busy → step s = .next t → t.cmdValid = s.cmdValid ∧ t.cmdOp = s.cmdOp)

/-- U10, R190, R247: the command in flight "is unaffected" by whatever stands on the port. -/
def Obligations.BusyCoreIgnoresThePort : Prop :=
  ∀ (s : State) (v : Bool) (op : BitVec 2), s.st = .busy →
    step { s with cmdValid := v, cmdOp := op } =
      mapNext (fun t => { t with cmdValid := v, cmdOp := op }) (step s)

/-- R223 ("an idle core (ST not BUSY) does nothing until a command is accepted") and R256 ("the core stays in its phase with
ST = BUSY"); that a transaction is made or not made as a whole is the model's choice (log entry 9). -/
def Obligations.CoreWaits : Prop :=
  (∀ s : State, s.rst = false → s.st ≠ .busy → s.cmdValid = false → step s = .next s) ∧
  (∀ s : State, s.rst = false → s.st = .busy → s.ioReady = false → issuesTransaction s.phase = true →
    step s = .next s)

/-! ## The step -/

/-- A step runs the instruction that the word it fetched decodes to, on the state after the read it began with. -/
def Obligations.StepRunsTheDecodedInstruction : Prop :=
  ∀ (s s' : State) (w : Code) (i : Instr),
    fetch s = .next (.run w s') → decode s'.par w = .ok i → step s = exec i s'

/-- The first three columns of the table of R104, with the read a step in C_COUNT or C_ENC begins with. Each operation finds
the tables that are live for it (R40, R41); that a table goes at the start of the step after its lifetime is log entry 7. -/
def Obligations.UnitOperationSelection : Prop :=
  (∀ s : State, s.inCommand .cClear → step s = exec .fcClear (expire s)) ∧
  (∀ (s : State) (r : Byte), s.inCommand .cCount → (s.inBits.drop s.rp).take 8 = bin 8 r.toNat →
    step s = exec (.fcAcc r)
      { expire s with rp := s.rp + 8, trace := s.trace ++ [.read 8 (some r.toNat)] }) ∧
  (∀ s : State, s.inCommand .cCount → s.inBits.length < s.rp + 8 →
    step s = exec .fcEnd { expire s with trace := s.trace ++ [.read 8 none] }) ∧
  (∀ s : State, s.inCommand .cTbinit → step s = exec .tbInit (expire s)) ∧
  (∀ (s : State) (act : Vector Bool 513), s.inCommand .cMerge → s.active = some act → 2 ≤ countActive act →
    step s = exec .tbMerge (expire s)) ∧
  (∀ (s : State) (act : Vector Bool 513), s.inCommand .cMerge → s.active = some act → countActive act = 1 →
    step s = exec .tbRoot (expire s)) ∧
  (∀ s : State, s.inCommand .cCginit → step s = exec .cgInit (expire s)) ∧
  (∀ s : State, s.inCommand .cCgen → step s = exec .cgStep (expire s)) ∧
  (∀ s : State, s.inCommand .cMagic → step s = exec .enMagic (expire s)) ∧
  (∀ s : State, s.inCommand .cHsinit → step s = exec .hsStart (expire s)) ∧
  (∀ s : State, s.inCommand .cHdr → step s = exec .hsStep (expire s)) ∧
  (∀ s : State, s.inCommand .cRewind → step s = exec .enRewind (expire s)) ∧
  (∀ (s : State) (r : Byte), s.inCommand .cEnc → (s.inBits.drop s.rp).take 8 = bin 8 r.toNat →
    step s = exec (.enSym r)
      { expire s with rp := s.rp + 8, trace := s.trace ++ [.read 8 (some r.toNat)] }) ∧
  (∀ s : State, s.inCommand .cEnc → s.inBits.length < s.rp + 8 →
    step s = exec .enTerm { expire s with trace := s.trace ++ [.read 8 none] }) ∧
  (∀ s : State, s.inCommand .cClose → step s = exec .enClose (expire s)) ∧
  (∀ s : State, s.inCommand .dMagic → step s = exec .deMagic (expire s)) ∧
  (∀ s : State, s.inCommand .dHdinit → step s = exec .hdStart (expire s)) ∧
  (∀ s : State, s.inCommand .dHdr → step s = exec .hdStep (expire s)) ∧
  (∀ s : State, s.inCommand .dDec → step s = exec .deStep (expire s)) ∧
  (∀ s : State, s.inCommand .dClose → step s = exec .deClose (expire s))

/-! ## The streams -/

/-- R62. -/
def Obligations.BitReadReturnsTheNextBits : Prop :=
  ∀ (n : Nat) (s : State),
    (s.rp + n ≤ s.inBits.length → ∃ v : BitVec n,
      bin n v.toNat = (s.inBits.drop s.rp).take n ∧
      bitRead n s = (some v, { s with rp := s.rp + n, trace := s.trace ++ [.read n (some v.toNat)] })) ∧
    (s.inBits.length < s.rp + n → bitRead n s = (none, { s with trace := s.trace ++ [.read n none] }))

/-- R66: the low n bits, most significant first; a code is appended exactly, leading zeros included; nothing is written
after Close, and that such a write is a fault is the model's reading (log entry 15). -/
def Obligations.BitWriteAppendsTheLowBits : Prop :=
  (∀ (n v : Nat) (s : State), s.closed = false → 1 ≤ n → n ≤ 256 →
    memWrite n v s = .next { s with outBits := s.outBits ++ bin n v, trace := s.trace ++ [.write n v] }) ∧
  (∀ (n v i : Nat), (bin n v).length = n ∧ (i < n → (bin n v)[i]? = some (v.testBit (n - 1 - i)))) ∧
  (∀ (c : Bits) (s : State), s.closed = false → 1 ≤ c.length → c.length ≤ 256 →
    writeCode c s = .next { s with outBits := s.outBits ++ c, trace := s.trace ++ [.write c.length (val c)] }) ∧
  (∀ (n v : Nat) (s : State), s.closed = true → memWrite n v s = .fault .writeAfterClose)

/-! ## FrequencyCounter -/

/-- R121, R123. -/
def Obligations.FcClearAndFcEnd : Prop :=
  (∀ p : Params, decode p (.phase 1#5 .always) = .ok .fcClear ∧ decode p (.phase 2#5 .eos) = .ok .fcEnd) ∧
  (∀ s : State, ∃ f : Vector Nat 257,
    exec .fcClear s = .next { s with freq := some f, phase := .cCount } ∧
    f[256]? = some 1 ∧ ∀ i, i < 256 → f[i]? = some 0) ∧
  (∀ s : State, exec .fcEnd s = .next { s with phase := .cTbinit })

/-- R122; the refusal is U8's, at the sum of the counts (log entry 5). -/
def Obligations.FcAccCountsOneByte : Prop :=
  (∀ (p : Params) (r : Byte), decode p (.phase 2#5 (.byte r)) = .ok (.fcAcc r)) ∧
  (∀ (r : Byte) (s : State) (f : Vector Nat 257), s.freq = some f → freqTotal f + 1 < 2 ^ s.par.weightW →
    ∃ f' : Vector Nat 257,
      exec (.fcAcc r) s = .next { s with freq := some f', phase := .cCount } ∧
      f'[r.toNat]? = f[r.toNat]?.map (· + 1) ∧ (∀ i, i ≠ r.toNat → f'[i]? = f[i]?) ∧
      freqTotal f' = freqTotal f + 1) ∧
  (∀ (r : Byte) (s : State) (f : Vector Nat 257), s.freq = some f → 2 ^ s.par.weightW ≤ freqTotal f + 1 →
    exec (.fcAcc r) s = .refused .inputTooLong)

/-- R120: from FC_CLEAR, the first pass over the bytes X ends after len(X) + 2 steps with FREQ = freq(X), the reads made and
nothing else changed outside the tables. -/
def Obligations.FirstPassCountsTheInput : Prop :=
  ∀ (X : List Byte) (s : State), s.par.wellFormed = true → s.inCommand .cClear → s.inBits = bytesToBits X → s.rp = 0 →
    X.length ≤ s.par.lenMax →
    ∃ t : State,
      run (X.length + 2) s = .next t ∧ t.freq = some (freqTable X) ∧ freqTotal (freqTable X) = X.length + 1 ∧
      t.sameOutside { s with
        phase := .cTbinit
        rp := s.inBits.length
        trace := s.trace ++ X.map (fun b => .read 8 (some b.toNat)) ++ [.read 8 none] }

/-! ## TreeBuilder -/

/-- R133. -/
def Obligations.TbInitMakesOneLeafPerSymbol : Prop :=
  (∀ p : Params, decode p (.phase 3#5 .always) = .ok .tbInit) ∧
  (∀ (s : State) (f : Vector Nat 257), s.freq = some f →
    ∃ (node : Vector (Option Node) 513) (act : Vector Bool 513),
      exec .tbInit s =
        .next { s with node := node, active := some act, nextIdx := some 257, phase := .cMerge } ∧
      (∀ (i c : Nat), f[i]? = some c → 0 < c →
        node[i]? = some (some (.leaf (BitVec.ofNat 9 i) c)) ∧ act[i]? = some true) ∧
      (∀ i : Nat, f[i]? = some 0 → node[i]? = s.node[i]? ∧ act[i]? = some false) ∧
      (∀ i : Nat, 257 ≤ i → i < 513 → node[i]? = s.node[i]? ∧ act[i]? = some false))

/-- R134 with the key order of R131: whenever at least two members are active, every active record holds a value, NEXT is
an index of NODE and any two members' weights sum within WEIGHT_W bits, TB_MERGE joins the two of least key,
the first as `left`, the second as `right`. -/
def Obligations.TbMergeJoinsTheTwoLightest : Prop :=
  (∀ p : Params, decode p (.phase 4#5 .many) = .ok .tbMerge) ∧
  (∀ (s : State) (act : Vector Bool 513) (n : Nat), s.active = some act → 2 ≤ countActive act →
    (∀ i, i < 513 → act[i]? = some true → s.node[i]? ≠ some none) →
    (∀ i, i < 513 → ∀ j, j < 513 → i ≠ j → act[i]? = some true → act[j]? = some true →
      weightAt s i + weightAt s j < 2 ^ s.par.weightW) →
    s.nextIdx = some n → n < 513 →
    ∃ (a b : Nat) (act' : Vector Bool 513),
      act[a]? = some true ∧ act[b]? = some true ∧ a ≠ b ∧
      (∀ i, act[i]? = some true → i ≠ a → keyLt (keyAt s a) (keyAt s i) = true) ∧
      (∀ i, act[i]? = some true → i ≠ a → i ≠ b → keyLt (keyAt s b) (keyAt s i) = true) ∧
      exec .tbMerge s = .next { s with
        node := s.node.setIfInBounds n (some (.internal (weightAt s a + weightAt s b) a b))
        active := some act'
        nextIdx := some (n + 1)
        phase := .cMerge } ∧
      act'[n]? = some true ∧
      (∀ i, i ≠ n → act'[i]? = if i = a ∨ i = b then some false else act[i]?))

/-- R135. -/
def Obligations.TbRootTakesTheOneMember : Prop :=
  (∀ p : Params, decode p (.phase 4#5 .one) = .ok .tbRoot) ∧
  (∀ (s : State) (act : Vector Bool 513) (r : Nat), s.active = some act → act[r]? = some true →
    (∀ i, i < 513 → act[i]? = some true → i = r) →
    exec .tbRoot s = .next { s with root := some r, phase := .cCginit })

/-- R130, R132, R135: from TB_INIT on a table with L positive counts, among them the terminator's, the tree built is
build(FREQ), after one TB_INIT, L - 1 TB_MERGE and one TB_ROOT; its size, weight and depth are those of R132. -/
def Obligations.TreeBuilderBuildsTheTree : Prop :=
  ∀ (s : State) (f : Vector Nat 257), s.inCommand .cTbinit → s.freq = some f → f[256]? = some 1 →
    freqTotal f < 2 ^ s.par.weightW →
    ∃ (t : State) (i : Nat) (T : Tree),
      run ((leafItems f).length + 1) s = .next t ∧ build f = some (i, T) ∧
      t.inCommand .cCginit ∧ t.root = some i ∧ i = 255 + (leafItems f).length ∧ t.tree i = some T ∧
      t.nextIdx = some (256 + (leafItems f).length) ∧ T.weight = freqTotal f ∧
      T.symbols.length = (leafItems f).length ∧ T.nodes + 1 = 2 * (leafItems f).length ∧
      T.depth + 1 ≤ (leafItems f).length ∧
      (∀ x : Symbol, x ∈ T.symbols ↔ ∃ c, f[x.toNat]? = some c ∧ 0 < c) ∧
      t.outBits = s.outBits ∧ t.rp = s.rp ∧ t.trace = s.trace

/-! ## CodeTableGenerator -/

/-- R141, both branches; the degenerate one is R143. -/
def Obligations.CgInitStartsTheWalk : Prop :=
  (∀ p : Params, decode p (.phase 5#5 .always) = .ok .cgInit) ∧
  (∀ (s : State) (i : Nat) (sym : Symbol) (w : Nat), s.root = some i → s.node[i]? = some (some (.leaf sym w)) →
    sym.toNat ≤ 256 →
    ∃ cl : Vector (Option Nat) 257,
      exec .cgInit s = .next { s with
        codeLen := cl
        codeBits := s.codeBits.setIfInBounds sym.toNat (some [false])
        sp := some 0
        phase := .cMagic } ∧
      cl[sym.toNat]? = some (some 1) ∧ ∀ j, j < 257 → j ≠ sym.toNat → cl[j]? = some (some 0)) ∧
  (∀ (s : State) (i w l r : Nat), s.root = some i → s.node[i]? = some (some (.internal w l r)) →
    ∃ cl : Vector (Option Nat) 257,
      exec .cgInit s = .next { s with
        codeLen := cl
        stack := (s.stack.setIfInBounds 0 (some { node := r, depth := some 1, bit := some true })).setIfInBounds 1
          (some { node := l, depth := some 1, bit := some false })
        sp := some 2
        phase := .cCgen } ∧
      ∀ j, j < 257 → cl[j]? = some (some 0))

/-- R142, both branches. -/
def Obligations.CgStepVisitsOneNode : Prop :=
  (∀ p : Params, decode p (.phase 6#5 .always) = .ok .cgStep) ∧
  (∀ (s : State) (k n d w : Nat) (b : Bit) (sym : Symbol) (above : Bits),
    s.sp = some (k + 1) → s.stack[k]? = some (some { node := n, depth := some (d + 1), bit := some b }) →
    s.node[n]? = some (some (.leaf sym w)) → sym.toNat ≤ 256 →
    d < 256 → above.length = d → (∀ j, j < d → s.path[j]? = some above[j]?) →
    exec .cgStep s = .next { s with
      sp := some k
      path := s.path.setIfInBounds d (some b)
      codeLen := s.codeLen.setIfInBounds sym.toNat (some (d + 1))
      codeBits := s.codeBits.setIfInBounds sym.toNat (some (above ++ [b]))
      phase := if k = 0 then .cMagic else .cCgen }) ∧
  (∀ (s : State) (k n d w l r : Nat) (b : Bit),
    s.sp = some (k + 1) → s.stack[k]? = some (some { node := n, depth := some (d + 1), bit := some b }) →
    s.node[n]? = some (some (.internal w l r)) → d < 256 → k + 1 < 257 →
    exec .cgStep s = .next { s with
      sp := some (k + 2)
      path := s.path.setIfInBounds d (some b)
      stack := (s.stack.setIfInBounds k (some { node := r, depth := some (d + 2), bit := some true })).setIfInBounds
        (k + 1) (some { node := l, depth := some (d + 2), bit := some false })
      phase := .cCgen })

/-- R140, R145: on a tree whose leaves carry distinct symbols and lie at depth at most 256, CG_INIT and the CG_STEPs (2L - 2
of them) leave the code table of codes(T), and nothing else is written but the walker's state. -/
def Obligations.CodeTableIsCodesOfTheTree : Prop :=
  ∀ (s : State) (i : Nat) (T : Tree), s.inCommand .cCginit → s.root = some i → s.tree i = some T →
    T.symbols.Nodup → (∀ x ∈ T.symbols, x.toNat ≤ 256) → T.depth ≤ 256 →
    ∃ t : State,
      run T.nodes s = .next t ∧ t.inCommand .cMagic ∧
      (∀ x : Symbol, x.toNat ≤ 256 → t.codeLen[x.toNat]? = some (some (codeOf T x).length)) ∧
      (∀ x ∈ T.symbols, t.codeBits[x.toNat]? = some (some (codeOf T x))) ∧
      t.node = s.node ∧ t.root = s.root ∧ t.outBits = s.outBits ∧ t.rp = s.rp ∧ t.trace = s.trace

/-- R17 (d), R144: no code is a proper prefix of another, and no two leaves have the same code. -/
def Obligations.CodesArePrefixFree : Prop :=
  ∀ T : Tree, (codes T).Pairwise fun x y => ¬ x.2 <+: y.2 ∧ ¬ y.2 <+: x.2

/-! ## HeaderCodec -/

/-- R151, R155. That the depth and bit fields, "not used by this walk", hold no value is the model's reading (log entry
13). -/
def Obligations.HeaderWalksStartEmpty : Prop :=
  (∀ p : Params, decode p (.phase 8#5 .always) = .ok .hsStart ∧ decode p (.phase 17#5 .always) = .ok .hdStart) ∧
  (∀ (s : State) (i : Nat), s.root = some i →
    exec .hsStart s = .next { s with
      stack := s.stack.setIfInBounds 0 (some { node := i, depth := none, bit := none })
      sp := some 1
      phase := .cHdr }) ∧
  (∀ s : State, exec .hdStart s = .next { s with dnext := some 0, dsp := some 0, phase := .dHdr })

/-- R152, both branches. That the pushed entries' depth and bit fields hold no value is the model's reading (log entry
13). -/
def Obligations.HsStepWritesOneRecord : Prop :=
  (∀ p : Params, decode p (.phase 9#5 .always) = .ok .hsStep) ∧
  (∀ (s : State) (k w : Nat) (e : StackEntry) (sym : Symbol), s.sp = some (k + 1) → s.stack[k]? = some (some e) →
    s.node[e.node]? = some (some (.leaf sym w)) → s.closed = false →
    exec .hsStep s = .next { s with
      sp := some k
      outBits := s.outBits ++ true :: bin 9 sym.toNat
      trace := s.trace ++ [.write 1 1, .write 9 sym.toNat]
      phase := if k = 0 then .cRewind else .cHdr }) ∧
  (∀ (s : State) (k w l r : Nat) (e : StackEntry), s.sp = some (k + 1) → s.stack[k]? = some (some e) →
    s.node[e.node]? = some (some (.internal w l r)) → s.closed = false → k + 1 < 257 →
    exec .hsStep s = .next { s with
      sp := some (k + 2)
      stack := (s.stack.setIfInBounds k (some { node := r, depth := none, bit := none })).setIfInBounds (k + 1)
        (some { node := l, depth := none, bit := none })
      outBits := s.outBits ++ [false]
      trace := s.trace ++ [.write 1 0]
      phase := .cHdr })

/-- R150, R159: HS_START and the HS_STEPs (one per node) append exactly ser(T). -/
def Obligations.SerializerWritesTheHeader : Prop :=
  ∀ (s : State) (i : Nat) (T : Tree), s.inCommand .cHsinit → s.closed = false → s.root = some i →
    s.tree i = some T → T.depth ≤ 256 →
    ∃ t : State,
      run (T.nodes + 1) s = .next t ∧ t.inCommand .cRewind ∧ t.outBits = s.outBits ++ ser T ∧
      t.trace = s.trace ++ headerTrace T ∧ t.codeLen = s.codeLen ∧ t.codeBits = s.codeBits ∧
      t.closed = false ∧ t.rp = s.rp ∧ t.inBits = s.inBits

/-- R156 to R158, the record that is attached to nothing (DSP = 0): an internal node or a lone leaf. That a leaf
record's children hold no value is the model's reading (log entry 13). -/
def Obligations.HdStepStoresAFirstRecord : Prop :=
  ∀ (s : State) (i : Nat), s.dnext = some i → i < s.par.decNodeCap → s.dnode.length = s.par.decNodeCap →
    s.dstack.length = s.par.decNodeCap → s.dsp = some 0 →
    (∀ op : Instr, (op = .hdStep ∨ op = .hdrInternal) → s.inBits[s.rp]? = some false →
      exec op s = .next { s with
        rp := s.rp + 1
        trace := s.trace ++ [.read 1 (some 0)]
        dnext := some (i + 1)
        dnode := s.dnode.modify i fun n => { n with leaf := some false }
        dstack := s.dstack.set 0 (some { node := i, stage := false })
        dsp := some 1
        phase := .dHdr }) ∧
    (∀ (op : Instr) (sym : Symbol), (op = .hdStep ∨ op = .hdrLeaf sym) →
      (s.inBits.drop s.rp).take 10 = true :: bin 9 sym.toNat →
      exec op s = .next { s with
        rp := s.rp + 10
        trace := s.trace ++ [.read 1 (some 1), .read 9 (some sym.toNat)]
        dnext := some (i + 1)
        dnode := s.dnode.set i { leaf := some true, sym := some sym, left := none, right := none }
        cur := some 0
        phase := .dDec })

/-- R156 to R158, the record that becomes the left child of the innermost unfinished node (stage 0). That a leaf
record's children hold no value is the model's reading (log entry 13). -/
def Obligations.HdStepAttachesALeftChild : Prop :=
  ∀ (s : State) (i k p : Nat), s.dnext = some i → i < s.par.decNodeCap →
    s.dnode.length = s.par.decNodeCap → s.dstack.length = s.par.decNodeCap → s.dsp = some (k + 1) →
    k + 1 < s.par.decNodeCap → s.dstack[k]? = some (some { node := p, stage := false }) →
    p < s.par.decNodeCap →
    (∀ op : Instr, (op = .hdStep ∨ op = .hdrInternal) → s.inBits[s.rp]? = some false →
      exec op s = .next { s with
        rp := s.rp + 1
        trace := s.trace ++ [.read 1 (some 0)]
        dnext := some (i + 1)
        dnode := (s.dnode.modify p fun n => { n with left := some i }).modify i fun n => { n with leaf := some false }
        dstack := (s.dstack.set k (some { node := p, stage := true })).set (k + 1) (some { node := i, stage := false })
        dsp := some (k + 2)
        phase := .dHdr }) ∧
    (∀ (op : Instr) (sym : Symbol), (op = .hdStep ∨ op = .hdrLeaf sym) →
      (s.inBits.drop s.rp).take 10 = true :: bin 9 sym.toNat →
      exec op s = .next { s with
        rp := s.rp + 10
        trace := s.trace ++ [.read 1 (some 1), .read 9 (some sym.toNat)]
        dnext := some (i + 1)
        dnode := (s.dnode.modify p fun n => { n with left := some i }).set i
          { leaf := some true, sym := some sym, left := none, right := none }
        dstack := s.dstack.set k (some { node := p, stage := true })
        phase := .dHdr })

/-- R156 to R158, the record that becomes the right child of the innermost unfinished node (stage 1), which is popped. That
a leaf record's children hold no value is the model's reading (log entry 13). -/
def Obligations.HdStepAttachesARightChild : Prop :=
  ∀ (s : State) (i k p : Nat), s.dnext = some i → i < s.par.decNodeCap →
    s.dnode.length = s.par.decNodeCap → s.dstack.length = s.par.decNodeCap → s.dsp = some (k + 1) →
    s.dstack[k]? = some (some { node := p, stage := true }) → p < s.par.decNodeCap →
    (∀ op : Instr, (op = .hdStep ∨ op = .hdrInternal) → s.inBits[s.rp]? = some false →
      exec op s = .next { s with
        rp := s.rp + 1
        trace := s.trace ++ [.read 1 (some 0)]
        dnext := some (i + 1)
        dnode := (s.dnode.modify p fun n => { n with right := some i }).modify i fun n => { n with leaf := some false }
        dstack := s.dstack.set k (some { node := i, stage := false })
        dsp := some (k + 1)
        phase := .dHdr }) ∧
    (∀ (op : Instr) (sym : Symbol), (op = .hdStep ∨ op = .hdrLeaf sym) →
      (s.inBits.drop s.rp).take 10 = true :: bin 9 sym.toNat →
      exec op s = .next { s with
        rp := s.rp + 10
        trace := s.trace ++ [.read 1 (some 1), .read 9 (some sym.toNat)]
        dnext := some (i + 1)
        dnode := (s.dnode.modify p fun n => { n with right := some i }).set i
          { leaf := some true, sym := some sym, left := none, right := none }
        dsp := some k
        cur := if k = 0 then some 0 else s.cur
        phase := if k = 0 then .dDec else .dHdr })

/-- R156, R212, R213, R218: the checks of a header record and of a payload bit, in their order: tag EOS, capacity, symbol
EOS; payload EOS. The read of the failing step stays made. That a token executed on its own makes these checks as the unit
operation that interprets it does, HDR_INTERNAL and HDR_LEAF with no tag bit left among them, is log entry 14. -/
def Obligations.EndOfStreamAndCapacityOrder : Prop :=
  (∀ (s : State) (op : Instr) (sym : Symbol),
    (op = .hdStep ∨ op = .hdrInternal ∨ op = .hdrLeaf sym ∨ op = .deStep ∨ op = .brLeft ∨ op = .brRight) →
    s.inBits.length ≤ s.rp →
    exec op s = .next (abort .malformed { s with trace := s.trace ++ [.read 1 none] })) ∧
  (∀ (s : State) (op : Instr) (sym : Symbol) (t : Bit),
    (op = .hdStep ∨ op = .hdrInternal ∨ op = .hdrLeaf sym) → s.inBits[s.rp]? = some t →
    s.dnext = some s.par.decNodeCap →
    exec op s = .next (abort .capacity
      { s with rp := s.rp + 1, trace := s.trace ++ [.read 1 (some t.toNat)] })) ∧
  (∀ (s : State) (op : Instr) (sym : Symbol) (n : Nat), (op = .hdStep ∨ op = .hdrLeaf sym) →
    s.inBits[s.rp]? = some true → s.dnext = some n → n ≠ s.par.decNodeCap → s.inBits.length < s.rp + 10 →
    exec op s = .next (abort .malformed
      { s with rp := s.rp + 1, trace := s.trace ++ [.read 1 (some 1), .read 9 none] }))

/-- R157, R158, R177, R179, R180: HD_STEP, DE_STEP and DE_MAGIC do what the token at the read position says. -/
def Obligations.UnitOperationsInterpretTheTokens : Prop :=
  (∀ (s : State) (tok : Instr) (rest : Bits),
    decodeToken s.par .header (s.inBits.drop s.rp) = .ok tok rest → exec .hdStep s = exec tok s) ∧
  (∀ (s : State) (tok : Instr) (rest : Bits),
    decodeToken s.par .payload (s.inBits.drop s.rp) = .ok tok rest → exec .deStep s = exec tok s) ∧
  (∀ (s : State) (tok : Instr) (rest : Bits),
    decodeToken s.par .magic (s.inBits.drop s.rp) = .ok tok rest → exec .deMagic s = exec tok s)

/-- R154, R159: where deser reads a tree T that fits the store, HD_START and one HD_STEP per node rebuild T in DNODE and
leave rp at the first payload bit. DNEXT and DSP still show in the state the last HD_STEP leaves (log entry 7). -/
def Obligations.DeserializerRebuildsTheTree : Prop :=
  ∀ (s : State) (T : Tree) (rest : Bits), s.inCommand .dHdinit → s.sized → 0 < s.par.decNodeCap →
    deser (s.inBits.drop s.rp) = some (T, rest) → T.nodes ≤ s.par.decNodeCap →
    ∃ t : State,
      run (T.nodes + 1) s = .next t ∧ t.inCommand .dDec ∧ t.dtree 0 = some T ∧ t.cur = some 0 ∧
      t.dnext = some T.nodes ∧ t.dsp = some 0 ∧ t.inBits = s.inBits ∧ t.inBits.drop t.rp = rest ∧
      t.outBits = s.outBits ∧ t.closed = s.closed

/-- R17 (f), R161: the header read back is the tree written, without its weights, and the reader stops at its end. -/
def Obligations.HeaderRoundTrip : Prop :=
  ∀ (T : Tree) (rest : Bits), deser (ser T ++ rest) = some (T.unweighted, rest)

/-! ## StreamEncoder -/

/-- R166, R167. -/
def Obligations.EnMagicAndEnRewind : Prop :=
  (∀ p : Params, decode p (.phase 7#5 .always) = .ok .enMagic ∧ decode p (.phase 10#5 .always) = .ok .enRewind) ∧
  (∀ s : State, s.closed = false →
    exec .enMagic s = .next { s with
      outBits := s.outBits ++ bin 32 s.par.magic.toNat
      trace := s.trace ++ [.write 32 s.par.magic.toNat]
      phase := .cHsinit }) ∧
  (∀ s : State, exec .enRewind s = .next { s with rp := 0, trace := s.trace ++ [.rewind], phase := .cEnc })

/-- R168: the code in path order, leading zeros kept; NoCodeError for a byte without a code. -/
def Obligations.EnSymWritesTheCode : Prop :=
  (∀ (p : Params) (r : Byte), decode p (.phase 11#5 (.byte r)) = .ok (.enSym r)) ∧
  (∀ (s : State) (r : Byte) (len : Nat) (bits : Bits),
    s.codeLen[r.toNat]? = some (some len) → s.codeBits[r.toNat]? = some (some bits) →
    1 ≤ len → len ≤ 256 → len ≤ bits.length → s.closed = false →
    exec (.enSym r) s = .next { s with
      outBits := s.outBits ++ bits.take len
      trace := s.trace ++ [.write len (val (bits.take len))]
      phase := .cEnc }) ∧
  (∀ (s : State) (r : Byte), s.codeLen[r.toNat]? = some (some 0) →
    exec (.enSym r) s = .next (abort .noCode s))

/-- R169. -/
def Obligations.EnTermWritesTheTerminator : Prop :=
  (∀ p : Params, decode p (.phase 11#5 .eos) = .ok .enTerm) ∧
  (∀ (s : State) (len : Nat) (bits : Bits),
    s.codeLen[256]? = some (some len) → s.codeBits[256]? = some (some bits) →
    1 ≤ len → len ≤ 256 → len ≤ bits.length → s.closed = false →
    exec .enTerm s = .next { s with
      outBits := s.outBits ++ bits.take len
      trace := s.trace ++ [.write len (val (bits.take len))]
      phase := .cClose })

/-- R170, R181: Close, ST <- DONE, pc <- P_IDLE, ERR as it was; the tables hold no value after the command (R41), and what
the medium holds beyond OUT is the collaborator's draw. That a Close on an output already closed delivers OUT again is the
model's choice (log entry 20). -/
def Obligations.CloseOperationsEndTheCommand : Prop :=
  (∀ p : Params, decode p (.phase 12#5 .always) = .ok .enClose ∧ decode p (.phase 20#5 .always) = .ok .deClose) ∧
  (∀ (s : State) (op : Instr), (op = .enClose ∨ op = .deClose) → ∃ t : State,
    exec op s = .next t ∧ t.closed = true ∧ t.st = .done ∧ t.phase = .pIdle ∧ t.err = s.err ∧
    t.trace = s.trace ++ [.close] ∧ t.outBits = s.outBits ∧ t.inBits = s.inBits ∧ t.rp = s.rp ∧
    t.compressionEmpty ∧ t.decompressionEmpty ∧ t.par = s.par ∧ t.rst = s.rst ∧ t.cmdValid = s.cmdValid ∧
    t.cmdOp = s.cmdOp ∧ t.ioReady = s.ioReady ∧ s.outBits <+: t.medium)

/-- R69: the padding is shorter than the medium's unit, whatever the draw is, and nothing in the core reads it. How the draw
is supplied is the model's choice (log entry 4), and so is that a Close on an output already closed draws again (log entry
20). -/
def Obligations.PaddingIsADrawNothingReads : Prop :=
  (∀ s : State, 0 < s.par.mediumUnit → ∃ pad : Bits,
    (closeOut s).medium = s.outBits ++ pad ∧ pad.length < s.par.mediumUnit) ∧
  (∀ (s : State) (m : Bits) (d : Nat),
    mapNext (fun t => { t with medium := [], draw := 0 }) (step { s with medium := m, draw := d }) =
      mapNext (fun t => { t with medium := [], draw := 0 }) (step s))

/-- R165, R171: EN_REWIND, one EN_SYM per byte, EN_TERM and EN_CLOSE append the codes of the bytes and the terminator's, from
whatever table of codes of 1 to 256 bits the machine holds. -/
def Obligations.SecondPassWritesThePayload : Prop :=
  ∀ (s : State) (X : List Byte) (K : Symbol → Bits), s.inCommand .cRewind → s.closed = false →
    s.inBits = bytesToBits X →
    (∀ x : Symbol, (x = 256#9 ∨ ∃ b ∈ X, x = zext9 b) →
      s.codeLen[x.toNat]? = some (some (K x).length) ∧ s.codeBits[x.toNat]? = some (some (K x)) ∧
      1 ≤ (K x).length ∧ (K x).length ≤ 256) →
    ∃ t : State,
      run (X.length + 3) s = .next t ∧ t.st = .done ∧ t.err = s.err ∧ t.phase = .pIdle ∧ t.closed = true ∧
      t.outBits = s.outBits ++ (X.flatMap fun b => K (zext9 b)) ++ K 256#9 ∧ t.rp = s.inBits.length ∧
      t.trace = s.trace ++ [.rewind] ++
        (X.flatMap fun b => [.read 8 (some b.toNat), codeWrite (K (zext9 b))]) ++
        [.read 8 none, codeWrite (K 256#9), .close]

/-! ## StreamDecoder -/

/-- R176, R177, R211: the 32 bits must be MAGIC; a mismatch leaves rp after them, a short input leaves rp where it was. -/
def Obligations.DeMagicChecksTheConstant : Prop :=
  (∀ p : Params, decode p (.phase 16#5 .always) = .ok .deMagic) ∧
  (∀ (s : State) (op : Instr), (op = .deMagic ∨ op = .magic) →
    (s.inBits.drop s.rp).take 32 = bin 32 s.par.magic.toNat →
    exec op s = .next { s with
      rp := s.rp + 32
      trace := s.trace ++ [.read 32 (some s.par.magic.toNat)]
      phase := .dHdinit }) ∧
  (∀ (s : State) (m : BitVec 32), (s.inBits.drop s.rp).take 32 = bin 32 m.toNat → m ≠ s.par.magic →
    exec .deMagic s = .next (abort .format
      { s with rp := s.rp + 32, trace := s.trace ++ [.read 32 (some m.toNat)] })) ∧
  (∀ s : State, s.inBits.length < s.rp + 32 →
    exec .deMagic s = .next (abort .format { s with trace := s.trace ++ [.read 32 none] }))

/-- R178 to R180 under an ordinary tree, every kind of node the bit can lead to. -/
def Obligations.DeStepWalksTheTree : Prop :=
  ∀ (s : State) (top n m : DNode) (c c' : Nat) (b : Bit) (op : Instr),
    s.dnode[0]? = some top → top.leaf = some false → s.cur = some c → s.dnode[c]? = some n →
    (if b then n.right else n.left) = some c' → s.dnode[c']? = some m → s.inBits[s.rp]? = some b →
    (op = .deStep ∨ op = if b then .brRight else .brLeft) →
    (m.leaf = some false →
      exec op s = .next { s with
        rp := s.rp + 1
        trace := s.trace ++ [.read 1 (some b.toNat)]
        cur := some c'
        phase := .dDec }) ∧
    (m.leaf = some true → m.sym = some 256#9 →
      exec op s = .next { s with
        rp := s.rp + 1
        trace := s.trace ++ [.read 1 (some b.toNat)]
        cur := some c'
        phase := .dClose }) ∧
    (∀ sym : Symbol, m.leaf = some true → m.sym = some sym → sym.toNat < 256 → s.closed = false →
      exec op s = .next { s with
        rp := s.rp + 1
        outBits := s.outBits ++ bin 8 sym.toNat
        trace := s.trace ++ [.read 1 (some b.toNat), .write 8 sym.toNat]
        cur := some 0
        phase := .dDec }) ∧
    (∀ sym : Symbol, m.leaf = some true → m.sym = some sym → 256 < sym.toNat →
      exec op s = .next (abort .symRange { s with
        rp := s.rp + 1
        trace := s.trace ++ [.read 1 (some b.toNat)]
        cur := some c' }))

/-- R182: under the degenerate tree the bit is consumed and ignored. That BR_LEFT and BR_RIGHT, executed on their own, consume
whichever bit stands at rp is log entry 14. -/
def Obligations.DegenerateTreeIgnoresTheBit : Prop :=
  ∀ (s : State) (b : Bit) (top : DNode) (sym : Symbol) (op : Instr), s.dnode[0]? = some top →
    top.leaf = some true → top.sym = some sym → s.cur = some 0 →
    s.inBits[s.rp]? = some b → (op = .deStep ∨ op = .brLeft ∨ op = .brRight) →
    (sym = 256#9 →
      exec op s = .next { s with
        rp := s.rp + 1, trace := s.trace ++ [.read 1 (some b.toNat)], phase := .dClose }) ∧
    (sym.toNat < 256 → s.closed = false →
      exec op s = .next { s with
        rp := s.rp + 1
        outBits := s.outBits ++ bin 8 sym.toNat
        trace := s.trace ++ [.read 1 (some b.toNat), .write 8 sym.toNat]
        phase := .dDec }) ∧
    (256 < sym.toNat →
      exec op s = .next (abort .symRange
        { s with rp := s.rp + 1, trace := s.trace ++ [.read 1 (some b.toNat)] }))

/-- R175, R184, R185: from the root, the DE_STEPs (and DE_CLOSE after the terminator) end as the walk of the rebuilt tree
over the remaining bits ends, with its bytes written and the bits after its end unread. -/
def Obligations.DecoderWalksThePayload : Prop :=
  ∀ (s : State) (T : Tree), s.inCommand .dDec → s.err = .none → s.closed = false → s.sized → s.dtree 0 = some T →
    s.cur = some 0 →
    ∃ (k : Nat) (t : State), run k s = .next t ∧ t.phase = .pIdle ∧ t.closed = true ∧
      t.outBits = s.outBits ++ bytesToBits (walkBits T T (s.inBits.drop s.rp)).bytes ∧
      t.inBits.drop t.rp = (walkBits T T (s.inBits.drop s.rp)).rest ∧
      match (walkBits T T (s.inBits.drop s.rp)).how with
      | .terminator => t.st = .done ∧ t.err = .none
      | .exhausted => t.st = .error ∧ t.err = .malformed
      | .reservedSymbol => t.st = .error ∧ t.err = .symRange

/-- R185: the walk of a tree with distinct symbols over the payload of X gives back X and stops at the terminator. -/
def Obligations.WalkInvertsThePayload : Prop :=
  ∀ (T : Tree) (X : List Byte) (P : Bits), T.symbols.Nodup → 256#9 ∈ T.symbols → (∀ b ∈ X, zext9 b ∈ T.symbols) →
    walkBits T T (payload T X ++ P) = { bytes := X, how := .terminator, rest := P }

/-! ## Errors and the ends of a command -/

/-- R216, with the delivery of OUT by the Close it issues (R68, R77). That a Close on an output already closed delivers OUT
again is the model's choice (log entry 20). -/
def Obligations.AbortSequence : Prop :=
  ∀ (e : ErrCode) (s : State), ∃ t : State,
    raise e s = .next t ∧ t.closed = true ∧ t.err = e ∧ t.st = .error ∧ t.phase = .pIdle ∧
    t.trace = s.trace ++ [.close] ∧ t.outBits = s.outBits ∧ t.rp = s.rp ∧ t.inBits = s.inBits ∧
    t.compressionEmpty ∧ t.decompressionEmpty ∧ t.par = s.par ∧ t.rst = s.rst ∧ t.cmdValid = s.cmdValid ∧
    t.cmdOp = s.cmdOp ∧ t.ioReady = s.ioReady ∧ s.outBits <+: t.medium

/-- R22, R196, R210: a command ends only by EN_CLOSE or DE_CLOSE, in success, or by an error that the unit operation of its
phase raises. -/
def Obligations.CommandEndsOnlyByCloseOrError : Prop :=
  ∀ s t : State, s.st = .busy → step s = .next t →
    (t.st = .busy ∧ t.err = s.err) ∨
    (t.st = .done ∧ t.err = s.err ∧ t.phase = .pIdle ∧ (s.phase = .cClose ∨ s.phase = .dClose)) ∨
    (t.st = .error ∧ t.phase = .pIdle ∧ t.err ∈ phaseErrors s.phase)

/-- R23, R104: while a command goes on, the next phase is one the table gives; only a collaborator that does not answer
leaves the core where it is, and that it leaves the whole state as it is is the model's choice (log entry 9). -/
def Obligations.PhaseFollowsTheFlow : Prop :=
  ∀ s t : State, s.st = .busy → step s = .next t → t.st = .busy →
    (t = s ∧ s.ioReady = false) ∨ t.phase ∈ nextPhases s.phase

/-- R68, R217: a step that ends a command issues Close exactly once and last; no other step of a command issues it. -/
def Obligations.CloseIsIssuedExactlyOnce : Prop :=
  ∀ s t : State, s.st = .busy → step s = .next t → ∃ l : List Transaction,
    t.trace = s.trace ++ l ∧
    (t.st = .busy → .close ∉ l) ∧
    (t.st ≠ .busy → t.closed = true ∧ ∃ l', l = l' ++ [.close] ∧ .close ∉ l')

/-- R46, R62, R64, R66, R76: OUT grows only by the step's writes, rp moves only by its reads and rewinds, and neither the
input nor the parameters change. -/
def Obligations.TransactionsExplainTheStreams : Prop :=
  ∀ s t : State, step s = .next t → ∃ l : List Transaction,
    t.trace = s.trace ++ l ∧ t.outBits = s.outBits ++ writtenBits l ∧ t.rp = movedTo s.rp l ∧
    t.inBits = s.inBits ∧ t.par = s.par

/-- R78, R171: no table is written after its builder has finished; R40, R41: outside its lifetime it holds no value. That a
table still shows in the state the last operation of its lifetime leaves, and goes with the next step, is log entry 7; that
a core that waits for its collaborators keeps its whole state is log entry 9. -/
def Obligations.TablesAreFixedOnceBuilt : Prop :=
  ∀ s t : State, s.st = .busy → step s = .next t → t.st = .busy →
    (t = s ∧ s.ioReady = false) ∨
    ((s.phase = .cTbinit → t.freq = s.freq) ∧
      (s.phase ∉ [.cClear, .cCount, .cTbinit] → t.holdsNone .freq) ∧
      (s.phase ∉ [.cTbinit, .cMerge] → t.holdsNone .active ∧ t.holdsNone .nextIdx) ∧
      (s.phase ∈ [.cCginit, .cCgen, .cMagic, .cHsinit, .cHdr] → t.node = s.node ∧ t.root = s.root) ∧
      (s.phase ∉ [.cMerge, .cCginit, .cCgen, .cMagic, .cHsinit, .cHdr] →
        (s.phase ≠ .cTbinit → t.holdsNone .node) ∧ t.holdsNone .root) ∧
      (s.phase ∈ [.cMagic, .cHsinit, .cHdr, .cRewind, .cEnc] → t.codeLen = s.codeLen ∧ t.codeBits = s.codeBits) ∧
      (s.phase ∉ [.cCginit, .cCgen, .cMagic, .cHsinit, .cHdr, .cRewind, .cEnc] →
        t.holdsNone .codeLen ∧ t.holdsNone .codeBits) ∧
      (s.phase ∉ [.cCginit, .cCgen, .cHsinit, .cHdr] →
        t.holdsNone .stack ∧ t.holdsNone .sp ∧ t.holdsNone .path) ∧
      (s.phase ∈ [.dHdinit, .dDec] → t.dnode = s.dnode) ∧
      (s.phase ∉ [.dHdinit, .dHdr, .dDec] → t.holdsNone .dnode) ∧
      (s.phase ∉ [.dHdinit, .dHdr] → t.holdsNone .dnext ∧ t.holdsNone .dstack ∧ t.holdsNone .dsp) ∧
      (s.phase ∉ [.dHdr, .dDec] → t.holdsNone .cur))

/-! ## Encodings -/

/-- Every instruction, with every operand, decodes from its word. -/
def Obligations.DecodeInvertsEncode : Prop := ∀ (p : Params) (i : Instr), decode p (encode p i) = .ok i

/-- Each word has one meaning: what decodes to an instruction is its encoding, and a token is read off the front of a
stream as exactly its encoding (R97). -/
def Obligations.EncodeInvertsDecode : Prop :=
  (∀ (p : Params) (w : Code) (i : Instr), decode p w = .ok i → encode p i = w) ∧
  (∀ (p : Params) (sec : Sect) (bits rest : Bits) (i : Instr), decodeToken p sec bits = .ok i rest →
    ∃ w : Bits, encode p i = .stream sec w ∧ bits = w ++ rest)

/-- Words written out from the tables of R101, R103, R104, R106 decode to what they stand for, and words that stand for
nothing are rejected by name. -/
def Obligations.WordsOfTheSpecDecode : Prop :=
  decode Params.default (.cmd 1#2) = .ok .compress ∧
  decode Params.default (.phase 0b00100#5 .many) = .ok .tbMerge ∧
  decode Params.default (.phase 0b01011#5 (.byte 0x41#8)) = .ok (.enSym 0x41#8) ∧
  decode Params.default (.phase 0b10011#5 .always) = .ok .deStep ∧
  decode Params.default (.stream .magic
    [true, true, true, true, true, false, true, false, true, true, false, false, true, true, true, false,
     true, false, false, false, false, false, true, false, false, false, false, false, false, false, false, true]) =
    .ok .magic ∧
  decode Params.default (.stream .header [true, true, false, false, false, false, false, false, false, false]) =
    .ok (.hdrLeaf 256#9) ∧
  decode Params.default (.stream .header [true, false, false, true, false, false, false, false, false, true]) =
    .ok (.hdrLeaf 65#9) ∧
  decode Params.default (.stream .payload [true]) = .ok .brRight ∧
  decode Params.default (.phase 13#5 .always) = .reject .phaseNotListed ∧
  decode Params.default (.phase 0#5 .always) = .reject .noUnitOperation ∧
  decode Params.default (.stream .header [true, false, true]) = .reject .incomplete

/-! ## Invariants and whole commands -/

/-- The machine's invariant (R22 to R24, R40 and R41 as log entry 7 reads them, the widths and sizes of 10_state.md as log
entry 6 has them, R142, R152) is kept by every step. -/
def Obligations.EveryStepKeepsTheInvariant : Prop := ∀ s t : State, s.Inv → step s = .next t → t.Inv

/-- The invariant holds after reset, for all parameters R9 admits. -/
def Obligations.InvariantHoldsAfterReset : Prop := ∀ p : Params, p.wellFormed = true → (State.resetWith p).Inv

/-- R41 ("no rule reads one before a rule of the same command has written it"), R35 and R37 ("a push never overflows"), R132:
from a core between commands with an open output, no run ever ends in a fault of the model, and it is refused only for
an input longer than LEN_MAX. Where that refusal stands is log entry 5; that acceptance takes the command off the port, so
that the core does not start again on the closed output, is log entry 11; that such a write would fault is log entry 15. -/
def Obligations.NoRunEndsInAFault : Prop :=
  ∀ (s : State) (k : Nat), s.Inv → s.st ≠ .busy → s.closed = false →
    (∃ t, run k s = .next t) ∨ run k s = .refused .inputTooLong

/-- R241: a command depends on nothing the tables held before it: two cores between commands that differ only there run
alike for ever in everything but the tables. -/
def Obligations.CommandIgnoresEarlierTables : Prop :=
  ∀ (s t : State) (k : Nat), s.par.wellFormed = true → s.st ≠ .busy → s.sized → t.sized → s.sameOutside t →
    mapNext dropTables (run k s) = mapNext dropTables (run k t)

/-- R197. -/
def Obligations.CompressIsTheContainerFunction : Prop :=
  ∀ (s : State) (X : List Byte), s.par.wellFormed = true → s.about 1#2 → s.inBits = bytesToBits X →
    X.length ≤ s.par.lenMax →
    ∃ (k i : Nat) (t : State) (T : Tree), run k s = .next t ∧ build (freqTable X) = some (i, T) ∧
      t.st = .done ∧ t.err = .none ∧ t.phase = .pIdle ∧ t.closed = true ∧
      t.outBits = bin 32 s.par.magic.toNat ++ ser T ++ payload T X ∧
      t.trace = s.trace ++ compressTrace s.par T X

/-- R198. -/
def Obligations.DecompressEndsInOneOfItsWays : Prop :=
  ∀ s : State, s.par.wellFormed = true → s.about 2#2 → s.sized →
    ∃ (k : Nat) (t : State), run k s = .next t ∧ t.result = decompressResult s.par s.inBits ∧
      t.closed = true ∧ t.phase = .pIdle

/-- R199. -/
def Obligations.DecompressInvertsCompress : Prop :=
  ∀ (s : State) (X : List Byte) (c P : Bits), s.par.wellFormed = true → s.about 2#2 → s.sized →
    X.length ≤ s.par.lenMax → container s.par X = some c → s.inBits = c ++ P →
    ∃ (k : Nat) (t : State), run k s = .next t ∧ t.st = .done ∧ t.err = .none ∧ t.outBits = bytesToBits X ∧
      t.rp = c.length

/-! ## State that holds no value -/

/-- R41, U11: a read of a table or working register that holds no value is "a fault of the model, not return zero", in every
unit operation that reads one. How the model holds "no value" is log entry 1; that the depth and bit of an entry of
STACK, the children of a leaf and the bits past those written can lack one by themselves is log entry 13; that HDR_INTERNAL
and HDR_LEAF, executed on their own, read DNEXT after whichever tag bit stands at rp is log entry 14. -/
def Obligations.ReadsOfNoValueFault : Prop :=
  (∀ s : State, s.freq = none →
    (∀ r, exec (.fcAcc r) s = .fault (.noValue .freq)) ∧ exec .tbInit s = .fault (.noValue .freq)) ∧
  (∀ s : State, s.active = none →
    exec .tbMerge s = .fault (.noValue .active) ∧ exec .tbRoot s = .fault (.noValue .active) ∧
    (s.inCommand .cMerge → step s = .fault (.noValue .active))) ∧
  (∀ (s : State) (act : Vector Bool 513) (i : Nat), s.active = some act → act[i]? = some true → s.node[i]? = some none →
    exec .tbMerge s = .fault (.noValue .node)) ∧
  (∀ (s : State) (act : Vector Bool 513), s.active = some act → 2 ≤ countActive act →
    (∀ i, i < 513 → act[i]? = some true → s.node[i]? ≠ some none) → s.nextIdx = none →
    exec .tbMerge s = .fault (.noValue .nextIdx)) ∧
  (∀ s : State, s.root = none →
    exec .cgInit s = .fault (.noValue .root) ∧ exec .hsStart s = .fault (.noValue .root)) ∧
  (∀ (s : State) (i : Nat), s.root = some i → s.node[i]? = some none → exec .cgInit s = .fault (.noValue .node)) ∧
  (∀ s : State, s.sp = none →
    exec .cgStep s = .fault (.noValue .sp) ∧ exec .hsStep s = .fault (.noValue .sp)) ∧
  (∀ (s : State) (k : Nat), s.sp = some (k + 1) → s.stack[k]? = some none →
    exec .cgStep s = .fault (.noValue .stack) ∧ exec .hsStep s = .fault (.noValue .stack)) ∧
  (∀ (s : State) (k : Nat) (e : StackEntry), s.sp = some (k + 1) → s.stack[k]? = some (some e) →
    (e.depth = none ∨ e.bit = none → exec .cgStep s = .fault (.noValue .stack)) ∧
    (s.node[e.node]? = some none → exec .hsStep s = .fault (.noValue .node)) ∧
    (∀ d b, e.depth = some (d + 1) → e.bit = some b → d < 256 →
      (s.node[e.node]? = some none → exec .cgStep s = .fault (.noValue .node)) ∧
      (∀ (sym : Symbol) (w j : Nat), s.node[e.node]? = some (some (.leaf sym w)) → j < d → s.path[j]? = some none →
        exec .cgStep s = .fault (.noValue .path)))) ∧
  (∀ (s : State) (r : Byte),
    (s.codeLen[r.toNat]? = some none → exec (.enSym r) s = .fault (.noValue .codeLen)) ∧
    (s.codeLen[256]? = some none → exec .enTerm s = .fault (.noValue .codeLen))) ∧
  (∀ (s : State) (r : Byte) (len : Nat),
    (s.codeLen[r.toNat]? = some (some len) → len ≠ 0 →
      (s.codeBits[r.toNat]? = some none ∨ ∃ c, s.codeBits[r.toNat]? = some (some c) ∧ c.length < len) →
      exec (.enSym r) s = .fault (.noValue .codeBits)) ∧
    (s.codeLen[256]? = some (some len) →
      (s.codeBits[256]? = some none ∨ ∃ c, s.codeBits[256]? = some (some c) ∧ c.length < len) →
      exec .enTerm s = .fault (.noValue .codeBits))) ∧
  (∀ (s : State) (t : Bit) (sym : Symbol) (op : Instr), (op = .hdStep ∨ op = .hdrInternal ∨ op = .hdrLeaf sym) →
    s.inBits[s.rp]? = some t → s.dnext = none → exec op s = .fault (.noValue .dnext)) ∧
  (∀ (s : State) (i : Nat) (sym : Symbol) (op : Instr), s.dnext = some i → i ≠ s.par.decNodeCap →
    ((op = .hdStep ∨ op = .hdrInternal) ∧ s.inBits[s.rp]? = some false ∨
      (op = .hdStep ∨ op = .hdrLeaf sym) ∧ (s.inBits.drop s.rp).take 10 = true :: bin 9 sym.toNat) →
    (s.dsp = none → exec op s = .fault (.noValue .dsp)) ∧
    (∀ k, s.dsp = some (k + 1) → s.dstack[k]? = some none → exec op s = .fault (.noValue .dstack))) ∧
  (∀ (s : State) (b : Bit) (op : Instr), (op = .deStep ∨ op = if b then .brRight else .brLeft) →
    s.inBits[s.rp]? = some b →
    (∀ top, s.dnode[0]? = some top →
      (top.leaf = none → exec op s = .fault (.noValue .dnode)) ∧
      (top.leaf ≠ none → s.cur = none → exec op s = .fault (.noValue .cur)) ∧
      (top.leaf = some true → s.cur = some 0 → top.sym = none → exec op s = .fault (.noValue .dnode)) ∧
      (∀ c n, top.leaf = some false → s.cur = some c → s.dnode[c]? = some n →
        ((if b then n.right else n.left) = none → exec op s = .fault (.noValue .dnode)) ∧
        (∀ c' m, (if b then n.right else n.left) = some c' → s.dnode[c']? = some m →
          (m.leaf = none ∨ m.leaf = some true ∧ m.sym = none) → exec op s = .fault (.noValue .dnode)))))
end

