-- ==== Sys2Proof/Laws/Bits.lean ====
section
/-! SUPPORT. Laws/Bits.lean: bin and val undo each other (R13), and the extensions of R80. -/

namespace Sys2Proof

@[simp] theorem length_bin (n v : Nat) : (bin n v).length = n := by
  induction n with
  | zero => rfl
  | succ n ih => simp [bin, ih]

@[simp] theorem bin_zero (v : Nat) : bin 0 v = [] := rfl

theorem bin_succ (n v : Nat) : bin (n + 1) v = v.testBit n :: bin n v := rfl

/-- Bit i of bin_n(v), counted from the first on the stream, is v[n-1-i] (R66). -/
theorem getElem?_bin (n v i : Nat) (h : i < n) : (bin n v)[i]? = some (v.testBit (n - 1 - i)) := by
  induction n generalizing i with
  | zero => omega
  | succ n ih =>
    cases i with
    | zero => simp [bin]
    | succ i =>
      simp only [bin, List.getElem?_cons_succ]
      rw [ih i (by omega)]
      congr 2; omega

/-- The accumulator of val is a number in front. -/
theorem foldl_val (s : Bits) (a : Nat) :
    s.foldl (fun a b => 2 * a + b.toNat) a = a * 2 ^ s.length + val s := by
  induction s generalizing a with
  | nil => simp [val]
  | cons b s ih =>
    simp only [List.foldl_cons, List.length_cons, val]
    rw [ih, ih (2 * 0 + b.toNat), Nat.pow_succ]
    ring

@[simp] theorem val_nil : val [] = 0 := rfl

theorem val_cons (b : Bit) (s : Bits) : val (b :: s) = b.toNat * 2 ^ s.length + val s := by
  simpa [val] using foldl_val s b.toNat

theorem val_append (s t : Bits) : val (s ++ t) = val s * 2 ^ t.length + val t := by
  rw [val, List.foldl_append]; exact foldl_val t (val s)

theorem val_lt (s : Bits) : val s < 2 ^ s.length := by
  induction s with
  | nil => simp
  | cons b s ih =>
    rw [val_cons, List.length_cons, Nat.pow_succ]
    cases b <;> simp <;> omega

/-- Writing the low n bits and reading them back gives v modulo 2^n. -/
theorem val_bin (n v : Nat) : val (bin n v) = v % 2 ^ n := by
  induction n with
  | zero => simp [Nat.mod_one]
  | succ n ih =>
    rw [bin_succ, val_cons, length_bin, ih, Nat.testBit_eq_decide_div_mod_eq, Nat.pow_succ, Nat.mod_mul]
    rcases Nat.mod_two_eq_zero_or_one (v / 2 ^ n) with h | h <;> simp [h]; omega

/-- A bit sequence is the bits of its value: leading zeros are kept by the explicit length (R96). -/
theorem bin_val (s : Bits) : bin s.length (val s) = s := by
  induction s with
  | nil => rfl
  | cons b s ih =>
    have hlt := val_lt s
    have key : ∀ n, n ≤ s.length → bin n (b.toNat * 2 ^ s.length + val s) = bin n (val s) := by
      intro n hn
      induction n with
      | zero => rfl
      | succ n ihn =>
        rw [bin_succ, bin_succ, ihn (by omega), Nat.mul_comm, Nat.testBit_two_pow_mul_add _ hlt]
        simp [show n < s.length by omega]
    rw [val_cons, List.length_cons, bin_succ, key _ (Nat.le_refl _), ih, Nat.mul_comm,
      Nat.testBit_two_pow_mul_add _ hlt]
    cases b <;> simp

/-- The same for a length known otherwise. -/
theorem bin_val_of_length {n : Nat} {s : Bits} (h : s.length = n) : bin n (val s) = s := by
  subst h; exact bin_val s

@[simp] theorem val_bin_byte (b : Byte) : val (bin 8 b.toNat) = b.toNat := by
  rw [val_bin]; exact Nat.mod_eq_of_lt b.isLt

@[simp] theorem val_bin_symbol (x : Symbol) : val (bin 9 x.toNat) = x.toNat := by
  rw [val_bin]; exact Nat.mod_eq_of_lt x.isLt

@[simp] theorem val_bin_magic (m : BitVec 32) : val (bin 32 m.toNat) = m.toNat := by
  rw [val_bin]; exact Nat.mod_eq_of_lt m.isLt

@[simp] theorem toNat_zext9 (b : Byte) : (zext9 b).toNat = b.toNat := by
  have := b.isLt
  simp only [zext9, BitVec.toNat_setWidth]; omega

/-- A decoded symbol below 256 loses nothing as a byte (R80). -/
theorem toNat_lowByte (x : Symbol) (h : x.toNat < 256) : (lowByte x).toNat = x.toNat := by
  simp only [lowByte, BitVec.extractLsb'_toNat, Nat.shiftRight_zero]; omega

@[simp] theorem lowByte_zext9 (b : Byte) : lowByte (zext9 b) = b := by
  have h := b.isLt
  apply BitVec.eq_of_toNat_eq
  rw [toNat_lowByte _ (by simpa using h)]; simp

/-- The phase codes are one to one and the table of R103 reads them back. -/
@[simp] theorem phaseOf_phaseCode (ph : Phase) : phaseOf (phaseCode ph) = some ph := by
  cases ph <;> rfl

end Sys2Proof
end

