-- ==== Sys2Proof/Laws/State.lean ====
section
/-! SUPPORT. Laws/State.lean: one lemma per field per named update of the state, true by rfl, so that no proof unfolds one;
what the lifetimes of R40 leave
of the tables; and that the reset state and the end of a command hold no value in any table. -/

namespace Sys2Proof.Machine

/-! ## rewind -/

@[simp] theorem rewind_par (s : State) : (rewind s).par = s.par := rfl
@[simp] theorem rewind_rst (s : State) : (rewind s).rst = s.rst := rfl
@[simp] theorem rewind_cmdValid (s : State) : (rewind s).cmdValid = s.cmdValid := rfl
@[simp] theorem rewind_cmdOp (s : State) : (rewind s).cmdOp = s.cmdOp := rfl
@[simp] theorem rewind_ioReady (s : State) : (rewind s).ioReady = s.ioReady := rfl
@[simp] theorem rewind_st (s : State) : (rewind s).st = s.st := rfl
@[simp] theorem rewind_err (s : State) : (rewind s).err = s.err := rfl
@[simp] theorem rewind_phase (s : State) : (rewind s).phase = s.phase := rfl
@[simp] theorem rewind_freq (s : State) : (rewind s).freq = s.freq := rfl
@[simp] theorem rewind_node (s : State) : (rewind s).node = s.node := rfl
@[simp] theorem rewind_active (s : State) : (rewind s).active = s.active := rfl
@[simp] theorem rewind_nextIdx (s : State) : (rewind s).nextIdx = s.nextIdx := rfl
@[simp] theorem rewind_root (s : State) : (rewind s).root = s.root := rfl
@[simp] theorem rewind_codeLen (s : State) : (rewind s).codeLen = s.codeLen := rfl
@[simp] theorem rewind_codeBits (s : State) : (rewind s).codeBits = s.codeBits := rfl
@[simp] theorem rewind_stack (s : State) : (rewind s).stack = s.stack := rfl
@[simp] theorem rewind_sp (s : State) : (rewind s).sp = s.sp := rfl
@[simp] theorem rewind_path (s : State) : (rewind s).path = s.path := rfl
@[simp] theorem rewind_dnode (s : State) : (rewind s).dnode = s.dnode := rfl
@[simp] theorem rewind_dnext (s : State) : (rewind s).dnext = s.dnext := rfl
@[simp] theorem rewind_dstack (s : State) : (rewind s).dstack = s.dstack := rfl
@[simp] theorem rewind_dsp (s : State) : (rewind s).dsp = s.dsp := rfl
@[simp] theorem rewind_cur (s : State) : (rewind s).cur = s.cur := rfl
@[simp] theorem rewind_inBits (s : State) : (rewind s).inBits = s.inBits := rfl
@[simp] theorem rewind_rp (s : State) : (rewind s).rp = 0 := rfl
@[simp] theorem rewind_outBits (s : State) : (rewind s).outBits = s.outBits := rfl
@[simp] theorem rewind_closed (s : State) : (rewind s).closed = s.closed := rfl
@[simp] theorem rewind_medium (s : State) : (rewind s).medium = s.medium := rfl
@[simp] theorem rewind_trace (s : State) : (rewind s).trace = s.trace ++ [.rewind] := rfl
@[simp] theorem rewind_draw (s : State) : (rewind s).draw = s.draw := rfl

/-! ## closeOut -/

@[simp] theorem closeOut_par (s : State) : (closeOut s).par = s.par := rfl
@[simp] theorem closeOut_rst (s : State) : (closeOut s).rst = s.rst := rfl
@[simp] theorem closeOut_cmdValid (s : State) : (closeOut s).cmdValid = s.cmdValid := rfl
@[simp] theorem closeOut_cmdOp (s : State) : (closeOut s).cmdOp = s.cmdOp := rfl
@[simp] theorem closeOut_ioReady (s : State) : (closeOut s).ioReady = s.ioReady := rfl
@[simp] theorem closeOut_st (s : State) : (closeOut s).st = s.st := rfl
@[simp] theorem closeOut_err (s : State) : (closeOut s).err = s.err := rfl
@[simp] theorem closeOut_phase (s : State) : (closeOut s).phase = s.phase := rfl
@[simp] theorem closeOut_freq (s : State) : (closeOut s).freq = s.freq := rfl
@[simp] theorem closeOut_node (s : State) : (closeOut s).node = s.node := rfl
@[simp] theorem closeOut_active (s : State) : (closeOut s).active = s.active := rfl
@[simp] theorem closeOut_nextIdx (s : State) : (closeOut s).nextIdx = s.nextIdx := rfl
@[simp] theorem closeOut_root (s : State) : (closeOut s).root = s.root := rfl
@[simp] theorem closeOut_codeLen (s : State) : (closeOut s).codeLen = s.codeLen := rfl
@[simp] theorem closeOut_codeBits (s : State) : (closeOut s).codeBits = s.codeBits := rfl
@[simp] theorem closeOut_stack (s : State) : (closeOut s).stack = s.stack := rfl
@[simp] theorem closeOut_sp (s : State) : (closeOut s).sp = s.sp := rfl
@[simp] theorem closeOut_path (s : State) : (closeOut s).path = s.path := rfl
@[simp] theorem closeOut_dnode (s : State) : (closeOut s).dnode = s.dnode := rfl
@[simp] theorem closeOut_dnext (s : State) : (closeOut s).dnext = s.dnext := rfl
@[simp] theorem closeOut_dstack (s : State) : (closeOut s).dstack = s.dstack := rfl
@[simp] theorem closeOut_dsp (s : State) : (closeOut s).dsp = s.dsp := rfl
@[simp] theorem closeOut_cur (s : State) : (closeOut s).cur = s.cur := rfl
@[simp] theorem closeOut_inBits (s : State) : (closeOut s).inBits = s.inBits := rfl
@[simp] theorem closeOut_rp (s : State) : (closeOut s).rp = s.rp := rfl
@[simp] theorem closeOut_outBits (s : State) : (closeOut s).outBits = s.outBits := rfl
@[simp] theorem closeOut_closed (s : State) : (closeOut s).closed = true := rfl
@[simp] theorem closeOut_medium (s : State) : (closeOut s).medium = s.outBits ++ Config.padding s.par.mediumUnit s.draw := rfl
@[simp] theorem closeOut_trace (s : State) : (closeOut s).trace = s.trace ++ [.close] := rfl
@[simp] theorem closeOut_draw (s : State) : (closeOut s).draw = s.draw + 1 := rfl

/-! ## dropTables -/

@[simp] theorem dropTables_par (s : State) : (dropTables s).par = s.par := rfl
@[simp] theorem dropTables_rst (s : State) : (dropTables s).rst = s.rst := rfl
@[simp] theorem dropTables_cmdValid (s : State) : (dropTables s).cmdValid = s.cmdValid := rfl
@[simp] theorem dropTables_cmdOp (s : State) : (dropTables s).cmdOp = s.cmdOp := rfl
@[simp] theorem dropTables_ioReady (s : State) : (dropTables s).ioReady = s.ioReady := rfl
@[simp] theorem dropTables_st (s : State) : (dropTables s).st = s.st := rfl
@[simp] theorem dropTables_err (s : State) : (dropTables s).err = s.err := rfl
@[simp] theorem dropTables_phase (s : State) : (dropTables s).phase = s.phase := rfl
@[simp] theorem dropTables_freq (s : State) : (dropTables s).freq = none := rfl
@[simp] theorem dropTables_node (s : State) : (dropTables s).node = Vector.replicate 513 none := rfl
@[simp] theorem dropTables_active (s : State) : (dropTables s).active = none := rfl
@[simp] theorem dropTables_nextIdx (s : State) : (dropTables s).nextIdx = none := rfl
@[simp] theorem dropTables_root (s : State) : (dropTables s).root = none := rfl
@[simp] theorem dropTables_codeLen (s : State) : (dropTables s).codeLen = Vector.replicate 257 none := rfl
@[simp] theorem dropTables_codeBits (s : State) : (dropTables s).codeBits = Vector.replicate 257 none := rfl
@[simp] theorem dropTables_stack (s : State) : (dropTables s).stack = Vector.replicate 257 none := rfl
@[simp] theorem dropTables_sp (s : State) : (dropTables s).sp = none := rfl
@[simp] theorem dropTables_path (s : State) : (dropTables s).path = Vector.replicate 256 none := rfl
@[simp] theorem dropTables_dnode (s : State) : (dropTables s).dnode = List.replicate s.par.decNodeCap DNode.blank := rfl
@[simp] theorem dropTables_dnext (s : State) : (dropTables s).dnext = none := rfl
@[simp] theorem dropTables_dstack (s : State) : (dropTables s).dstack = List.replicate s.par.decNodeCap none := rfl
@[simp] theorem dropTables_dsp (s : State) : (dropTables s).dsp = none := rfl
@[simp] theorem dropTables_cur (s : State) : (dropTables s).cur = none := rfl
@[simp] theorem dropTables_inBits (s : State) : (dropTables s).inBits = s.inBits := rfl
@[simp] theorem dropTables_rp (s : State) : (dropTables s).rp = s.rp := rfl
@[simp] theorem dropTables_outBits (s : State) : (dropTables s).outBits = s.outBits := rfl
@[simp] theorem dropTables_closed (s : State) : (dropTables s).closed = s.closed := rfl
@[simp] theorem dropTables_medium (s : State) : (dropTables s).medium = s.medium := rfl
@[simp] theorem dropTables_trace (s : State) : (dropTables s).trace = s.trace := rfl
@[simp] theorem dropTables_draw (s : State) : (dropTables s).draw = s.draw := rfl

/-! ## expire -/

@[simp] theorem expire_par (s : State) : (expire s).par = s.par := rfl
@[simp] theorem expire_rst (s : State) : (expire s).rst = s.rst := rfl
@[simp] theorem expire_cmdValid (s : State) : (expire s).cmdValid = s.cmdValid := rfl
@[simp] theorem expire_cmdOp (s : State) : (expire s).cmdOp = s.cmdOp := rfl
@[simp] theorem expire_ioReady (s : State) : (expire s).ioReady = s.ioReady := rfl
@[simp] theorem expire_st (s : State) : (expire s).st = s.st := rfl
@[simp] theorem expire_err (s : State) : (expire s).err = s.err := rfl
@[simp] theorem expire_phase (s : State) : (expire s).phase = s.phase := rfl
@[simp] theorem expire_freq (s : State) : (expire s).freq = keep .freq s s.freq none := rfl
@[simp] theorem expire_node (s : State) : (expire s).node = keep .node s s.node (Vector.replicate 513 none) := rfl
@[simp] theorem expire_active (s : State) : (expire s).active = keep .active s s.active none := rfl
@[simp] theorem expire_nextIdx (s : State) : (expire s).nextIdx = keep .nextIdx s s.nextIdx none := rfl
@[simp] theorem expire_root (s : State) : (expire s).root = keep .root s s.root none := rfl
@[simp] theorem expire_codeLen (s : State) : (expire s).codeLen = keep .codeLen s s.codeLen (Vector.replicate 257 none) := rfl
@[simp] theorem expire_codeBits (s : State) : (expire s).codeBits = keep .codeBits s s.codeBits (Vector.replicate 257 none) := rfl
@[simp] theorem expire_stack (s : State) : (expire s).stack = keep .stack s s.stack (Vector.replicate 257 none) := rfl
@[simp] theorem expire_sp (s : State) : (expire s).sp = keep .sp s s.sp none := rfl
@[simp] theorem expire_path (s : State) : (expire s).path = keep .path s s.path (Vector.replicate 256 none) := rfl
@[simp] theorem expire_dnode (s : State) : (expire s).dnode = keep .dnode s s.dnode (List.replicate s.par.decNodeCap DNode.blank) := rfl
@[simp] theorem expire_dnext (s : State) : (expire s).dnext = keep .dnext s s.dnext none := rfl
@[simp] theorem expire_dstack (s : State) : (expire s).dstack = keep .dstack s s.dstack (List.replicate s.par.decNodeCap none) := rfl
@[simp] theorem expire_dsp (s : State) : (expire s).dsp = keep .dsp s s.dsp none := rfl
@[simp] theorem expire_cur (s : State) : (expire s).cur = keep .cur s s.cur none := rfl
@[simp] theorem expire_inBits (s : State) : (expire s).inBits = s.inBits := rfl
@[simp] theorem expire_rp (s : State) : (expire s).rp = s.rp := rfl
@[simp] theorem expire_outBits (s : State) : (expire s).outBits = s.outBits := rfl
@[simp] theorem expire_closed (s : State) : (expire s).closed = s.closed := rfl
@[simp] theorem expire_medium (s : State) : (expire s).medium = s.medium := rfl
@[simp] theorem expire_trace (s : State) : (expire s).trace = s.trace := rfl
@[simp] theorem expire_draw (s : State) : (expire s).draw = s.draw := rfl

/-- Inside its lifetime a table keeps its contents. -/
theorem keep_of_mem {α : Type} {r : Reg} {s : State} {contents gone : α} (h : s.phase ∈ lifetime r) :
    keep r s contents gone = contents := if_pos h

/-- Outside its lifetime a table is gone. -/
theorem keep_of_not_mem {α : Type} {r : Reg} {s : State} {contents gone : α} (h : s.phase ∉ lifetime r) :
    keep r s contents gone = gone := if_neg h

theorem keep_self {α : Type} (r : Reg) (s : State) (gone : α) : keep r s gone gone = gone := ite_self gone

/-- Lifetimes touch the tables only. -/
@[simp] theorem dropTables_expire (s : State) : dropTables (expire s) = dropTables s := rfl

/-- What the operation of a phase finds of a table whose lifetime does not include it (R41). -/
theorem expire_holdsNone {s : State} {r : Reg} (h : s.phase ∉ lifetime r) : (expire s).holdsNone r := by
  cases r <;> exact keep_of_not_mem h

/-! ## finish -/

@[simp] theorem finish_par (s : State) : (finish s).par = s.par := rfl
@[simp] theorem finish_rst (s : State) : (finish s).rst = s.rst := rfl
@[simp] theorem finish_cmdValid (s : State) : (finish s).cmdValid = s.cmdValid := rfl
@[simp] theorem finish_cmdOp (s : State) : (finish s).cmdOp = s.cmdOp := rfl
@[simp] theorem finish_ioReady (s : State) : (finish s).ioReady = s.ioReady := rfl
@[simp] theorem finish_st (s : State) : (finish s).st = .done := rfl
@[simp] theorem finish_err (s : State) : (finish s).err = s.err := rfl
@[simp] theorem finish_phase (s : State) : (finish s).phase = .pIdle := rfl
@[simp] theorem finish_freq (s : State) : (finish s).freq = none := rfl
@[simp] theorem finish_node (s : State) : (finish s).node = Vector.replicate 513 none := rfl
@[simp] theorem finish_active (s : State) : (finish s).active = none := rfl
@[simp] theorem finish_nextIdx (s : State) : (finish s).nextIdx = none := rfl
@[simp] theorem finish_root (s : State) : (finish s).root = none := rfl
@[simp] theorem finish_codeLen (s : State) : (finish s).codeLen = Vector.replicate 257 none := rfl
@[simp] theorem finish_codeBits (s : State) : (finish s).codeBits = Vector.replicate 257 none := rfl
@[simp] theorem finish_stack (s : State) : (finish s).stack = Vector.replicate 257 none := rfl
@[simp] theorem finish_sp (s : State) : (finish s).sp = none := rfl
@[simp] theorem finish_path (s : State) : (finish s).path = Vector.replicate 256 none := rfl
@[simp] theorem finish_dnode (s : State) : (finish s).dnode = List.replicate s.par.decNodeCap DNode.blank := rfl
@[simp] theorem finish_dnext (s : State) : (finish s).dnext = none := rfl
@[simp] theorem finish_dstack (s : State) : (finish s).dstack = List.replicate s.par.decNodeCap none := rfl
@[simp] theorem finish_dsp (s : State) : (finish s).dsp = none := rfl
@[simp] theorem finish_cur (s : State) : (finish s).cur = none := rfl
@[simp] theorem finish_inBits (s : State) : (finish s).inBits = s.inBits := rfl
@[simp] theorem finish_rp (s : State) : (finish s).rp = s.rp := rfl
@[simp] theorem finish_outBits (s : State) : (finish s).outBits = s.outBits := rfl
@[simp] theorem finish_closed (s : State) : (finish s).closed = true := rfl
@[simp] theorem finish_medium (s : State) : (finish s).medium = s.outBits ++ Config.padding s.par.mediumUnit s.draw := rfl
@[simp] theorem finish_trace (s : State) : (finish s).trace = s.trace ++ [.close] := rfl
@[simp] theorem finish_draw (s : State) : (finish s).draw = s.draw + 1 := rfl

/-! ## abort -/

@[simp] theorem abort_par (e : ErrCode) (s : State) : (abort e s).par = s.par := rfl
@[simp] theorem abort_rst (e : ErrCode) (s : State) : (abort e s).rst = s.rst := rfl
@[simp] theorem abort_cmdValid (e : ErrCode) (s : State) : (abort e s).cmdValid = s.cmdValid := rfl
@[simp] theorem abort_cmdOp (e : ErrCode) (s : State) : (abort e s).cmdOp = s.cmdOp := rfl
@[simp] theorem abort_ioReady (e : ErrCode) (s : State) : (abort e s).ioReady = s.ioReady := rfl
@[simp] theorem abort_st (e : ErrCode) (s : State) : (abort e s).st = .error := rfl
@[simp] theorem abort_err (e : ErrCode) (s : State) : (abort e s).err = e := rfl
@[simp] theorem abort_phase (e : ErrCode) (s : State) : (abort e s).phase = .pIdle := rfl
@[simp] theorem abort_freq (e : ErrCode) (s : State) : (abort e s).freq = none := rfl
@[simp] theorem abort_node (e : ErrCode) (s : State) : (abort e s).node = Vector.replicate 513 none := rfl
@[simp] theorem abort_active (e : ErrCode) (s : State) : (abort e s).active = none := rfl
@[simp] theorem abort_nextIdx (e : ErrCode) (s : State) : (abort e s).nextIdx = none := rfl
@[simp] theorem abort_root (e : ErrCode) (s : State) : (abort e s).root = none := rfl
@[simp] theorem abort_codeLen (e : ErrCode) (s : State) : (abort e s).codeLen = Vector.replicate 257 none := rfl
@[simp] theorem abort_codeBits (e : ErrCode) (s : State) : (abort e s).codeBits = Vector.replicate 257 none := rfl
@[simp] theorem abort_stack (e : ErrCode) (s : State) : (abort e s).stack = Vector.replicate 257 none := rfl
@[simp] theorem abort_sp (e : ErrCode) (s : State) : (abort e s).sp = none := rfl
@[simp] theorem abort_path (e : ErrCode) (s : State) : (abort e s).path = Vector.replicate 256 none := rfl
@[simp] theorem abort_dnode (e : ErrCode) (s : State) : (abort e s).dnode = List.replicate s.par.decNodeCap DNode.blank := rfl
@[simp] theorem abort_dnext (e : ErrCode) (s : State) : (abort e s).dnext = none := rfl
@[simp] theorem abort_dstack (e : ErrCode) (s : State) : (abort e s).dstack = List.replicate s.par.decNodeCap none := rfl
@[simp] theorem abort_dsp (e : ErrCode) (s : State) : (abort e s).dsp = none := rfl
@[simp] theorem abort_cur (e : ErrCode) (s : State) : (abort e s).cur = none := rfl
@[simp] theorem abort_inBits (e : ErrCode) (s : State) : (abort e s).inBits = s.inBits := rfl
@[simp] theorem abort_rp (e : ErrCode) (s : State) : (abort e s).rp = s.rp := rfl
@[simp] theorem abort_outBits (e : ErrCode) (s : State) : (abort e s).outBits = s.outBits := rfl
@[simp] theorem abort_closed (e : ErrCode) (s : State) : (abort e s).closed = true := rfl
@[simp] theorem abort_medium (e : ErrCode) (s : State) : (abort e s).medium = s.outBits ++ Config.padding s.par.mediumUnit s.draw := rfl
@[simp] theorem abort_trace (e : ErrCode) (s : State) : (abort e s).trace = s.trace ++ [.close] := rfl
@[simp] theorem abort_draw (e : ErrCode) (s : State) : (abort e s).draw = s.draw + 1 := rfl

/-! ## hardReset -/

@[simp] theorem hardReset_par (s : State) : (hardReset s).par = s.par := rfl
@[simp] theorem hardReset_rst (s : State) : (hardReset s).rst = false := rfl
@[simp] theorem hardReset_cmdValid (s : State) : (hardReset s).cmdValid = s.cmdValid := rfl
@[simp] theorem hardReset_cmdOp (s : State) : (hardReset s).cmdOp = s.cmdOp := rfl
@[simp] theorem hardReset_ioReady (s : State) : (hardReset s).ioReady = s.ioReady := rfl
@[simp] theorem hardReset_st (s : State) : (hardReset s).st = .idle := rfl
@[simp] theorem hardReset_err (s : State) : (hardReset s).err = .none := rfl
@[simp] theorem hardReset_phase (s : State) : (hardReset s).phase = .pIdle := rfl
@[simp] theorem hardReset_freq (s : State) : (hardReset s).freq = none := rfl
@[simp] theorem hardReset_node (s : State) : (hardReset s).node = Vector.replicate 513 none := rfl
@[simp] theorem hardReset_active (s : State) : (hardReset s).active = none := rfl
@[simp] theorem hardReset_nextIdx (s : State) : (hardReset s).nextIdx = none := rfl
@[simp] theorem hardReset_root (s : State) : (hardReset s).root = none := rfl
@[simp] theorem hardReset_codeLen (s : State) : (hardReset s).codeLen = Vector.replicate 257 none := rfl
@[simp] theorem hardReset_codeBits (s : State) : (hardReset s).codeBits = Vector.replicate 257 none := rfl
@[simp] theorem hardReset_stack (s : State) : (hardReset s).stack = Vector.replicate 257 none := rfl
@[simp] theorem hardReset_sp (s : State) : (hardReset s).sp = none := rfl
@[simp] theorem hardReset_path (s : State) : (hardReset s).path = Vector.replicate 256 none := rfl
@[simp] theorem hardReset_dnode (s : State) : (hardReset s).dnode = List.replicate s.par.decNodeCap DNode.blank := rfl
@[simp] theorem hardReset_dnext (s : State) : (hardReset s).dnext = none := rfl
@[simp] theorem hardReset_dstack (s : State) : (hardReset s).dstack = List.replicate s.par.decNodeCap none := rfl
@[simp] theorem hardReset_dsp (s : State) : (hardReset s).dsp = none := rfl
@[simp] theorem hardReset_cur (s : State) : (hardReset s).cur = none := rfl
@[simp] theorem hardReset_inBits (s : State) : (hardReset s).inBits = s.inBits := rfl
@[simp] theorem hardReset_rp (s : State) : (hardReset s).rp = s.rp := rfl
@[simp] theorem hardReset_outBits (s : State) : (hardReset s).outBits = s.outBits := rfl
@[simp] theorem hardReset_closed (s : State) : (hardReset s).closed = s.closed := rfl
@[simp] theorem hardReset_medium (s : State) : (hardReset s).medium = s.medium := rfl
@[simp] theorem hardReset_trace (s : State) : (hardReset s).trace = s.trace := rfl
@[simp] theorem hardReset_draw (s : State) : (hardReset s).draw = s.draw := rfl

/-! ## Tables without a value -/

theorem dropTables_compressionEmpty (s : State) : (dropTables s).compressionEmpty :=
  ⟨rfl, rfl, rfl, rfl, rfl, rfl, rfl, rfl, rfl, rfl⟩

theorem dropTables_decompressionEmpty (s : State) : (dropTables s).decompressionEmpty :=
  ⟨rfl, rfl, rfl, rfl, rfl⟩

@[simp] theorem dropTables_dropTables (s : State) : dropTables (dropTables s) = dropTables s := rfl

/-- Where no table holds a value each of them holds none. -/
theorem holdsNone_of_empty {s : State} (h : s.compressionEmpty) (h' : s.decompressionEmpty) (r : Reg) : s.holdsNone r := by
  obtain ⟨hf, hn, ha, hx, hr, hl, hb, hs, hp, ht⟩ := h
  obtain ⟨hd, hdx, hds, hdp, hc⟩ := h'
  cases r <;> assumption

/-- Where no table holds a value there is nothing to take away. -/
theorem expire_of_empty {s : State} (h : s.compressionEmpty) (h' : s.decompressionEmpty) : expire s = s := by
  obtain ⟨hf, hn, ha, hx, hr, hl, hb, hs, hp, ht⟩ := h
  obtain ⟨hd, hdx, hds, hdp, hc⟩ := h'
  cases s
  simp only at hf hn ha hx hr hl hb hs hp ht hd hdx hds hdp hc
  subst hf hn ha hx hr hl hb hs hp ht hd hdx hds hdp hc
  simp only [expire, keep_self]

/-- The command's flow does not reach a compression table's lifetime from outside COMPRESS (R41). -/
theorem compressionEmpty_of_lifetimes {s : State} (h : s.lifetimes) (hp : compressing s.phase = false) :
    s.compressionEmpty := by
  have none_of (r : Reg) (hr : ∀ q ∈ lifetime r, ∀ p ∈ nextPhases q, compressing p = true) : s.holdsNone r :=
    h r fun q hq hm => by rw [hr q hq _ hm] at hp; cases hp
  exact ⟨none_of .freq (by decide), none_of .node (by decide), none_of .active (by decide), none_of .nextIdx (by decide),
    none_of .root (by decide), none_of .codeLen (by decide), none_of .codeBits (by decide), none_of .stack (by decide),
    none_of .sp (by decide), none_of .path (by decide)⟩

/-- The command's flow does not reach a decompression register's lifetime from outside DECOMPRESS (R41). -/
theorem decompressionEmpty_of_lifetimes {s : State} (h : s.lifetimes) (hp : decompressing s.phase = false) :
    s.decompressionEmpty := by
  have none_of (r : Reg) (hr : ∀ q ∈ lifetime r, ∀ p ∈ nextPhases q, decompressing p = true) : s.holdsNone r :=
    h r fun q hq hm => by rw [hr q hq _ hm] at hp; cases hp
  exact ⟨none_of .dnode (by decide), none_of .dnext (by decide), none_of .dstack (by decide), none_of .dsp (by decide),
    none_of .cur (by decide)⟩

/-- Acceptance by a core that is not BUSY (R190). -/
theorem accept_of_not_busy (first : Phase) (s : State) (h : s.st ≠ .busy) :
    accept first s = { s with st := .busy, err := .none, phase := first } := by simp [accept, h]

/-- While BUSY a command is not accepted (R190). -/
theorem accept_of_busy (first : Phase) (s : State) (h : s.st = .busy) : accept first s = s := by simp [accept, h]

end Sys2Proof.Machine
end

