-- ==== Sys2Proof/Laws/Inv.lean ====
section
/-! SUPPORT. Laws/Inv.lean: the invariant of a core between commands: its size and width clauses hold where no table holds
a value. -/

namespace Sys2Proof.Machine

theorem getElem?_replicate_none_ne {α : Type} {n i : Nat} {a : α} :
    (Vector.replicate n (none : Option α))[i]? ≠ some (some a) := by
  rw [Vector.getElem?_replicate]; split <;> simp

theorem getElem?_listReplicate_none_ne {α : Type} {n i : Nat} {a : α} :
    (List.replicate n (none : Option α))[i]? ≠ some (some a) := by
  rw [List.getElem?_replicate]; split <;> simp

theorem eq_blank_of_getElem?_replicate {n i : Nat} {d : DNode} (h : (List.replicate n DNode.blank)[i]? = some d) :
    d = DNode.blank := by
  rw [List.getElem?_replicate] at h; split at h <;> cases h; rfl

theorem holdsOnly_none {α : Type} {x : Option α} {P : α → Prop} (h : x = none) : holdsOnly x P := by
  intro a ha; rw [h] at ha; cases ha

theorem compressionFits_of_empty {s : State} (h : s.compressionEmpty) : s.compressionFits := by
  obtain ⟨hf, hn, -, hx, hr, hl, -, hs, hp, -⟩ := h
  refine ⟨holdsOnly_none hf, fun i n hi => ?_, holdsOnly_none hx, holdsOnly_none hr, fun i len hi => ?_,
    holdsOnly_none hp, fun i e hi => ?_⟩
  · rw [hn] at hi; exact absurd hi getElem?_replicate_none_ne
  · rw [hl] at hi; exact absurd hi getElem?_replicate_none_ne
  · rw [hs] at hi; exact absurd hi getElem?_replicate_none_ne

theorem decompressionFits_of_empty {s : State} (h : s.decompressionEmpty) : s.decompressionFits := by
  obtain ⟨hd, hx, hs, hp, hc⟩ := h
  refine ⟨holdsOnly_none hx, holdsOnly_none hp, holdsOnly_none hc, fun i d hi => ?_, fun i e hi => ?_⟩
  · rw [hd] at hi; rw [eq_blank_of_getElem?_replicate hi]; exact ⟨holdsOnly_none rfl, holdsOnly_none rfl⟩
  · rw [hs] at hi; exact absurd hi getElem?_listReplicate_none_ne

/-- A core between commands meets the invariant if its STATUS is coherent, its tables hold no value and rp lies in IN. -/
theorem inv_of_empty {s : State} (hp : s.par.wellFormed = true) (hc : s.coherent) (hph : s.phase = .pIdle)
    (h : s.compressionEmpty) (h' : s.decompressionEmpty) (hrp : s.rp ≤ s.inBits.length) : s.Inv where
  params := hp
  coherent := hc
  lifetimes := fun r _ => holdsNone_of_empty h h' r
  sized := ⟨by rw [h'.1, List.length_replicate], by rw [h'.2.2.1, List.length_replicate], hrp⟩
  compressionFits := compressionFits_of_empty h
  decompressionFits := decompressionFits_of_empty h'
  walking := by rw [State.walking, hph]; simp

end Sys2Proof.Machine
end

