-- ==== Sys2Proof/Laws/Ops.lean ====
section
/-! SUPPORT. Laws/Ops.lean: for each shared operation one lemma that says everything it can do: when it answers a next
state, and which. Later proofs cite these and do not unfold the operation. -/

namespace Sys2Proof.Machine

/-! ## Outcomes in sequence -/

@[simp] theorem chain_next {α β : Type} (a : α) (f : α → Res β) : chain (.next a) f = f a := rfl

@[simp] theorem chain_fault {α β : Type} (e : Fault) (f : α → Res β) : chain (.fault e) f = .fault e := rfl

@[simp] theorem chain_refused {α β : Type} (e : Refusal) (f : α → Res β) : chain (.refused e) f = .refused e := rfl

theorem chain_eq_next {α β : Type} {x : Res α} {f : α → Res β} {b : β} :
    chain x f = .next b ↔ ∃ a, x = .next a ∧ f a = .next b := by
  cases x <;> simp

theorem chain_assoc {α β γ : Type} (x : Res α) (f : α → Res β) (g : β → Res γ) :
    chain (chain x f) g = chain x fun a => chain (f a) g := by
  cases x <;> rfl

/-! ## Reading and writing tables -/

@[simp] theorem need_some {α : Type} (a : α) (r : Reg) : need (some a) r = .next a := rfl

@[simp] theorem need_none {α : Type} (r : Reg) : need (none : Option α) r = .fault (.noValue r) := rfl

theorem need_eq_next {α : Type} {x : Option α} {r : Reg} {a : α} : need x r = .next a ↔ x = some a := by
  cases x <;> simp

@[simp] theorem entry_some {α : Type} (a : α) (r : Reg) : entry (some (some a)) r = .next a := rfl

theorem entry_eq_next {α : Type} {x : Option (Option α)} {r : Reg} {a : α} :
    entry x r = .next a ↔ x = some (some a) := by
  rcases x with _ | _ | x <;> simp [entry]

theorem getElem?_tabulate {α : Type} (n : Nat) (f : Nat → α) (i : Nat) :
    (tabulate n f)[i]? = if i < n then some (f i) else none := by
  simp only [tabulate, Vector.getElem?_mk, List.getElem?_toArray, List.getElem?_map]
  split
  · rename_i h; rw [List.getElem?_range h]; rfl
  · rename_i h; rw [List.getElem?_eq_none (by simpa using h)]; rfl

theorem toList_tabulate {α : Type} (n : Nat) (f : Nat → α) : (tabulate n f).toList = (List.range n).map f := rfl

/-- A table entry is written where there is one, and then it is `setIfInBounds`. -/
theorem putVec_of_lt {α : Type} {n : Nat} (t : Vector α n) (i : Nat) (x : α) (r : Reg) (h : i < n) :
    putVec t i x r = .next (t.setIfInBounds i x) := by
  simp only [putVec, h, dite_true]
  congr 1
  apply Vector.ext
  intro j hj
  simp [Vector.getElem_set, Vector.getElem_setIfInBounds]

theorem putVec_eq_next {α : Type} {n : Nat} {t u : Vector α n} {i : Nat} {x : α} {r : Reg} :
    putVec t i x r = .next u ↔ i < n ∧ u = t.setIfInBounds i x := by
  by_cases h : i < n
  · rw [putVec_of_lt t i x r h]; simp [h, eq_comm]
  · simp [putVec, h]

theorem putList_of_lt {α : Type} (t : List α) (i : Nat) (x : α) (r : Reg) (h : i < t.length) :
    putList t i x r = .next (t.set i x) := by simp [putList, h]

theorem putList_eq_next {α : Type} {t u : List α} {i : Nat} {x : α} {r : Reg} :
    putList t i x r = .next u ↔ i < t.length ∧ u = t.set i x := by
  by_cases h : i < t.length <;> simp [putList, h, eq_comm]

/-! ## Transactions -/

/-- A read that fits (R62). -/
theorem bitRead_of_le (n : Nat) (s : State) (h : s.rp + n ≤ s.inBits.length) :
    bitRead n s = (some (BitVec.ofNat n (val ((s.inBits.drop s.rp).take n))),
      { s with
        rp := s.rp + n
        trace := s.trace ++ [.read n (some (val ((s.inBits.drop s.rp).take n)))] }) := by
  simp [bitRead, h]

/-- A read past the end (R62). -/
theorem bitRead_of_gt (n : Nat) (s : State) (h : s.inBits.length < s.rp + n) :
    bitRead n s = (none, { s with trace := s.trace ++ [.read n none] }) := by
  simp [bitRead, Nat.not_le.mpr h]

/-- A read whose n bits are known: they are the bits of v. -/
theorem bitRead_of_take {n : Nat} {s : State} (v : BitVec n) (hn : 0 < n)
    (h : (s.inBits.drop s.rp).take n = bin n v.toNat) :
    bitRead n s = (some v, { s with rp := s.rp + n, trace := s.trace ++ [.read n (some v.toNat)] }) := by
  have hlen : s.rp + n ≤ s.inBits.length := by
    have := congrArg List.length h
    simp only [List.length_take, List.length_drop, length_bin] at this
    omega
  have hv : val (bin n v.toNat) = v.toNat := by rw [val_bin]; exact Nat.mod_eq_of_lt v.isLt
  rw [bitRead_of_le n s hlen, h, hv]; simp

/-- A read of one bit, known from the input. -/
theorem bitRead_one {s : State} {b : Bit} (h : s.inBits[s.rp]? = some b) :
    bitRead 1 s = (some (BitVec.ofBool b),
      { s with rp := s.rp + 1, trace := s.trace ++ [.read 1 (some b.toNat)] }) := by
  have hb : (BitVec.ofBool b).toNat = b.toNat := by cases b <;> rfl
  rw [← hb]
  apply bitRead_of_take _ Nat.one_pos
  obtain ⟨hlt, hget⟩ := List.getElem?_eq_some_iff.mp h
  rw [List.drop_eq_getElem_cons hlt, hget]
  cases b <;> rfl

/-- What a read can do: nothing but to move rp past n bits and to log itself. -/
theorem bitRead_cases (n : Nat) (s : State) :
    (∃ v, s.rp + n ≤ s.inBits.length ∧
      bitRead n s = (some (BitVec.ofNat n v), { s with rp := s.rp + n, trace := s.trace ++ [.read n (some v)] })) ∨
    (s.inBits.length < s.rp + n ∧ bitRead n s = (none, { s with trace := s.trace ++ [.read n none] })) := by
  rcases Nat.lt_or_ge s.inBits.length (s.rp + n) with h | h
  · exact .inr ⟨h, bitRead_of_gt n s h⟩
  · exact .inl ⟨_, h, bitRead_of_le n s h⟩

theorem memWrite_of_open (n v : Nat) (s : State) (hc : s.closed = false) (h1 : 1 ≤ n) (h2 : n ≤ 256) :
    memWrite n v s = .next { s with outBits := s.outBits ++ bin n v, trace := s.trace ++ [.write n v] } := by
  simp [memWrite, hc, h1, h2]

theorem memWrite_eq_next {n v : Nat} {s t : State} :
    memWrite n v s = .next t ↔
      s.closed = false ∧ 1 ≤ n ∧ n ≤ 256 ∧
        t = { s with outBits := s.outBits ++ bin n v, trace := s.trace ++ [.write n v] } := by
  unfold memWrite
  cases s.closed <;> by_cases h : 1 ≤ n ∧ n ≤ 256 <;> simp [h, eq_comm]
  all_goals omega

/-- A code is appended exactly as it is (R66, R168). -/
theorem writeCode_of_open (c : Bits) (s : State) (hc : s.closed = false) (h1 : 1 ≤ c.length) (h2 : c.length ≤ 256) :
    writeCode c s =
      .next { s with outBits := s.outBits ++ c, trace := s.trace ++ [.write c.length (val c)] } := by
  rw [writeCode, memWrite_of_open _ _ _ hc h1 h2, bin_val]

theorem writeCode_eq_next {c : Bits} {s t : State} :
    writeCode c s = .next t ↔
      s.closed = false ∧ 1 ≤ c.length ∧ c.length ≤ 256 ∧
        t = { s with outBits := s.outBits ++ c, trace := s.trace ++ [.write c.length (val c)] } := by
  rw [writeCode, memWrite_eq_next, bin_val]

theorem raise_eq_next {e : ErrCode} {s t : State} : raise e s = .next t ↔ t = abort e s := by
  simp [raise, eq_comm]

/-! ## The explicit stack -/

theorem push_eq_next {e : StackEntry} {s t : State} :
    push e s = .next t ↔
      ∃ n, s.sp = some n ∧ n < 257 ∧
        t = { s with stack := s.stack.setIfInBounds n (some e), sp := some (n + 1) } := by
  simp only [push, chain_eq_next, need_eq_next, putVec_eq_next]
  constructor
  · rintro ⟨n, hn, _, ⟨hlt, rfl⟩, h⟩
    cases h; exact ⟨n, hn, hlt, rfl⟩
  · rintro ⟨n, hn, hlt, rfl⟩
    exact ⟨n, hn, _, ⟨hlt, rfl⟩, rfl⟩

theorem pop_eq_next {s t : State} {e : StackEntry} :
    pop s = .next (e, t) ↔
      ∃ k, s.sp = some (k + 1) ∧ s.stack[k]? = some (some e) ∧ t = { s with sp := some k } := by
  simp only [pop, chain_eq_next, need_eq_next]
  constructor
  · rintro ⟨n, hn, h⟩
    cases n with
    | zero => simp at h
    | succ k =>
      simp only [chain_eq_next, entry_eq_next, Host.Outcome.next.injEq, Prod.mk.injEq] at h
      obtain ⟨e', he, rfl, rfl⟩ := h
      exact ⟨k, hn, he, rfl⟩
  · rintro ⟨k, hk, he, rfl⟩
    exact ⟨k + 1, hk, by simp [he]⟩

theorem walkPhase_eq_next {a b : Phase} {s t : State} :
    walkPhase a b s = .next t ↔
      ∃ n, s.sp = some n ∧ t = { s with phase := if n = 0 then a else b } := by
  simp only [walkPhase, chain_eq_next, need_eq_next, Host.Outcome.next.injEq, eq_comm (b := t)]

/-! ## The start of a step -/

/-- The fetch of a step inside a command: the condition of R104, on the tables that are live for the phase's operation. -/
theorem fetch_of_inCommand {s : State} {ph : Phase} (h : s.inCommand ph) :
    fetch s = chain (select (expire s)) fun x => .next (.run (.phase (phaseCode ph) x.1) x.2) := by
  simp [fetch, h.noReset, h.busy, h.ready, h.inPhase]

/-! ## Registers and tables of the units -/

theorem nodeAt_eq_next {s : State} {i : Nat} {n : Node} : nodeAt s i = .next n ↔ s.node[i]? = some (some n) :=
  entry_eq_next

theorem dnodeAt_eq_next {s : State} {i : Nat} {n : DNode} : dnodeAt s i = .next n ↔ s.dnode[i]? = some n := by
  unfold dnodeAt; cases s.dnode[i]? <;> simp

theorem isLeaf_eq_next {s : State} {i : Nat} {b : Bool} :
    isLeaf s i = .next b ↔ ∃ n, s.dnode[i]? = some n ∧ n.leaf = some b := by
  simp only [isLeaf, chain_eq_next, dnodeAt_eq_next, need_eq_next]

theorem symOf_eq_next {s : State} {i : Nat} {sym : Symbol} :
    symOf s i = .next sym ↔ ∃ n, s.dnode[i]? = some n ∧ n.sym = some sym := by
  simp only [symOf, chain_eq_next, dnodeAt_eq_next, need_eq_next]

theorem childOf_eq_next {s : State} {i c : Nat} {b : BitVec 1} :
    childOf s i b = .next c ↔ ∃ n, s.dnode[i]? = some n ∧ (if b = 0#1 then n.left else n.right) = some c := by
  simp only [childOf, chain_eq_next, dnodeAt_eq_next, need_eq_next]

theorem writeDnode_of_lt {i : Nat} {f : DNode → DNode} {s : State} (h : i < s.dnode.length) :
    writeDnode i f s = .next { s with dnode := s.dnode.modify i f } := if_pos h

/-- Writing a whole record is replacing it (R156). -/
theorem modify_const {α : Type} (l : List α) (i : Nat) (a : α) : (l.modify i fun _ => a) = l.set i a := by
  apply List.ext_getElem?
  intro j
  rw [List.getElem?_modify, List.getElem?_set]
  split <;> rename_i h
  · subst h; split <;> simp_all
  · simp

theorem writeDnode_eq_next {i : Nat} {f : DNode → DNode} {s t : State} :
    writeDnode i f s = .next t ↔ i < s.dnode.length ∧ t = { s with dnode := s.dnode.modify i f } := by
  by_cases h : i < s.dnode.length <;> simp [writeDnode, h, eq_comm]

theorem dstackAt_eq_next {s : State} {i : Nat} {e : DEntry} :
    dstackAt s i = .next e ↔ s.dstack[i]? = some (some e) := entry_eq_next

theorem setPath_eq_next {i : Nat} {b : Bit} {s t : State} :
    setPath i b s = .next t ↔ i < 256 ∧ t = { s with path := s.path.setIfInBounds i (some b) } := by
  simp only [setPath, chain_eq_next, putVec_eq_next]
  constructor
  · rintro ⟨_, ⟨hlt, rfl⟩, h⟩
    cases h; exact ⟨hlt, rfl⟩
  · rintro ⟨hlt, rfl⟩
    exact ⟨_, ⟨hlt, rfl⟩, rfl⟩

theorem setCode_eq_next {sym len : Nat} {bits : Bits} {s t : State} :
    setCode sym len bits s = .next t ↔
      sym < 257 ∧ t = { s with
        codeLen := s.codeLen.setIfInBounds sym (some len)
        codeBits := s.codeBits.setIfInBounds sym (some bits) } := by
  simp only [setCode, chain_eq_next, putVec_eq_next]
  constructor
  · rintro ⟨_, ⟨hlt, rfl⟩, _, ⟨_, rfl⟩, h⟩
    cases h; exact ⟨hlt, rfl⟩
  · rintro ⟨hlt, rfl⟩
    exact ⟨_, ⟨hlt, rfl⟩, _, ⟨hlt, rfl⟩, rfl⟩

theorem codeLenAt_eq_next {s : State} {sym len : Nat} :
    codeLenAt s sym = .next len ↔ s.codeLen[sym]? = some (some len) := entry_eq_next

theorem codeBitsAt_eq_next {s : State} {sym len : Nat} {c : Bits} :
    codeBitsAt s sym len = .next c ↔
      ∃ bits, s.codeBits[sym]? = some (some bits) ∧ len ≤ bits.length ∧ c = bits.take len := by
  simp only [codeBitsAt, chain_eq_next, entry_eq_next]
  constructor
  · rintro ⟨bits, hb, h⟩
    split at h
    · cases h; exact ⟨bits, hb, ‹_›, rfl⟩
    · cases h
  · rintro ⟨bits, hb, hle, rfl⟩
    exact ⟨bits, hb, by simp [hle]⟩

/-- A prefix of PATH reads as the bits it holds (R142). -/
theorem pathBits_eq_next {s : State} {d : Nat} {bits : Bits} :
    pathBits s d = .next bits ↔ s.path.toList.take d = bits.map some := by
  have key : ∀ (l : List (Option Bit)) (bits : Bits), l.mapM id = some bits ↔ l = bits.map some := by
    intro l
    induction l with
    | nil => intro bits; cases bits <;> simp
    | cons x l ih =>
      intro bits
      rw [List.mapM_cons]
      cases x with
      | none => cases bits <;> simp
      | some b =>
        cases h : l.mapM id with
        | none =>
          cases bits with
          | nil => simp
          | cons c bits =>
            have := (ih bits).not.mp (by simp [h])
            simp [this]
        | some ys =>
          have hl := (ih ys).mp h
          have inj : ∀ us vs : Bits, us.map some = vs.map some ↔ us = vs :=
            fun us vs => List.map_inj_right (by simp)
          cases bits with
          | nil => simp
          | cons c bits => subst hl; simp [inj]
  unfold pathBits
  rw [← key]
  split
  · rename_i h; simp [h]
  · rename_i h; simp [h]

theorem setDstack_eq_next {i : Nat} {e : DEntry} {s t : State} :
    setDstack i e s = .next t ↔ i < s.dstack.length ∧ t = { s with dstack := s.dstack.set i (some e) } := by
  simp only [setDstack, chain_eq_next, putList_eq_next]
  constructor
  · rintro ⟨_, ⟨hlt, rfl⟩, h⟩
    cases h; exact ⟨hlt, rfl⟩
  · rintro ⟨hlt, rfl⟩
    exact ⟨_, ⟨hlt, rfl⟩, rfl⟩

/-- A record that can be read can be written. -/
theorem lt_of_getElem?_some {α : Type} {l : List α} {i : Nat} {a : α} (h : l[i]? = some a) : i < l.length :=
  (List.getElem?_eq_some_iff.mp h).1

theorem dpush_eq_next {e : DEntry} {s t : State} :
    dpush e s = .next t ↔
      ∃ n, s.dsp = some n ∧ n < s.dstack.length ∧
        t = { s with dstack := s.dstack.set n (some e), dsp := some (n + 1) } := by
  simp only [dpush, chain_eq_next, need_eq_next, setDstack_eq_next]
  constructor
  · rintro ⟨n, hn, _, ⟨hlt, rfl⟩, h⟩
    cases h; exact ⟨n, hn, hlt, rfl⟩
  · rintro ⟨n, hn, hlt, rfl⟩
    exact ⟨n, hn, _, ⟨hlt, rfl⟩, rfl⟩

/-! ## The header reader -/

/-- The three ways of attaching a record (R156). -/
theorem attach_eq_next {i : Nat} {s t : State} :
    attach i s = .next t ↔
      (s.dsp = some 0 ∧ t = s) ∨
      (∃ k p, s.dsp = some (k + 1) ∧ s.dstack[k]? = some (some { node := p, stage := true }) ∧ p < s.dnode.length ∧
        t = { s with dnode := s.dnode.modify p (DNode.withRight i), dsp := some k }) ∨
      (∃ k p, s.dsp = some (k + 1) ∧ s.dstack[k]? = some (some { node := p, stage := false }) ∧ p < s.dnode.length ∧
        t = { s with
          dnode := s.dnode.modify p (DNode.withLeft i)
          dstack := s.dstack.set k (some { node := p, stage := true }) }) := by
  simp only [attach, chain_eq_next, need_eq_next]
  constructor
  · rintro ⟨n, hn, h⟩
    cases n with
    | zero => cases h; exact .inl ⟨hn, rfl⟩
    | succ k =>
      simp only [chain_eq_next, dstackAt_eq_next] at h
      obtain ⟨⟨p, stage⟩, hp, h⟩ := h
      cases stage with
      | true =>
        simp only [if_true, chain_eq_next, writeDnode_eq_next] at h
        obtain ⟨_, ⟨hlt, rfl⟩, h⟩ := h
        cases h; exact .inr (.inl ⟨k, p, hn, hp, hlt, rfl⟩)
      | false =>
        simp only [Bool.false_eq_true, if_false, chain_eq_next, writeDnode_eq_next, setDstack_eq_next] at h
        obtain ⟨_, ⟨hlt, rfl⟩, _, rfl⟩ := h
        exact .inr (.inr ⟨k, p, hn, hp, hlt, rfl⟩)
  · rintro (⟨h, rfl⟩ | ⟨k, p, hn, hp, hlt, rfl⟩ | ⟨k, p, hn, hp, hlt, rfl⟩)
    · exact ⟨0, h, rfl⟩
    · refine ⟨k + 1, hn, chain_eq_next.mpr ⟨_, dstackAt_eq_next.mpr hp, ?_⟩⟩
      exact chain_eq_next.mpr ⟨_, writeDnode_eq_next.mpr ⟨hlt, rfl⟩, rfl⟩
    · refine ⟨k + 1, hn, chain_eq_next.mpr ⟨_, dstackAt_eq_next.mpr hp, ?_⟩⟩
      exact chain_eq_next.mpr ⟨_, writeDnode_eq_next.mpr ⟨hlt, rfl⟩,
        setDstack_eq_next.mpr ⟨lt_of_getElem?_some hp, rfl⟩⟩

theorem headerEnd_eq_next {s t : State} :
    headerEnd s = .next t ↔
      (s.dsp = some 0 ∧ t = { s with cur := some 0, phase := .dDec }) ∨
      (∃ n, s.dsp = some (n + 1) ∧ t = { s with phase := .dHdr }) := by
  simp only [headerEnd, chain_eq_next, need_eq_next]
  constructor
  · rintro ⟨n, hn, h⟩
    cases n with
    | zero => cases h; exact .inl ⟨hn, rfl⟩
    | succ n => cases h; exact .inr ⟨n, hn, rfl⟩
  · rintro (⟨h, rfl⟩ | ⟨n, h, rfl⟩)
    · exact ⟨0, h, rfl⟩
    · exact ⟨n + 1, h, rfl⟩

theorem addLeaf_eq_next {sym : Symbol} {s t : State} :
    addLeaf sym s = .next t ↔
      ∃ i a, s.dnext = some i ∧ attach i { s with dnext := some (i + 1) } = .next a ∧ i < a.dnode.length ∧
        headerEnd { a with dnode := a.dnode.modify i fun _ => DNode.ofLeaf sym } = .next t := by
  simp only [addLeaf, allocate, chain_eq_next, need_eq_next, writeDnode_eq_next]
  constructor
  · rintro ⟨i, hi, a, ha, _, ⟨hlt, rfl⟩, h⟩; exact ⟨i, a, hi, ha, hlt, h⟩
  · rintro ⟨i, a, hi, ha, hlt, h⟩; exact ⟨i, hi, a, ha, _, ⟨hlt, rfl⟩, h⟩

theorem addInternal_eq_next {s t : State} :
    addInternal s = .next t ↔
      ∃ i a n, s.dnext = some i ∧ attach i { s with dnext := some (i + 1) } = .next a ∧ i < a.dnode.length ∧
        a.dsp = some n ∧ n < a.dstack.length ∧
        t = { a with
          dnode := a.dnode.modify i DNode.asInternal
          dstack := a.dstack.set n (some { node := i, stage := false })
          dsp := some (n + 1)
          phase := .dHdr } := by
  simp only [addInternal, allocate, chain_eq_next, need_eq_next, writeDnode_eq_next, dpush_eq_next, headerEnd_eq_next]
  constructor
  · rintro ⟨i, hi, a, ha, _, ⟨hlt, rfl⟩, _, ⟨n, hn, hlt', rfl⟩, h⟩
    rcases h with ⟨h, -⟩ | ⟨m, h, rfl⟩
    · simp at h
    · exact ⟨i, a, n, hi, ha, hlt, hn, hlt', rfl⟩
  · rintro ⟨i, a, n, hi, ha, hlt, hn, hlt', rfl⟩
    exact ⟨i, hi, a, ha, _, ⟨hlt, rfl⟩, _, ⟨n, hn, hlt', rfl⟩, .inr ⟨n, rfl, rfl⟩⟩

/-! ## The TreeBuilder's collection -/

theorem mem_onesFrom {bs : List Bool} {k i : Nat} : i ∈ onesFrom k bs ↔ k ≤ i ∧ bs[i - k]? = some true := by
  induction bs generalizing k with
  | nil => simp [onesFrom]
  | cons b bs ih =>
    have hstep : (k + 1 ≤ i ∧ bs[i - (k + 1)]? = some true) ↔ (k ≤ i ∧ i ≠ k ∧ (b :: bs)[i - k]? = some true) := by
      constructor
      · rintro ⟨h, hb⟩
        refine ⟨by omega, by omega, ?_⟩
        rw [show i - k = i - (k + 1) + 1 by omega, List.getElem?_cons_succ]; exact hb
      · rintro ⟨h, hne, hb⟩
        refine ⟨by omega, ?_⟩
        rwa [show i - k = i - (k + 1) + 1 by omega, List.getElem?_cons_succ] at hb
    cases b with
    | true =>
      simp only [onesFrom, if_true, List.mem_cons, ih, hstep]
      by_cases hik : i = k
      · simp [hik]
      · simp [hik]
    | false =>
      simp only [onesFrom, Bool.false_eq_true, if_false, ih, hstep]
      by_cases hik : i = k
      · simp [hik]
      · simp [hik]

theorem mem_activeIndices {a : Vector Bool 513} {i : Nat} : i ∈ activeIndices a ↔ a[i]? = some true := by
  rw [activeIndices, mem_onesFrom]; simp

theorem sorted_onesFrom (k : Nat) (bs : List Bool) : (onesFrom k bs).Pairwise (· < ·) := by
  induction bs generalizing k with
  | nil => exact List.Pairwise.nil
  | cons b bs ih =>
    cases b with
    | true =>
      refine List.Pairwise.cons (fun i hi => ?_) (ih _)
      have := (mem_onesFrom.mp hi).1
      omega
    | false => exact ih _

theorem nodup_activeIndices (a : Vector Bool 513) : (activeIndices a).Nodup :=
  (sorted_onesFrom 0 a.toList).imp fun h => Nat.ne_of_lt h

/-- The key order is a strict total order (R131: "the order is total and strict"). -/
theorem keyLt_iff {p q : Nat × Nat} : keyLt p q = true ↔ p.1 < q.1 ∨ (p.1 = q.1 ∧ p.2 < q.2) := by
  simp [keyLt]

theorem keyLt_trans {p q r : Nat × Nat} (h : keyLt p q = true) (h' : keyLt q r = true) : keyLt p r = true := by
  rw [keyLt_iff] at *; omega

theorem keyLt_total {p q : Nat × Nat} (h : p.2 ≠ q.2) : keyLt p q = true ∨ keyLt q p = true := by
  simp only [keyLt_iff]; omega

/-- The fold finds a least key: a member, and no member is less. -/
theorem foldl_keyMin (k : Nat × Nat) (ks : List (Nat × Nat)) :
    ks.foldl keyMin k ∈ k :: ks ∧ ∀ q ∈ k :: ks, keyLt q (ks.foldl keyMin k) = false := by
  induction ks generalizing k with
  | nil => simp [keyLt]
  | cons x ks ih =>
    obtain ⟨hm, hl⟩ := ih (keyMin k x)
    have hk : keyMin k x = k ∨ keyMin k x = x := by unfold keyMin; split <;> simp
    refine ⟨?_, fun q hq => ?_⟩
    · rw [List.foldl_cons]
      rcases List.mem_cons.mp hm with h | h
      · rw [h]; rcases hk with h' | h' <;> rw [h'] <;> simp
      · exact List.mem_cons_of_mem _ (List.mem_cons_of_mem _ h)
    · rw [List.foldl_cons]
      have hle : ∀ p, (p = k ∨ p = x) → keyLt p (keyMin k x) = false := by
        intro p hp
        unfold keyMin
        rw [Bool.eq_false_iff, ne_eq, keyLt_iff]
        split
        · rename_i h; rw [keyLt_iff] at h; rcases hp with rfl | rfl <;> omega
        · rename_i h; rw [keyLt_iff] at h; rcases hp with rfl | rfl <;> omega
      have hmin := hl _ List.mem_cons_self
      have step : ∀ p, keyLt p (keyMin k x) = false → keyLt p (ks.foldl keyMin (keyMin k x)) = false := by
        intro p hp
        rw [Bool.eq_false_iff, ne_eq, keyLt_iff] at *
        omega
      rcases List.mem_cons.mp hq with rfl | hq
      · exact step _ (hle _ (.inl rfl))
      · rcases List.mem_cons.mp hq with rfl | hq
        · exact step _ (hle _ (.inr rfl))
        · exact hl q (List.mem_cons_of_mem _ hq)

theorem keysOf_eq_next {s : State} {is : List Nat} {ks : List (Nat × Nat)} :
    keysOf s is = .next ks ↔ (∀ i ∈ is, ∃ n, s.node[i]? = some (some n)) ∧ ks = is.map (keyAt s) := by
  induction is generalizing ks with
  | nil => simp [keysOf, eq_comm]
  | cons i is ih =>
    simp only [keysOf, chain_eq_next, nodeAt_eq_next, ih, List.mem_cons, forall_eq_or_imp, List.map_cons,
      Host.Outcome.next.injEq]
    constructor
    · rintro ⟨n, hn, _, ⟨his, rfl⟩, rfl⟩
      exact ⟨⟨⟨n, hn⟩, his⟩, by simp [keyAt, weightAt, hn]⟩
    · rintro ⟨⟨⟨n, hn⟩, his⟩, rfl⟩
      exact ⟨n, hn, _, ⟨his, rfl⟩, by simp [keyAt, weightAt, hn]⟩

/-- argmin: it answers exactly when the collection is not empty and every member holds a value, and then with the member
of least key (R134). -/
theorem lightest_eq_next {s : State} {a : Vector Bool 513} {m : Nat} :
    lightest s a = .next m ↔
      (∀ i : Nat, a[i]? = some true → ∃ n, s.node[i]? = some (some n)) ∧ a[m]? = some true ∧
      ∀ i : Nat, a[i]? = some true → i ≠ m → keyLt (keyAt s m) (keyAt s i) = true := by
  simp only [lightest, chain_eq_next, keysOf_eq_next, mem_activeIndices]
  have total : ∀ i j, i ≠ j → keyLt (keyAt s i) (keyAt s j) = false → keyLt (keyAt s j) (keyAt s i) = true := by
    intro i j hij h
    rcases keyLt_total (p := keyAt s i) (q := keyAt s j) hij with h' | h'
    · simp [h'] at h
    · exact h'
  constructor
  · intro h
    obtain ⟨ks, hks, h⟩ := h
    obtain ⟨hval, hks⟩ := hks
    rw [hks] at h
    refine ⟨hval, ?_⟩
    cases hk : (activeIndices a).map (keyAt s) with
    | nil => simp [hk] at h
    | cons k ks =>
      simp only [hk, Host.Outcome.next.injEq] at h
      obtain ⟨hm, hl⟩ := foldl_keyMin k ks
      rw [← hk, List.mem_map] at hm
      obtain ⟨j, hj, hjk⟩ := hm
      have hmj : m = j := by rw [← h, ← hjk]; rfl
      subst hmj
      refine ⟨mem_activeIndices.mp hj, fun i hi him => ?_⟩
      have := hl (keyAt s i) (by rw [← hk]; exact List.mem_map_of_mem (mem_activeIndices.mpr hi))
      rw [← hjk] at this
      exact total i m him this
  · intro hh
    obtain ⟨hval, hm, hmin⟩ := hh
    refine ⟨(activeIndices a).map (keyAt s), And.intro hval (Eq.refl _), ?_⟩
    cases hk : (activeIndices a).map (keyAt s) with
    | nil =>
      have := mem_activeIndices.mpr hm
      simp only [List.map_eq_nil_iff] at hk
      rw [hk] at this; cases this
    | cons k ks =>
      obtain ⟨hmem, hl⟩ := foldl_keyMin k ks
      rw [← hk, List.mem_map] at hmem
      obtain ⟨j, hj, hjk⟩ := hmem
      simp only [Host.Outcome.next.injEq]
      by_cases hjm : j = m
      · rw [← hjk, hjm]; rfl
      · have h1 := hmin j (mem_activeIndices.mp hj) hjm
        have h2 := hl (keyAt s m) (by rw [← hk]; exact List.mem_map_of_mem (mem_activeIndices.mpr hm))
        rw [← hjk, h1] at h2; cases h2

end Sys2Proof.Machine
end

