-- ==== Sys2Proof/Laws/PerInstr.lean ====
section
/-! SUPPORT. Laws/PerInstr.lean: statements made of every instruction as syntax, one lemma per constructor. CodeShape: the
word of an instruction has the shape of its format (Code.wellFormed), for every parameter value and operand. -/

namespace Sys2Proof.Laws

/-- The encoder's word has the shape of its format. -/
def CodeShape.Statement (i : Instr) : Prop := ∀ p : Params, (encode p i).wellFormed = true

theorem CodeShape.nop : CodeShape.Statement .nop := fun _ => rfl

theorem CodeShape.compress : CodeShape.Statement .compress := fun _ => rfl

theorem CodeShape.decompress : CodeShape.Statement .decompress := fun _ => rfl

theorem CodeShape.rsvd3 : CodeShape.Statement .rsvd3 := fun _ => rfl

theorem CodeShape.fcClear : CodeShape.Statement .fcClear := fun _ => rfl

theorem CodeShape.fcAcc (r : Byte) : CodeShape.Statement (.fcAcc r) := fun _ => rfl

theorem CodeShape.fcEnd : CodeShape.Statement .fcEnd := fun _ => rfl

theorem CodeShape.tbInit : CodeShape.Statement .tbInit := fun _ => rfl

theorem CodeShape.tbMerge : CodeShape.Statement .tbMerge := fun _ => rfl

theorem CodeShape.tbRoot : CodeShape.Statement .tbRoot := fun _ => rfl

theorem CodeShape.cgInit : CodeShape.Statement .cgInit := fun _ => rfl

theorem CodeShape.cgStep : CodeShape.Statement .cgStep := fun _ => rfl

theorem CodeShape.enMagic : CodeShape.Statement .enMagic := fun _ => rfl

theorem CodeShape.hsStart : CodeShape.Statement .hsStart := fun _ => rfl

theorem CodeShape.hsStep : CodeShape.Statement .hsStep := fun _ => rfl

theorem CodeShape.enRewind : CodeShape.Statement .enRewind := fun _ => rfl

theorem CodeShape.enSym (r : Byte) : CodeShape.Statement (.enSym r) := fun _ => rfl

theorem CodeShape.enTerm : CodeShape.Statement .enTerm := fun _ => rfl

theorem CodeShape.enClose : CodeShape.Statement .enClose := fun _ => rfl

theorem CodeShape.deMagic : CodeShape.Statement .deMagic := fun _ => rfl

theorem CodeShape.hdStart : CodeShape.Statement .hdStart := fun _ => rfl

theorem CodeShape.hdStep : CodeShape.Statement .hdStep := fun _ => rfl

theorem CodeShape.deStep : CodeShape.Statement .deStep := fun _ => rfl

theorem CodeShape.deClose : CodeShape.Statement .deClose := fun _ => rfl

theorem CodeShape.magic : CodeShape.Statement .magic := fun p => by simp [encode, Code.wellFormed]

theorem CodeShape.hdrInternal : CodeShape.Statement .hdrInternal := fun _ => rfl

theorem CodeShape.hdrLeaf (sym : Symbol) : CodeShape.Statement (.hdrLeaf sym) := fun p => by simp [encode, Code.wellFormed]

theorem CodeShape.brLeft : CodeShape.Statement .brLeft := fun _ => rfl

theorem CodeShape.brRight : CodeShape.Statement .brRight := fun _ => rfl

end Sys2Proof.Laws
end

