-- ==== Sys2Proof/Tests/Slice0.lean ====
section
/-! SUPPORT. Tests/Slice0.lean: the smoke tests of the checks, the decoding of words written out from the spec's tables, one
or two single steps per instruction with the results of the spec's own examples (Scenario A of R121 to R181 and of
95_test_vectors.md, and the rules' corner cases), and for every statement with hypotheses a witness: a state and operands
that meet them. -/

namespace Sys2Proof.Tests

open Sys2Proof Sys2Proof.Machine

/-! ## Helpers -/

/-- A part of the state a step ends in. -/
def after {α : Type} (r : Res State) (f : State → α) : Option α :=
  match r with
  | .next s => some (f s)
  | .fault _ => none
  | .refused _ => none

/-- The reason of a refusal. -/
def refusal (r : Res State) : Option Refusal :=
  match r with
  | .next _ => none
  | .fault _ => none
  | .refused e => some e

theorem exists_next {α : Type} {r : Res State} (f : State → α) (a : α) (h : after r f = some a) :
    ∃ t, r = .next t ∧ f t = a := by
  cases r with
  | next s => exact ⟨s, rfl, Option.some.inj h⟩
  | fault _ => cases h
  | refused _ => cases h

/-- A core that is BUSY in the phase given, everything else as after reset. -/
def busyIn (ph : Phase) : State := { State.reset with st := .busy, phase := ph }

theorem busyIn_inCommand (ph : Phase) : (busyIn ph).inCommand ph := ⟨rfl, rfl, rfl, rfl⟩

/-- The bytes of Scenario A, [41 41 41 42] (95_test_vectors.md). -/
def bytesA : List Byte := [0x41#8, 0x41#8, 0x41#8, 0x42#8]

/-- FREQ after FC_END in Scenario A (R123). -/
def freqA : Vector Nat 257 := tabulate 257 fun i => if i = 65 then 3 else if i = 66 ∨ i = 256 then 1 else 0

/-- NODE of Scenario A with both merges made (R133, R134). -/
def nodeA : Vector (Option Node) 513 := tabulate 513 fun i =>
  if i = 65 then some (.leaf 65#9 3)
  else if i = 66 then some (.leaf 66#9 1)
  else if i = 256 then some (.leaf 256#9 1)
  else if i = 257 then some (.internal 2 66 256)
  else if i = 258 then some (.internal 5 257 65)
  else none

/-- NODE after TB_INIT on the input [41 41]: leaves of weight 2 and 1 (R133). -/
def nodeHeavy : Vector (Option Node) 513 := tabulate 513 fun i =>
  if i = 65 then some (.leaf 65#9 2) else if i = 256 then some (.leaf 256#9 1) else none

/-- ACTIVE as a set of indices. -/
def members (is : List Nat) : Vector Bool 513 := tabulate 513 fun i => is.contains i

/-- A member of a set whose indices are known is one of them. -/
theorem mem_of_active {act : Vector Bool 513} {is : List Nat} (h : activeIndices act = is) {i : Nat}
    (hi : act[i]? = some true) : i ∈ is := h ▸ mem_activeIndices.mpr hi

/-- The tree of Scenario A. -/
def treeA : Tree := .internal 5 (.internal 2 (.leaf 66#9 1) (.leaf 256#9 1)) (.leaf 65#9 3)

/-- The codes of Scenario A (R142). -/
def codesA (x : Symbol) : Bits :=
  if x = 65#9 then [true] else if x = 66#9 then [false, false] else if x = 256#9 then [false, true] else []

/-- CODE_LEN of Scenario A. -/
def codeLenA : Vector (Option Nat) 257 := tabulate 257 fun i => some (codesA (BitVec.ofNat 9 i)).length

/-- CODE_BITS of Scenario A. -/
def codeBitsA : Vector (Option Bits) 257 := tabulate 257 fun i =>
  if (codesA (BitVec.ofNat 9 i)).isEmpty then none else some (codesA (BitVec.ofNat 9 i))

/-- DNODE with the records given first. -/
def records (ns : List DNode) : List DNode := ns ++ List.replicate (513 - ns.length) DNode.blank

/-- A leaf record of DNODE (R36). -/
def dleaf (sym : Symbol) : DNode := { leaf := some true, sym := some sym, left := none, right := none }

/-- An internal record of DNODE with the children attached so far (R36). -/
def dinternal (left right : Option Nat) : DNode := { leaf := some false, sym := none, left := left, right := right }

/-- DSTACK with the entries given first. -/
def entries (es : List DEntry) : List (Option DEntry) :=
  es.map some ++ List.replicate (513 - es.length) none

/-- STACK with the entries given first. -/
def stackOf (es : List StackEntry) : Vector (Option StackEntry) 257 := tabulate 257 fun i => es[i]?

/-- PATH with the bits given first. -/
def pathOf (bs : Bits) : Vector (Option Bit) 256 := tabulate 256 fun i => bs[i]?

/-- The rebuilt tree of Scenario A in DNODE (R156). -/
def dnodeA : List DNode :=
  records [dinternal (some 1) (some 4), dinternal (some 2) (some 3), dleaf 66#9, dleaf 256#9, dleaf 65#9]

/-! ## Well-formedness: each check refuses an ill-formed term -/

theorem test_params_default : Params.default.wellFormed = true := by decide

theorem test_params_weight_refused : { Params.default with weightW := 0 }.wellFormed = false := by decide

theorem test_params_capacity_refused : { Params.default with decNodeCap := 512 }.wellFormed = false := by decide

theorem test_params_unit_refused : { Params.default with mediumUnit := 0 }.wellFormed = false := by decide

theorem test_code_phase_refused :
    (Code.phase 0#5 .always).wellFormed = false ∧ (Code.phase 13#5 .always).wellFormed = false ∧
    (Code.phase 15#5 .always).wellFormed = false ∧ (Code.phase 21#5 .always).wellFormed = false ∧
    (Code.phase 20#5 .always).wellFormed = true := by decide

theorem test_code_condition_refused :
    (Code.phase 2#5 .always).wellFormed = false ∧ (Code.phase 4#5 .eos).wellFormed = false ∧
    (Code.phase 1#5 (.byte 0#8)).wellFormed = false ∧ (Code.phase 11#5 .many).wellFormed = false ∧
    (Code.phase 11#5 .eos).wellFormed = true := by decide

theorem test_code_stream_refused :
    (Code.stream .magic (List.replicate 31 true)).wellFormed = false ∧ (Code.stream .header []).wellFormed = false ∧
    (Code.stream .header [false, false]).wellFormed = false ∧
    (Code.stream .header (List.replicate 9 true)).wellFormed = false ∧
    (Code.stream .payload [true, true]).wellFormed = false ∧
    (Code.stream .header (List.replicate 10 true)).wellFormed = true := by decide

theorem test_reserved_encodings :
    Instr.rsvd3.reserved = true ∧ (Instr.hdrLeaf 257#9).reserved = true ∧ (Instr.hdrLeaf 511#9).reserved = true ∧
    (Instr.hdrLeaf 256#9).reserved = false ∧ Instr.nop.reserved = false := by decide

/-! ## Decoding: every constructor from a word written out from R101, R103 with R104, and R106 -/

theorem test_decode_commands :
    decode Params.default (.cmd 0b00#2) = .ok .nop ∧ decode Params.default (.cmd 0b01#2) = .ok .compress ∧
    decode Params.default (.cmd 0b10#2) = .ok .decompress ∧ decode Params.default (.cmd 0b11#2) = .ok .rsvd3 := by
  decide

theorem test_decode_frequencyCounter :
    decode Params.default (.phase 0b00001#5 .always) = .ok .fcClear ∧
    decode Params.default (.phase 0b00010#5 (.byte 0xFF#8)) = .ok (.fcAcc 0xFF#8) ∧
    decode Params.default (.phase 0b00010#5 .eos) = .ok .fcEnd := by decide

theorem test_decode_treeBuilder :
    decode Params.default (.phase 0b00011#5 .always) = .ok .tbInit ∧
    decode Params.default (.phase 0b00100#5 .many) = .ok .tbMerge ∧
    decode Params.default (.phase 0b00100#5 .one) = .ok .tbRoot := by decide

theorem test_decode_codeTableGenerator :
    decode Params.default (.phase 0b00101#5 .always) = .ok .cgInit ∧
    decode Params.default (.phase 0b00110#5 .always) = .ok .cgStep := by decide

theorem test_decode_streamEncoder :
    decode Params.default (.phase 0b00111#5 .always) = .ok .enMagic ∧
    decode Params.default (.phase 0b01010#5 .always) = .ok .enRewind ∧
    decode Params.default (.phase 0b01011#5 (.byte 0x41#8)) = .ok (.enSym 0x41#8) ∧
    decode Params.default (.phase 0b01011#5 .eos) = .ok .enTerm ∧
    decode Params.default (.phase 0b01100#5 .always) = .ok .enClose := by decide

theorem test_decode_headerCodec :
    decode Params.default (.phase 0b01000#5 .always) = .ok .hsStart ∧
    decode Params.default (.phase 0b01001#5 .always) = .ok .hsStep ∧
    decode Params.default (.phase 0b10001#5 .always) = .ok .hdStart ∧
    decode Params.default (.phase 0b10010#5 .always) = .ok .hdStep := by decide

theorem test_decode_streamDecoder :
    decode Params.default (.phase 0b10000#5 .always) = .ok .deMagic ∧
    decode Params.default (.phase 0b10011#5 .always) = .ok .deStep ∧
    decode Params.default (.phase 0b10100#5 .always) = .ok .deClose := by decide

/-- The header of Scenario A, record by record, and a leaf with a reserved symbol (R92, R98 c, R106). -/
theorem test_decode_headerTokens :
    decode Params.default (.stream .header [false]) = .ok .hdrInternal ∧
    decode Params.default (.stream .header [true, false, false, true, false, false, false, false, true, false]) =
      .ok (.hdrLeaf 66#9) ∧
    decode Params.default (.stream .header [true, true, false, false, false, false, false, false, false, false]) =
      .ok (.hdrLeaf 256#9) ∧
    decode Params.default (.stream .header [true, true, true, true, true, true, true, true, true, true]) =
      .ok (.hdrLeaf 511#9) ∧
    decode Params.default (.stream .header [false, true]) = .reject .trailingBits := by decide

theorem test_decode_payloadTokens :
    decode Params.default (.stream .payload [false]) = .ok .brLeft ∧
    decode Params.default (.stream .payload [true]) = .ok .brRight ∧
    decode Params.default (.stream .payload []) = .reject .incomplete := by decide

/-- MAGIC is bin_32(0xFACE8201) (R91): a word with the last bit changed is no token. -/
theorem test_decode_magicToken :
    decode Params.default (.stream .magic
      [true, true, true, true, true, false, true, false, true, true, false, false, true, true, true, false,
       true, false, false, false, false, false, true, false, false, false, false, false, false, false, false, true]) =
      .ok .magic ∧
    decode Params.default (.stream .magic
      [true, true, true, true, true, false, true, false, true, true, false, false, true, true, true, false,
       true, false, false, false, false, false, true, false, false, false, false, false, false, false, false, false]) =
      .reject .notMagic := by decide

/-- Opcode-table numbers, and the first step after reset with one placed. -/
theorem test_table_words :
    decodeTableWord 8 1 = some .compress ∧ decodeTableWord 8 9 = some .hsStep ∧ decodeTableWord 8 13 = none ∧
    decodeTableWord 16 0x341 = some (.hdrLeaf 0x141#9) ∧ decodeTableWord 32 0xFACE8201 = some .magic := by decide

theorem test_step_runs_placed_words :
    after (step (State.reset.withFetchWord 8 2)) (fun s => (s.st, s.phase)) = some (.busy, .dMagic) ∧
    after (step (State.reset.withFetchWord 32 0xFACE8201)) (fun s => (s.rp, s.phase)) = some (32, .dHdinit) := by
  decide +kernel

/-! ## Single steps -/

/-- R193: "ST = ERROR, ERR = MALFORMED, NOP: still ST = ERROR, ERR = MALFORMED"; R194 likewise. -/
theorem test_nop_keeps_status :
    after (exec .nop { State.reset with st := .error, err := .malformed }) (fun s => (s.st, s.err)) =
      some (.error, .malformed) ∧
    after (exec .rsvd3 { State.reset with st := .error, err := .malformed }) (fun s => (s.st, s.err)) =
      some (.error, .malformed) := by decide +kernel

/-- R190, R191: acceptance clears ERR. -/
theorem test_compress_clears_error :
    after (exec .compress { State.reset with st := .error, err := .capacity }) (fun s => (s.st, s.err, s.phase)) =
      some (.busy, .none, .cClear) := by decide +kernel

/-- R190, R192. -/
theorem test_decompress_starts :
    after (exec .decompress State.reset) (fun s => (s.st, s.err, s.phase)) = some (.busy, .none, .dMagic) := by
  decide +kernel

/-- R25: BUSY (1), NONE (0), PHASE = D_DEC (19): 19 * 32 + 1; and ERROR (3) with SYMRANGE (4): 4 * 4 + 3. -/
theorem test_status_word :
    (busyIn .dDec).statusWord = 609#32 ∧
    { State.reset with st := .error, err := .symRange }.statusWord = 19#32 := by decide +kernel

/-- U15 and R256. -/
theorem test_reset_while_busy_refused :
    refusal (step { busyIn .cCount with rst := true }) = some .resetWhileBusy := by decide +kernel

/-- R121: FREQ[0x41] = 0 and FREQ[256] = 1, whatever FREQ held. -/
theorem test_fcClear :
    after (exec .fcClear { busyIn .cClear with freq := some freqA })
      (fun s => (s.freq.bind (·[0x41]?), s.freq.bind (·[256]?), s.phase)) = some (some 0, some 1, .cCount) := by
  decide +kernel

/-- R122: "The byte value 0x00 and the byte value 0xFF are ordinary". -/
theorem test_fcAcc_last_byte :
    after (exec (.fcAcc 0xFF#8) { busyIn .cCount with freq := some freqA })
      (fun s => (s.freq.bind (·[255]?), s.freq.bind (·[256]?), s.freq.bind (·[0]?))) =
      some (some 1, some 1, some 0) := by decide +kernel

/-- R122, U8: with WEIGHT_W = 2 the longest input has 2 bytes, so the third is refused. -/
theorem test_fcAcc_refused :
    refusal (exec (.fcAcc 0x41#8)
      { busyIn .cCount with par := { Params.default with weightW := 2 }, freq := some (freqTable [0#8, 0#8]) }) =
      some .inputTooLong := by decide +kernel

/-- R123. -/
theorem test_fcEnd :
    after (exec .fcEnd { busyIn .cCount with freq := some freqA }) (fun s => (s.phase, s.freq.bind (·[65]?))) =
      some (.cTbinit, some 3) := by decide +kernel

/-- R133, Scenario A. -/
theorem test_tbInit :
    after (exec .tbInit { busyIn .cTbinit with freq := some freqA })
      (fun s => (s.node[65]?, s.node[0]?, s.active.map activeIndices, s.nextIdx)) =
      some (some (some (.leaf 65#9 3)), some none, some [65, 66, 256], some 257) := by decide +kernel

/-- R134, Scenario A, first merge: the tie of 66 and 256 goes to the smaller index. -/
theorem test_tbMerge_tie :
    after (exec .tbMerge
      { busyIn .cMerge with node := nodeA, active := some (members [65, 66, 256]), nextIdx := some 257 })
      (fun s => (s.node[257]?, s.active.map activeIndices, s.nextIdx)) =
      some (some (some (.internal 2 66 256)), some [65, 257], some 258) := by decide +kernel

/-- R134, Scenario A, second merge: the lighter internal node is `left` although its index is larger. -/
theorem test_tbMerge_left_is_lighter :
    after (exec .tbMerge { busyIn .cMerge with node := nodeA, active := some (members [65, 257]), nextIdx := some 258 })
      (fun s => (s.node[258]?, s.active.map activeIndices, s.nextIdx)) =
      some (some (some (.internal 5 257 65)), some [258], some 259) := by decide +kernel

/-- R135, Scenario A. -/
theorem test_tbRoot :
    after (exec .tbRoot { busyIn .cMerge with active := some (members [258]) }) (fun s => (s.root, s.phase)) =
      some (some 258, .cCginit) := by decide +kernel

/-- R141, Scenario A: STACK = [(65, 1, 1), (257, 1, 0)], top last. -/
theorem test_cgInit :
    after (exec .cgInit { busyIn .cCginit with node := nodeA, root := some 258 })
      (fun s => (s.stack[0]?, s.stack[1]?, s.sp, s.codeLen[65]?.join, s.phase)) =
      some (some (some { node := 65, depth := some 1, bit := some true }),
        some (some { node := 257, depth := some 1, bit := some false }), some 2, some 0, .cCgen) := by decide +kernel

/-- R141, R143: the degenerate tree. -/
theorem test_cgInit_degenerate :
    after (exec .cgInit { busyIn .cCginit with node := nodeA, root := some 256 })
      (fun s => (s.codeLen[256]?, s.codeBits[256]?, s.sp, s.phase)) =
      some (some (some 1), some (some [false]), some 0, .cMagic) := by decide +kernel

/-- R142, Scenario A: popping (256, 2, 1) gives code(256) = `01`. -/
theorem test_cgStep_leaf :
    after (exec .cgStep { busyIn .cCgen with
        node := nodeA, codeLen := Vector.replicate 257 (some 0), sp := some 2, path := pathOf [false, false]
        stack := stackOf [{ node := 65, depth := some 1, bit := some true },
          { node := 256, depth := some 2, bit := some true }] })
      (fun s => (s.codeLen[256]?, s.codeBits[256]?, s.sp, s.phase)) =
      some (some (some 2), some (some [false, true]), some 1, .cCgen) := by decide +kernel

/-- R142, Scenario A: popping (257, 1, 0) pushes (256, 2, 1) and (66, 2, 0). -/
theorem test_cgStep_internal :
    after (exec .cgStep { busyIn .cCgen with
        node := nodeA, codeLen := Vector.replicate 257 (some 0), sp := some 2
        stack := stackOf [{ node := 65, depth := some 1, bit := some true },
          { node := 257, depth := some 1, bit := some false }] })
      (fun s => (s.stack[1]?, s.stack[2]?, s.sp, s.path[0]?)) =
      some (some (some { node := 256, depth := some 2, bit := some true }),
        some (some { node := 66, depth := some 2, bit := some false }), some 3, some (some false)) := by decide +kernel

/-- R40, R41, R132: TB_ROOT's step finds no FREQ and leaves NEXT at 257 + (L - 1); EN_MAGIC's finds no stack and keeps the tree
for the header; DE_STEP's finds no DNEXT (95_test_vectors.md V2 lists DNEXT = 5 only in the state the last HD_STEP leaves). -/
theorem test_lifetimes_end :
    after (step { busyIn .cMerge with
        freq := some freqA, node := nodeA, active := some (members [258]), nextIdx := some 259 })
      (fun s => (s.freq, s.nextIdx, s.root)) = some (none, some 259, some 258) ∧
    after (step { busyIn .cMagic with active := some (members [258]), nextIdx := some 259, sp := some 0, root := some 258 })
      (fun s => (s.active, s.nextIdx, s.sp, s.root)) = some (none, none, none, some 258) ∧
    after (step { busyIn .dDec with inBits := [false], dnode := dnodeA, dnext := some 5, dsp := some 0, cur := some 0 })
      (fun s => (s.dnext, s.dsp, s.cur)) = some (none, none, some 1) := by decide +kernel

/-- R166: OUT = `11111010110011101000001000000001`. -/
theorem test_enMagic :
    after (exec .enMagic (busyIn .cMagic)) (fun s => (s.outBits, s.phase)) =
      some ([true, true, true, true, true, false, true, false, true, true, false, false, true, true, true, false,
        true, false, false, false, false, false, true, false, false, false, false, false, false, false, false, true],
        .cHsinit) := by decide +kernel

/-- R151, Scenario A. -/
theorem test_hsStart :
    after (exec .hsStart { busyIn .cHsinit with root := some 258, sp := some 7 })
      (fun s => (s.stack[0]?.join.map (·.node), s.sp, s.phase)) = some (some 258, some 1, .cHdr) := by decide +kernel

/-- R152, Scenario A, step 3: node 66 gives the record `1001000010`. -/
theorem test_hsStep_leaf :
    after (exec .hsStep { busyIn .cHdr with
        node := nodeA, sp := some 1, stack := stackOf [{ node := 66, depth := none, bit := none }] })
      (fun s => (s.outBits, s.sp, s.phase)) =
      some ([true, false, false, true, false, false, false, false, true, false], some 0, .cRewind) := by decide +kernel

/-- R152, Scenario A, step 1: node 258 gives `0`, 65 is pushed, then 257. -/
theorem test_hsStep_internal :
    after (exec .hsStep { busyIn .cHdr with
        node := nodeA, sp := some 1, stack := stackOf [{ node := 258, depth := none, bit := none }] })
      (fun s => (s.outBits, s.stack[0]?.join.map (·.node), s.stack[1]?.join.map (·.node), s.sp, s.phase)) =
      some ([false], some 65, some 257, some 2, .cHdr) := by decide +kernel

/-- R167. -/
theorem test_enRewind :
    after (exec .enRewind { busyIn .cRewind with inBits := bytesToBits bytesA, rp := 32 })
      (fun s => (s.rp, s.trace, s.phase)) = some (0, [.rewind], .cEnc) := by decide +kernel

/-- R168, Scenario A: 0x42 appends `00`, both zeros kept. -/
theorem test_enSym_leading_zeros :
    after (exec (.enSym 0x42#8) { busyIn .cEnc with codeLen := codeLenA, codeBits := codeBitsA, outBits := [true] })
      (fun s => (s.outBits, s.phase)) = some ([true, false, false], .cEnc) := by decide +kernel

/-- R168, R215: a byte without a code. -/
theorem test_enSym_noCode :
    after (exec (.enSym 0x43#8) { busyIn .cEnc with codeLen := codeLenA, codeBits := codeBitsA, outBits := [true] })
      (fun s => (s.st, s.err, s.closed, s.outBits)) = some (.error, .noCode, true, [true]) := by decide +kernel

/-- R169, Scenario A: appends `01`. -/
theorem test_enTerm :
    after (exec .enTerm { busyIn .cEnc with codeLen := codeLenA, codeBits := codeBitsA })
      (fun s => (s.outBits, s.phase)) = some ([false, true], .cClose) := by decide +kernel

/-- R170, R181. -/
theorem test_close_operations :
    after (exec .enClose { busyIn .cClose with freq := some freqA }) (fun s => (s.st, s.phase, s.closed, s.freq)) =
      some (.done, .pIdle, true, none) ∧
    after (exec .deClose { busyIn .dClose with cur := some 3 }) (fun s => (s.st, s.phase, s.closed, s.cur)) =
      some (.done, .pIdle, true, none) := by decide +kernel

/-- R176: an input of 31 bits is a FormatError with rp unchanged; so is the word 0xFACE8200, with rp = 32. -/
theorem test_deMagic_errors :
    after (exec .deMagic { busyIn .dMagic with inBits := bin 31 0x7D674100 }) (fun s => (s.err, s.rp, s.outBits)) =
      some (.format, 0, []) ∧
    after (exec .deMagic { busyIn .dMagic with inBits := bin 32 0xFACE8200 }) (fun s => (s.err, s.rp, s.outBits)) =
      some (.format, 32, []) := by decide +kernel

/-- R177. -/
theorem test_magic_token :
    after (exec .magic { busyIn .dMagic with inBits := bin 32 0xFACE8201 }) (fun s => (s.rp, s.phase)) =
      some (32, .dHdinit) := by decide +kernel

/-- R155. -/
theorem test_hdStart :
    after (exec .hdStart (busyIn .dHdinit)) (fun s => (s.dnext, s.dsp, s.phase)) = some (some 0, some 0, .dHdr) := by
  decide +kernel

/-- R156, Scenario A, step 2: `0` makes DNODE[1] internal and the left child of DNODE[0]. -/
theorem test_hdStep_internal :
    after (exec .hdStep { busyIn .dHdr with
        inBits := [false], dnode := records [dinternal none none], dnext := some 1
        dstack := entries [{ node := 0, stage := false }], dsp := some 1 })
      (fun s => (s.dnode.take 3, s.dstack.take 3, s.dsp, s.phase)) =
      some ([dinternal (some 1) none, dinternal none none, DNode.blank],
        [some { node := 0, stage := true }, some { node := 1, stage := false }, none], some 2, .dHdr) := by
  decide +kernel

/-- R156, Scenario A, step 5: the leaf 65 is the right child of DNODE[0], the header is complete, CUR = 0. -/
theorem test_hdStep_last_leaf :
    after (exec .hdStep { busyIn .dHdr with
        inBits := [true, false, false, true, false, false, false, false, false, true]
        dnode := records [dinternal (some 1) none, dinternal (some 2) (some 3), dleaf 66#9, dleaf 256#9]
        dnext := some 4, dstack := entries [{ node := 0, stage := true }], dsp := some 1 })
      (fun s => (s.dnode, s.dsp, s.cur, s.phase)) = some (dnodeA, some 0, some 0, .dDec) := by decide +kernel

/-- R157: "a header that begins with DEC_NODE_CAP `0` bits fills the store ... and the next record raises CapacityError". -/
theorem test_hdrInternal_capacity :
    after (exec .hdrInternal { busyIn .dHdr with inBits := [false], dnext := some 513 }) (fun s => (s.err, s.rp)) =
      some (.capacity, 1) := by decide +kernel

/-- R158: a lone leaf completes the header; a reserved symbol is stored as read. -/
theorem test_hdrLeaf_alone :
    after (exec (.hdrLeaf 257#9) { busyIn .dHdr with inBits := true :: bin 9 257, dnext := some 0, dsp := some 0 })
      (fun s => (s.dnode[0]?, s.cur, s.phase)) = some (some (dleaf 257#9), some 0, .dDec) := by decide +kernel

/-- R178, Scenario A: `1` at the root writes 0x41 and CUR returns to 0. -/
theorem test_deStep_byte :
    after (exec .deStep { busyIn .dDec with inBits := [true], dnode := dnodeA, cur := some 0 })
      (fun s => (s.outBits, s.cur, s.phase)) =
      some ([false, true, false, false, false, false, false, true], some 0, .dDec) := by decide +kernel

/-- R178, R214: a leaf above 256 is SymbolRangeError, the bit consumed. -/
theorem test_deStep_reserved :
    after (exec .deStep { busyIn .dDec with
        inBits := [true], dnode := records [dinternal (some 1) (some 2), dleaf 256#9, dleaf 257#9], cur := some 0 })
      (fun s => (s.st, s.err, s.rp, s.outBits)) = some (.error, .symRange, 1, []) := by decide +kernel

/-- R179: "at the root of Scenario A's tree, `0` moves to DNODE[1], an internal node; nothing is written". -/
theorem test_brLeft :
    after (exec .brLeft { busyIn .dDec with inBits := [false], dnode := dnodeA, cur := some 0 })
      (fun s => (s.outBits, s.cur, s.phase)) = some ([], some 1, .dDec) := by decide +kernel

/-- R180, with R178: from DNODE[1] `1` moves to the terminator leaf. -/
theorem test_brRight_terminator :
    after (exec .brRight { busyIn .dDec with inBits := [true], dnode := dnodeA, cur := some 1 })
      (fun s => (s.outBits, s.cur, s.phase)) = some ([], some 3, .dClose) := by decide +kernel

/-- R182: a payload bit `1` under the degenerate tree is accepted just as `0` is. -/
theorem test_deStep_degenerate :
    after (exec .deStep { busyIn .dDec with inBits := [true], dnode := records [dleaf 256#9], cur := some 0 })
      (fun s => (s.phase, s.rp)) = some (.dClose, 1) := by decide +kernel

/-- R81: with IN = bytes [41 42], the reads return 0x41, then 0x42, then EOS with rp = 16; and a write of 9 bits. -/
theorem test_transactions :
    (bitRead 8 { State.reset with inBits := bytesToBits [0x41#8, 0x42#8], rp := 8 }).1 = some 0x42#8 ∧
    (bitRead 8 { State.reset with inBits := bytesToBits [0x41#8, 0x42#8], rp := 16 }).1 = none ∧
    (bitRead 8 { State.reset with inBits := bytesToBits [0x41#8, 0x42#8], rp := 16 }).2.rp = 16 ∧
    after (memWrite 9 256 { State.reset with outBits := [true] }) (·.outBits) =
      some [true, true, false, false, false, false, false, false, false, false] := by decide +kernel

/-- The tree of Scenario A (R134) and its header (R152) and codes (R142), as functions. -/
theorem test_reference_scenarioA :
    build freqA = some (258, treeA) ∧
    ser treeA = [false, false, true, false, false, true, false, false, false, false, true, false,
      true, true, false, false, false, false, false, false, false, false,
      true, false, false, true, false, false, false, false, false, true] ∧
    codes treeA = [(66#9, [false, false]), (256#9, [false, true]), (65#9, [true])] ∧
    payload treeA bytesA = [true, true, true, false, false, false, true] := by decide +kernel

/-! ## Witnesses: for every statement with hypotheses, a state and operands that meet them -/

/-- ResetInputRestoresTheCore: reset asserted on an idle and on a BUSY core. -/
theorem witness_ResetInput :
    (State.reset.assertReset.rst = true ∧ State.reset.assertReset.st ≠ .busy) ∧
    ((busyIn .dDec).assertReset.rst = true ∧ (busyIn .dDec).assertReset.st = .busy) := by decide +kernel

/-- NopAndReservedChangeNothing: NOP and RSVD3 presented to a core in ERROR. -/
theorem witness_Nop :
    ∀ op ∈ [0#2, 3#2], ∃ s : State, s.rst = false ∧ s.st ≠ .busy ∧ s.cmdValid = true ∧ s.cmdOp = op ∧
      (s.cmdOp = 0#2 ∨ s.cmdOp = 3#2) := by
  intro op hop
  refine ⟨{ State.reset.present op with st := .error, err := .noCode }, rfl, fun h => RunState.noConfusion h, rfl, rfl, ?_⟩
  simpa [State.present] using hop

/-- AcceptanceStartsTheCommand: COMPRESS and DECOMPRESS presented; a BUSY core that steps. -/
theorem witness_Acceptance :
    (∀ op ∈ [1#2, 2#2], (State.reset.present op).st ≠ .busy ∧ (State.reset.present op).rst = false ∧
      (State.reset.present op).cmdValid = true ∧ (State.reset.present op).cmdOp = op) ∧
    ((busyIn .cClear).present 2#2).st = .busy ∧ (∃ t, step ((busyIn .cClear).present 2#2) = .next t ∧ t.cmdValid = true) :=
  ⟨by decide +kernel, rfl, exists_next (·.cmdValid) true (by decide +kernel)⟩

/-- BusyCoreIgnoresThePort, CoreWaits. -/
theorem witness_Waiting :
    (busyIn .cCount).st = .busy ∧
    (State.reset.rst = false ∧ State.reset.st ≠ .busy ∧ State.reset.cmdValid = false) ∧
    (((busyIn .cCount).setReady false).rst = false ∧ ((busyIn .cCount).setReady false).st = .busy ∧
      ((busyIn .cCount).setReady false).ioReady = false ∧
      issuesTransaction ((busyIn .cCount).setReady false).phase = true) := by decide +kernel

/-- StepRunsTheDecodedInstruction: a phase code, and a command. -/
theorem witness_StepRuns :
    (fetch (busyIn .cClear) = .next (.run (.phase 1#5 .always) (busyIn .cClear)) ∧
      decode (busyIn .cClear).par (.phase 1#5 .always) = .ok .fcClear) ∧
    (fetch (State.reset.present 1#2) = .next (.run (.cmd 1#2) { State.reset.present 1#2 with cmdValid := false }) ∧
      decode State.reset.par (.cmd 1#2) = .ok .compress) :=
  ⟨⟨rfl, rfl⟩, ⟨rfl, rfl⟩⟩

/-- UnitOperationSelection: every phase; the reads at the end of the input; two members at the ends of ACTIVE, and one. -/
theorem witness_Selection :
    (∀ ph : Phase, (busyIn ph).inCommand ph) ∧
    (({ busyIn .cCount with inBits := bytesToBits bytesA, rp := 24 }.inBits.drop 24).take 8 = bin 8 (0x42#8).toNat) ∧
    (bytesToBits bytesA).length < 25 + 8 ∧
    2 ≤ countActive (members [0, 512]) ∧ countActive (members [512]) = 1 :=
  ⟨busyIn_inCommand, by decide +kernel⟩

/-- BitReadReturnsTheNextBits: a read of exactly the last 8 bits, and one of a bit more. -/
theorem witness_BitRead :
    { State.reset with inBits := bytesToBits [0x41#8] }.rp + 8 ≤ (bytesToBits [0x41#8]).length ∧
    (bytesToBits [0x41#8]).length < { State.reset with inBits := bytesToBits [0x41#8] }.rp + 9 := by decide +kernel

/-- BitWriteAppendsTheLowBits: an open output, widths 1 and 256, codes of these lengths; a closed one. -/
theorem witness_BitWrite :
    State.reset.closed = false ∧ (1 ≤ 1 ∧ 1 ≤ 256) ∧ (1 ≤ 256 ∧ 256 ≤ 256) ∧ 1 ≤ [false].length ∧
    (List.replicate 256 true).length ≤ 256 ∧ (closeOut State.reset).closed = true := by decide +kernel

/-- FcAccCountsOneByte: with WEIGHT_W = 2 the second byte just fits, the third does not. -/
theorem witness_FcAcc :
    freqTotal (freqTable [0xFF#8]) + 1 < 2 ^ 2 ∧ 2 ^ 2 ≤ freqTotal (freqTable [0xFF#8, 0#8]) + 1 ∧
    { busyIn .cCount with par := { Params.default with weightW := 2 } }.par.weightW = 2 := by decide +kernel

/-- FirstPassCountsTheInput: an ordinary input, and the longest one (the empty one) for WEIGHT_W = 1. -/
theorem witness_FirstPass :
    (Params.default.wellFormed = true ∧ { busyIn .cClear with inBits := bytesToBits bytesA }.inCommand .cClear ∧
      { busyIn .cClear with inBits := bytesToBits bytesA }.rp = 0 ∧ bytesA.length ≤ Params.default.lenMax) ∧
    ({ Params.default with weightW := 1 }.wellFormed = true ∧
      { busyIn .cClear with par := { Params.default with weightW := 1 } }.inCommand .cClear ∧
      (busyIn .cClear).inBits = bytesToBits [] ∧ 0 ≤ { Params.default with weightW := 1 }.lenMax ∧
      { Params.default with weightW := 1 }.lenMax = 0) :=
  ⟨⟨by decide, ⟨rfl, rfl, rfl, rfl⟩, rfl, by decide +kernel⟩, ⟨by decide, ⟨rfl, rfl, rfl, rfl⟩, rfl, by decide, by decide⟩⟩

/-- TbInitMakesOneLeafPerSymbol: a symbol that occurs, the terminator, one that does not occur, the first and the last
internal record. -/
theorem witness_TbInit :
    { busyIn .cTbinit with freq := some freqA }.freq = some freqA ∧ freqA[65]? = some 3 ∧ freqA[256]? = some 1 ∧
    freqA[0]? = some 0 ∧ 257 ≤ 257 ∧ 512 < 513 :=
  ⟨rfl, by decide +kernel⟩

/-- TbMergeJoinsTheTwoLightest, in Scenario A's first merge; and on the input [41 41] with WEIGHT_W = 2, where twice the
heavier weight would not fit. -/
theorem witness_TbMerge :
    (let s := { busyIn .cMerge with node := nodeA, active := some (members [65, 66, 256]), nextIdx := some 257 };
      s.active = some (members [65, 66, 256]) ∧ 2 ≤ countActive (members [65, 66, 256]) ∧
      (∀ i, i < 513 → (members [65, 66, 256])[i]? = some true → s.node[i]? ≠ some none) ∧
      (∀ i, i < 513 → ∀ j, j < 513 → i ≠ j → (members [65, 66, 256])[i]? = some true →
        (members [65, 66, 256])[j]? = some true → weightAt s i + weightAt s j < 2 ^ s.par.weightW) ∧
      s.nextIdx = some 257 ∧ 257 < 513) ∧
    (let s := { busyIn .cMerge with
        par := { Params.default with weightW := 2 }, node := nodeHeavy, active := some (members [65, 256])
        nextIdx := some 257 };
      s.active = some (members [65, 256]) ∧ 2 ≤ countActive (members [65, 256]) ∧
      (∀ i, i < 513 → (members [65, 256])[i]? = some true → s.node[i]? ≠ some none) ∧
      (∀ i, i < 513 → ∀ j, j < 513 → i ≠ j → (members [65, 256])[i]? = some true →
        (members [65, 256])[j]? = some true → weightAt s i + weightAt s j < 2 ^ s.par.weightW) ∧
      weightAt s 65 + weightAt s 65 = 2 ^ s.par.weightW ∧ s.nextIdx = some 257) := by
  have ha : activeIndices (members [65, 66, 256]) = [65, 66, 256] := by decide +kernel
  have hn : ∀ i ∈ [65, 66, 256], nodeA[i]? ≠ some none := by decide +kernel
  have hw : ∀ i ∈ [65, 66, 256], ∀ j ∈ [65, 66, 256], i ≠ j →
      weightAt { State.reset with node := nodeA } i + weightAt { State.reset with node := nodeA } j < 2 ^ 64 := by
    decide +kernel
  have hb : activeIndices (members [65, 256]) = [65, 256] := by decide +kernel
  have hm : ∀ i ∈ [65, 256], nodeHeavy[i]? ≠ some none := by decide +kernel
  have hv : ∀ i ∈ [65, 256], ∀ j ∈ [65, 256], i ≠ j →
      weightAt { State.reset with node := nodeHeavy } i + weightAt { State.reset with node := nodeHeavy } j < 2 ^ 2 := by
    decide +kernel
  exact ⟨⟨rfl, by decide +kernel, fun i _ hi => hn i (mem_of_active ha hi),
      fun i _ j _ hij hi hj => hw i (mem_of_active ha hi) j (mem_of_active ha hj) hij, rfl, by decide⟩,
    ⟨rfl, by decide +kernel, fun i _ hi => hm i (mem_of_active hb hi),
      fun i _ j _ hij hi hj => hv i (mem_of_active hb hi) j (mem_of_active hb hj) hij, by decide +kernel, rfl⟩⟩

/-- TbRootTakesTheOneMember, at the last index. -/
theorem witness_TbRoot :
    (members [512])[512]? = some true ∧ ∀ i, i < 513 → (members [512])[i]? = some true → i = 512 := by
  have ha : activeIndices (members [512]) = [512] := by decide +kernel
  exact ⟨by decide +kernel, fun i _ hi => by simpa using mem_of_active ha hi⟩

/-- TreeBuilderBuildsTheTree: Scenario A, and the empty input's table, with the smallest WEIGHT_W. -/
theorem witness_TreeBuilder :
    ({ busyIn .cTbinit with freq := some freqA }.inCommand .cTbinit ∧ freqA[256]? = some 1 ∧ freqTotal freqA < 2 ^ 64) ∧
    ((freqTable [])[256]? = some 1 ∧ freqTotal (freqTable []) < 2 ^ 1) :=
  ⟨⟨⟨rfl, rfl, rfl, rfl⟩, by decide +kernel⟩, by decide +kernel⟩

/-- CgInitStartsTheWalk: the degenerate root and Scenario A's. -/
theorem witness_CgInit :
    nodeA[256]? = some (some (.leaf 256#9 1)) ∧ (256#9).toNat ≤ 256 ∧
    nodeA[258]? = some (some (.internal 5 257 65)) ∧
    { busyIn .cCginit with node := nodeA, root := some 258 }.root = some 258 := by decide +kernel

/-- CgStepVisitsOneNode: a leaf at the greatest depth, 256; an internal node at depth 255 under a stack of 255 entries. -/
theorem witness_CgStep :
    (let s := { busyIn .cCgen with
        node := nodeA, sp := some 1, path := Vector.replicate 256 (some false)
        stack := stackOf [{ node := 256, depth := some 256, bit := some true }] };
      s.sp = some (0 + 1) ∧ s.stack[0]? = some (some { node := 256, depth := some (255 + 1), bit := some true }) ∧
      s.node[256]? = some (some (.leaf 256#9 1)) ∧ (256#9).toNat ≤ 256 ∧ 255 < 256 ∧
      (List.replicate 255 false).length = 255 ∧ ∀ j, j < 255 → s.path[j]? = some (List.replicate 255 false)[j]?) ∧
    (let s := { busyIn .cCgen with
        node := nodeA, sp := some 256
        stack := Vector.replicate 257 (some { node := 258, depth := some 255, bit := some true }) };
      s.sp = some (255 + 1) ∧ s.stack[255]? = some (some { node := 258, depth := some (254 + 1), bit := some true }) ∧
      s.node[258]? = some (some (.internal 5 257 65)) ∧ 254 < 256 ∧ 255 + 1 < 257) :=
  ⟨⟨rfl, by decide +kernel, by decide +kernel, by decide, by decide, List.length_replicate, fun j hj => by
      show (Vector.replicate 256 (some false))[j]? = _
      rw [Vector.getElem?_replicate, List.getElem?_replicate, if_pos (by omega), if_pos hj]⟩,
    ⟨rfl, by decide +kernel, by decide +kernel, by decide, by decide⟩⟩

/-- CodeTableIsCodesOfTheTree, SerializerWritesTheHeader: Scenario A and the degenerate tree. -/
theorem witness_TreeWalks :
    ({ busyIn .cCginit with node := nodeA, root := some 258 }.inCommand .cCginit ∧
      { busyIn .cHsinit with node := nodeA, root := some 258 }.inCommand .cHsinit ∧ (busyIn .cHsinit).closed = false) ∧
    ({ busyIn .cCginit with node := nodeA, root := some 258 }.tree 258 = some treeA ∧ treeA.symbols.Nodup ∧
      (∀ x ∈ treeA.symbols, x.toNat ≤ 256) ∧ treeA.depth ≤ 256) ∧
    ({ busyIn .cCginit with node := nodeA, root := some 256 }.tree 256 = some (.leaf 256#9 1)) :=
  ⟨⟨⟨rfl, rfl, rfl, rfl⟩, ⟨rfl, rfl, rfl, rfl⟩, rfl⟩, by decide +kernel⟩

/-- HeaderWalksStartEmpty, HsStepWritesOneRecord: the last leaf, and an internal node with a stack of 255 entries. -/
theorem witness_HsStep :
    { busyIn .cHsinit with root := some 258 }.root = some 258 ∧
    (let s := { busyIn .cHdr with
        node := nodeA, sp := some 1, stack := stackOf [{ node := 65, depth := none, bit := none }] };
      s.sp = some (0 + 1) ∧ s.stack[0]? = some (some { node := 65, depth := none, bit := none }) ∧
      s.node[65]? = some (some (.leaf 65#9 3)) ∧ s.closed = false) ∧
    (let s := { busyIn .cHdr with
        node := nodeA, sp := some 256, stack := Vector.replicate 257 (some { node := 258, depth := none, bit := none }) };
      s.sp = some (255 + 1) ∧ s.stack[255]? = some (some { node := 258, depth := none, bit := none }) ∧
      s.node[258]? = some (some (.internal 5 257 65)) ∧ s.closed = false ∧ 255 + 1 < 257) := by decide +kernel

/-- HdStepStoresAFirstRecord: an internal record and a lone leaf, the record being the store's last. -/
theorem witness_HdFirst :
    ∀ bits ∈ [[false], true :: bin 9 511],
      let s := { busyIn .dHdr with inBits := bits, dnext := some 512, dsp := some 0 };
      s.dnext = some 512 ∧ 512 < s.par.decNodeCap ∧ s.dnode.length = s.par.decNodeCap ∧
      s.dstack.length = s.par.decNodeCap ∧ s.dsp = some 0 ∧
      (s.inBits[s.rp]? = some false ∨ (s.inBits.drop s.rp).take 10 = true :: bin 9 (511#9).toNat) := by decide +kernel

/-- HdStepAttachesALeftChild: as above, under an unfinished root. -/
theorem witness_HdLeft :
    ∀ bits ∈ [[false], true :: bin 9 0],
      let s := { busyIn .dHdr with
        inBits := bits, dnext := some 512, dsp := some 512, dnode := records [dinternal none none]
        dstack := (List.range 513).map fun _ => some { node := 0, stage := false } };
      s.dnext = some 512 ∧ 512 < s.par.decNodeCap ∧ s.dnode.length = s.par.decNodeCap ∧
      s.dstack.length = s.par.decNodeCap ∧ s.dsp = some (511 + 1) ∧ 511 + 1 < s.par.decNodeCap ∧
      s.dstack[511]? = some (some { node := 0, stage := false }) ∧ 0 < s.par.decNodeCap ∧
      (s.inBits[s.rp]? = some false ∨ (s.inBits.drop s.rp).take 10 = true :: bin 9 (0#9).toNat) := by decide +kernel

/-- HdStepAttachesARightChild: the node waiting is the only one, or one of many. -/
theorem witness_HdRight :
    ∀ k ∈ [0, 512], ∀ bits ∈ [[false], true :: bin 9 256],
      let s := { busyIn .dHdr with
        inBits := bits, dnext := some 512, dsp := some (k + 1), dnode := records [dinternal (some 1) none]
        dstack := (List.range 513).map fun _ => some { node := 0, stage := true } };
      s.dnext = some 512 ∧ 512 < s.par.decNodeCap ∧ s.dnode.length = s.par.decNodeCap ∧
      s.dstack.length = s.par.decNodeCap ∧ s.dsp = some (k + 1) ∧
      s.dstack[k]? = some (some { node := 0, stage := true }) ∧ 0 < s.par.decNodeCap ∧
      (s.inBits[s.rp]? = some false ∨ (s.inBits.drop s.rp).take 10 = true :: bin 9 (256#9).toNat) := by decide +kernel

/-- EndOfStreamAndCapacityOrder: no bit; a tag and a full store; a leaf tag with 8 bits after it and a store not full. -/
theorem witness_EndOfStream :
    (busyIn .dHdr).inBits.length ≤ (busyIn .dHdr).rp ∧
    (let s := { busyIn .dHdr with inBits := [true], dnext := some 513 };
      s.inBits[s.rp]? = some true ∧ s.dnext = some s.par.decNodeCap) ∧
    (let s := { busyIn .dHdr with inBits := true :: List.replicate 8 false, dnext := some 512 };
      s.inBits[s.rp]? = some true ∧ s.dnext = some 512 ∧ 512 ≠ s.par.decNodeCap ∧ s.inBits.length < s.rp + 10) := by
  decide +kernel

/-- UnitOperationsInterpretTheTokens, EncodeInvertsDecode: a token of each section at the read position. -/
theorem witness_Tokens :
    decodeToken Params.default .header [false, true] = .ok .hdrInternal [true] ∧
    decodeToken Params.default .header (true :: bin 9 511) = .ok (.hdrLeaf 511#9) [] ∧
    decodeToken Params.default .payload [true] = .ok .brRight [] ∧
    decodeToken Params.default .payload [false] = .ok .brLeft [] ∧
    decodeToken Params.default .magic (bin 32 0xFACE8201 ++ [false]) = .ok .magic [false] ∧
    decode Params.default (.phase 20#5 .always) = .ok .deClose := by decide +kernel

/-- DeserializerRebuildsTheTree: the header of Scenario A with payload bits after it; and a tree that just fits. -/
theorem witness_Deserializer :
    (let s := { busyIn .dHdinit with inBits := ser treeA ++ [true, false] };
      s.inCommand .dHdinit ∧ s.sized ∧ 0 < s.par.decNodeCap ∧
      deser (s.inBits.drop s.rp) = some (treeA.unweighted, [true, false]) ∧ treeA.nodes ≤ s.par.decNodeCap) ∧
    (let s := { State.resetWith { Params.default with decNodeCap := 5 } with inBits := ser treeA };
      s.sized ∧ treeA.unweighted.nodes = s.par.decNodeCap) :=
  ⟨⟨⟨rfl, rfl, rfl, rfl⟩, ⟨by decide +kernel, by decide +kernel, by decide⟩, by decide +kernel, by decide +kernel,
    by decide +kernel⟩, ⟨by decide +kernel, by decide +kernel, by decide⟩, by decide +kernel⟩

/-- EnMagicAndEnRewind, EnSymWritesTheCode, EnTermWritesTheTerminator: Scenario A; a code of the greatest length; a byte
without a code. -/
theorem witness_Codes :
    (busyIn .cMagic).closed = false ∧
    (codeLenA[(0x42#8).toNat]? = some (some 2) ∧ codeBitsA[(0x42#8).toNat]? = some (some [false, false]) ∧
      codeLenA[256]? = some (some 2) ∧ codeBitsA[256]? = some (some [false, true]) ∧ 1 ≤ 2 ∧ 2 ≤ 256 ∧
      2 ≤ [false, true].length) ∧
    ((tabulate 257 fun _ => some 256)[(0xFF#8).toNat]? = some (some 256) ∧
      (tabulate 257 fun _ => some (List.replicate 256 true))[(0xFF#8).toNat]? = some (some (List.replicate 256 true)) ∧
      256 ≤ (List.replicate 256 true).length) ∧
    codeLenA[(0x00#8).toNat]? = some (some 0) := by decide +kernel

/-- PaddingIsADrawNothingReads: a medium whose unit is a byte, and one whose unit is a bit. -/
theorem witness_Padding :
    0 < State.reset.par.mediumUnit ∧
    0 < (State.resetWith { Params.default with mediumUnit := 1 }).par.mediumUnit := by decide +kernel

/-- SecondPassWritesThePayload: Scenario A. -/
theorem witness_SecondPass :
    let s := { busyIn .cRewind with
      inBits := bytesToBits bytesA, codeLen := codeLenA, codeBits := codeBitsA, rp := 32 };
    s.inCommand .cRewind ∧ s.closed = false ∧ s.inBits = bytesToBits bytesA ∧
    ∀ x : Symbol, (x = 256#9 ∨ ∃ b ∈ bytesA, x = zext9 b) →
      s.codeLen[x.toNat]? = some (some (codesA x).length) ∧ s.codeBits[x.toNat]? = some (some (codesA x)) ∧
      1 ≤ (codesA x).length ∧ (codesA x).length ≤ 256 := by
  have h : ∀ x ∈ 256#9 :: bytesA.map zext9, codeLenA[x.toNat]? = some (some (codesA x).length) ∧
      codeBitsA[x.toNat]? = some (some (codesA x)) ∧ 1 ≤ (codesA x).length ∧ (codesA x).length ≤ 256 := by
    decide +kernel
  refine ⟨⟨rfl, rfl, rfl, rfl⟩, rfl, rfl, fun x hx => h x ?_⟩
  rcases hx with rfl | ⟨b, hb, rfl⟩
  · exact List.mem_cons_self
  · exact List.mem_cons_of_mem _ (List.mem_map_of_mem hb)

/-- DeMagicChecksTheConstant: the constant; the word that differs in its last bit; 31 bits. -/
theorem witness_DeMagic :
    (({ busyIn .dMagic with inBits := bin 32 0xFACE8201 }.inBits.drop 0).take 32 = bin 32 Params.default.magic.toNat) ∧
    ((bin 32 0xFACE8200).take 32 = bin 32 (0xFACE8200#32).toNat ∧ 0xFACE8200#32 ≠ Params.default.magic) ∧
    { busyIn .dMagic with inBits := bin 31 0 }.inBits.length < (busyIn .dMagic).rp + 32 := by decide +kernel

/-- A tree with the largest byte symbol on the left and the smallest reserved symbol on the right. -/
def dnodeEdge : List DNode := records [dinternal (some 1) (some 2), dleaf 255#9, dleaf 257#9]

/-- The decoder at the root of Scenario A's tree, about to read the bits given. -/
def decoding (bits : Bits) : State := { busyIn .dDec with inBits := bits, dnode := dnodeA, cur := some 0 }

/-- DeStepWalksTheTree: each kind of node below the position, under both branch bits. -/
theorem witness_DeStep :
    (dnodeA.take 5 =
        [dinternal (some 1) (some 4), dinternal (some 2) (some 3), dleaf 66#9, dleaf 256#9, dleaf 65#9] ∧
      (65#9).toNat < 256) ∧
    (dnodeEdge.take 3 = [dinternal (some 1) (some 2), dleaf 255#9, dleaf 257#9] ∧
      (255#9).toNat < 256 ∧ 256 < (257#9).toNat) ∧
    (∀ b, (decoding [b]).cur = some 0 ∧ (decoding [b]).rp = 0 ∧ (decoding [b]).inBits[0]? = some b ∧
      (decoding [b]).closed = false) :=
  ⟨by decide +kernel, by decide +kernel, fun _ => ⟨rfl, rfl, rfl, rfl⟩⟩

/-- DegenerateTreeIgnoresTheBit: the terminator alone, the largest byte symbol, the smallest reserved symbol. -/
theorem witness_Degenerate :
    ∀ sym ∈ [256#9, 255#9, 257#9],
      let s := { busyIn .dDec with inBits := [true], dnode := records [dleaf sym], cur := some 0 };
      s.dnode[0]? = some (dleaf sym) ∧ s.cur = some 0 ∧ s.inBits[s.rp]? = some true ∧ s.closed = false ∧
      (sym = 256#9 ∨ sym.toNat < 256 ∨ 256 < sym.toNat) := by decide +kernel

/-- DecoderWalksThePayload: Scenario A; and its payload cut short. -/
theorem witness_Decoder :
    ∀ bits ∈ [payload treeA bytesA, (payload treeA bytesA).take 6],
      (decoding bits).inCommand .dDec ∧ (decoding bits).err = .none ∧ (decoding bits).closed = false ∧
      (decoding bits).sized ∧ (decoding bits).dtree 0 = some treeA.unweighted ∧ (decoding bits).cur = some 0 := by
  have hd : ∀ bits, (decoding bits).dnode = dnodeA := fun _ => by simp only [decoding]
  have hs : ∀ bits, (decoding bits).dstack = State.reset.dstack := fun _ => rfl
  have hp : ∀ bits, (decoding bits).par = Params.default := fun _ => rfl
  have hr : ∀ bits, (decoding bits).rp = 0 := fun _ => rfl
  have hl : dnodeA.length = 513 := by decide +kernel
  have hl' : State.reset.dstack.length = 513 := by decide +kernel
  have ht : dtreeOf dnodeA 514 0 = some treeA.unweighted := by decide +kernel
  intro bits _
  refine ⟨⟨rfl, rfl, rfl, rfl⟩, rfl, rfl, ⟨?_, ?_, ?_⟩, ?_, rfl⟩
  · rw [hd, hl, hp]; decide
  · rw [hs, hl', hp]; decide
  · rw [hr]; exact Nat.zero_le _
  · rw [State.dtree, hd, hl]; exact ht

/-- WalkInvertsThePayload: Scenario A, and the degenerate tree with the empty input. -/
theorem witness_WalkInverts :
    (treeA.symbols.Nodup ∧ 256#9 ∈ treeA.symbols ∧ ∀ b ∈ bytesA, zext9 b ∈ treeA.symbols) ∧
    ((Tree.leaf 256#9 1).symbols.Nodup ∧ 256#9 ∈ (Tree.leaf 256#9 1).symbols) := by decide +kernel

/-- CommandEndsOnlyByCloseOrError, CloseIsIssuedExactlyOnce: a step that goes on, one that succeeds, one that fails. -/
theorem witness_CommandEnds :
    ((busyIn .cClear).st = .busy ∧ ∃ t, step (busyIn .cClear) = .next t ∧ t.st = .busy) ∧
    ((busyIn .cClose).st = .busy ∧ ∃ t, step (busyIn .cClose) = .next t ∧ t.st = .done) ∧
    ((busyIn .dMagic).st = .busy ∧ ∃ t, step (busyIn .dMagic) = .next t ∧ t.st = .error) :=
  ⟨⟨rfl, exists_next (·.st) _ (by decide +kernel)⟩, ⟨rfl, exists_next (·.st) _ (by decide +kernel)⟩,
    ⟨rfl, exists_next (·.st) _ (by decide +kernel)⟩⟩

/-- PhaseFollowsTheFlow, TransactionsExplainTheStreams: a step that goes on, and a core that waits for its collaborators. -/
theorem witness_GoesOn :
    (∃ t, step (busyIn .cRewind) = .next t ∧ t.st = .busy) ∧
    (∃ t, step ((busyIn .cRewind).setReady false) = .next t ∧ t.st = .busy) :=
  ⟨exists_next (·.st) _ (by decide +kernel), exists_next (·.st) _ (by decide +kernel)⟩

/-- TablesAreFixedOnceBuilt: steps that go on, in the first and the last phase of its clauses: C_TBINIT with counts; C_CGINIT
with the degenerate tree; C_HDR with the last leaf; C_MAGIC and C_ENC; the decoder's D_HDINIT and D_DEC. -/
theorem witness_Tables :
    (∃ t, step { busyIn .cTbinit with freq := some freqA } = .next t ∧ t.st = .busy) ∧
    (∃ t, step { busyIn .cCginit with node := nodeA, root := some 256 } = .next t ∧ t.st = .busy) ∧
    (∃ t, step { busyIn .cHdr with
      node := nodeA, sp := some 1, stack := stackOf [{ node := 65, depth := none, bit := none }] } = .next t ∧
      t.st = .busy) ∧
    (∃ t, step (busyIn .cMagic) = .next t ∧ t.st = .busy) ∧
    (∃ t, step { busyIn .cEnc with codeLen := codeLenA, codeBits := codeBitsA } = .next t ∧ t.st = .busy) ∧
    (∃ t, step (busyIn .dHdinit) = .next t ∧ t.st = .busy) ∧
    (∃ t, step (decoding [true]) = .next t ∧ t.st = .busy) :=
  ⟨exists_next (·.st) _ (by decide +kernel), exists_next (·.st) _ (by decide +kernel),
    exists_next (·.st) _ (by decide +kernel), exists_next (·.st) _ (by decide +kernel),
    exists_next (·.st) _ (by decide +kernel), exists_next (·.st) _ (by decide +kernel),
    exists_next (·.st) _ (by decide +kernel)⟩

/-- ReadsOfNoValueFault, compression: nothing written yet; a member of ACTIVE without a record; NEXT alone missing. -/
theorem witness_NoValueBuilder :
    (busyIn .cCount).freq = none ∧ ((busyIn .cMerge).inCommand .cMerge ∧ (busyIn .cMerge).active = none) ∧
    (let s := { busyIn .cMerge with active := some (members [512]) };
      s.active = some (members [512]) ∧ (members [512])[512]? = some true ∧ s.node[512]? = some none) ∧
    (let s := { busyIn .cMerge with active := some (members [65, 256]), node := nodeHeavy };
      s.active = some (members [65, 256]) ∧ 2 ≤ countActive (members [65, 256]) ∧
      (∀ i, i < 513 → (members [65, 256])[i]? = some true → s.node[i]? ≠ some none) ∧ s.nextIdx = none) := by
  have ha : activeIndices (members [65, 256]) = [65, 256] := by decide +kernel
  have hm : ∀ i ∈ [65, 256], nodeHeavy[i]? ≠ some none := by decide +kernel
  exact ⟨rfl, ⟨busyIn_inCommand _, rfl⟩, ⟨rfl, by decide +kernel, by decide +kernel⟩,
    ⟨rfl, by decide +kernel, fun i _ hi => hm i (mem_of_active ha hi), rfl⟩⟩

/-- ReadsOfNoValueFault, the walks: no ROOT, a root without a record, no SP, an entry without a value, without a depth, on a
node without a record; a leaf at depth 2 under a path whose first bit is missing. -/
theorem witness_NoValueWalks :
    ((busyIn .cCginit).root = none ∧ (busyIn .cCgen).sp = none) ∧
    (let s := { busyIn .cCginit with root := some 512 }; s.root = some 512 ∧ s.node[512]? = some none) ∧
    (let s := { busyIn .cCgen with sp := some 257 }; s.sp = some (256 + 1) ∧ s.stack[256]? = some none) ∧
    (let e : StackEntry := { node := 258, depth := none, bit := none };
      let s := { busyIn .cHdr with sp := some 1, stack := stackOf [e] };
      s.sp = some (0 + 1) ∧ s.stack[0]? = some (some e) ∧ (e.depth = none ∨ e.bit = none) ∧
      s.node[e.node]? = some none) ∧
    (let e : StackEntry := { node := 66, depth := some 2, bit := some false };
      let s := { busyIn .cCgen with sp := some 1, stack := stackOf [e], node := nodeA };
      s.sp = some (0 + 1) ∧ s.stack[0]? = some (some e) ∧ e.depth = some (1 + 1) ∧ e.bit = some false ∧
      s.node[e.node]? = some (some (.leaf 66#9 1)) ∧ s.path[0]? = some none ∧
      (busyIn .cCgen).node[e.node]? = some none) := by decide +kernel

/-- ReadsOfNoValueFault, the codes: no table; a length without bits, and with too few, for a byte and the terminator. -/
theorem witness_NoValueCodes :
    ((busyIn .cEnc).codeLen[(0xFF#8).toNat]? = some none ∧ (busyIn .cEnc).codeLen[256]? = some none) ∧
    (codeLenA[(0x42#8).toNat]? = some (some 2) ∧ codeLenA[256]? = some (some 2) ∧ 2 ≠ 0) ∧
    ((busyIn .cEnc).codeBits[(0x42#8).toNat]? = some none ∧ (busyIn .cEnc).codeBits[256]? = some none) ∧
    (tabulate 257 fun _ => some [true])[(0x42#8).toNat]? = some (some [true]) ∧
    (tabulate 257 fun _ => some [true])[256]? = some (some [true]) ∧ [true].length < 2 := by decide +kernel

/-- ReadsOfNoValueFault, the decoder: a bit and no DNEXT; no DSP, with either kind of record; an entry of DSTACK without a
value. -/
theorem witness_NoValueHeader :
    (let s := { busyIn .dHdr with inBits := [true] }; s.inBits[s.rp]? = some true ∧ s.dnext = none) ∧
    (∀ bits ∈ [[false], true :: bin 9 511],
      let s := { busyIn .dHdr with inBits := bits, dnext := some 512 };
      s.dnext = some 512 ∧ 512 ≠ s.par.decNodeCap ∧ s.dsp = none ∧
      (s.inBits[s.rp]? = some false ∨ (s.inBits.drop s.rp).take 10 = true :: bin 9 (511#9).toNat)) ∧
    (let s := { busyIn .dHdr with dsp := some 513 }; s.dsp = some (512 + 1) ∧ s.dstack[512]? = some none) := by
  decide +kernel

/-- ReadsOfNoValueFault, the payload: no root record; no CUR; a lone leaf without a symbol; a child that is missing; a child
without a record, and one without a symbol. -/
theorem witness_NoValuePayload :
    (let s := { busyIn .dDec with inBits := [true] };
      s.inBits[s.rp]? = some true ∧ s.dnode[0]? = some DNode.blank ∧ DNode.blank.leaf = none ∧ s.cur = none) ∧
    ((dleaf 7#9).leaf ≠ none ∧ { dleaf 7#9 with sym := none }.leaf = some true ∧
      { dleaf 7#9 with sym := none }.sym = none) ∧
    (let s := { busyIn .dDec with inBits := [true], dnode := records [dinternal none (some 512)], cur := some 0 };
      s.dnode[0]? = some (dinternal none (some 512)) ∧ s.cur = some 0 ∧
      (if false then (dinternal none (some 512)).right else (dinternal none (some 512)).left) = none ∧
      (if true then (dinternal none (some 512)).right else (dinternal none (some 512)).left) = some 512 ∧
      s.dnode[512]? = some DNode.blank) := by decide +kernel

/-- A write needs no value there before it: CG_STEP writes a code into a table that has none (R142), and HD_STEP the left
child of a record that has none (R156). -/
theorem test_writes_need_no_value :
    after (exec .cgStep { busyIn .cCgen with
        node := nodeA, sp := some 1, stack := stackOf [{ node := 65, depth := some 1, bit := some true }] })
      (fun s => (s.codeLen[65]?, s.codeLen[66]?, s.codeBits[65]?)) =
      some (some (some 1), some none, some (some [true])) ∧
    after (exec .hdStep { busyIn .dHdr with
        inBits := [false], dnext := some 1, dsp := some 1, dstack := entries [{ node := 0, stage := false }] })
      (fun s => s.dnode.take 2) =
      some [{ DNode.blank with left := some 1 }, dinternal none none] := by decide +kernel

/-- EveryStepKeepsTheInvariant: a BUSY core in the first pass, with a table, that meets the invariant and steps. -/
theorem witness_Invariant :
    let s := { busyIn .cCount with freq := some freqA, inBits := bytesToBits bytesA, rp := 32 };
    s.Inv ∧ ∃ t, step s = .next t ∧ t.phase = .cTbinit := by
  have h : State.decompressionEmpty { busyIn .cCount with freq := some freqA, inBits := bytesToBits bytesA, rp := 32 } :=
    ⟨rfl, rfl, rfl, rfl, rfl⟩
  have hl : State.lifetimes { busyIn .cCount with freq := some freqA, inBits := bytesToBits bytesA, rp := 32 } := by
    intro r hr
    cases r with
    | freq => exact absurd (List.mem_singleton.mpr rfl) (hr .cClear List.mem_cons_self)
    | _ => rfl
  refine ⟨⟨by decide, ⟨by decide, by decide⟩, hl,
    ⟨by decide +kernel, by decide +kernel, by decide +kernel⟩, ⟨?_, ?_, ?_, ?_, ?_, ?_, ?_⟩,
    decompressionFits_of_empty h, fun h => h.elim (fun h => Phase.noConfusion h) (fun h => Phase.noConfusion h)⟩,
    exists_next (·.phase) _ (by decide +kernel)⟩
  · intro f hf; cases hf; exact (by decide +kernel : freqTotal freqA < 2 ^ 64)
  · exact fun i n h => absurd h getElem?_replicate_none_ne
  · exact holdsOnly_none rfl
  · exact holdsOnly_none rfl
  · exact fun i len h => absurd h getElem?_replicate_none_ne
  · exact holdsOnly_none rfl
  · exact fun i e h => absurd h getElem?_replicate_none_ne

/-- InvariantHoldsAfterReset: the default parameters and the least ones R9 admits. -/
theorem witness_Params :
    Params.default.wellFormed = true ∧
    ({ magic := 0#32, weightW := 1, decNodeCap := 513, mediumUnit := 1 } : Params).wellFormed = true := by decide

/-- NoRunEndsInAFault, CommandIgnoresEarlierTables, CompressIsTheContainerFunction, DecompressEndsInOneOfItsWays,
DecompressInvertsCompress: a core between commands with COMPRESS or DECOMPRESS presented. -/
theorem witness_Commands :
    ∀ op ∈ [1#2, 2#2], ∀ input : Bits,
      let s := { State.reset.present op with inBits := input };
      s.par.wellFormed = true ∧ s.about op ∧ s.sized ∧ s.st ≠ .busy ∧ s.closed = false ∧ s.inBits = input :=
  fun _ _ _ => ⟨show Params.default.wellFormed = true by decide,
    ⟨rfl, rfl, rfl, rfl, fun h => RunState.noConfusion h, rfl, rfl, rfl⟩,
    ⟨List.length_replicate, List.length_replicate, Nat.zero_le _⟩, fun h => RunState.noConfusion h, rfl, rfl⟩

/-- NoRunEndsInAFault: after a command that ended in an error, with DECOMPRESS presented and the streams bound again. -/
theorem witness_NoRun :
    let s := { (State.reset.present 2#2).bindStreams (bin 32 0xFACE8201) with st := .error, err := .format };
    s.Inv ∧ s.st ≠ .busy ∧ s.closed = false :=
  ⟨inv_of_empty (by decide) ⟨by decide, by decide⟩ rfl ⟨rfl, rfl, rfl, rfl, rfl, rfl, rfl, rfl, rfl, rfl⟩
    ⟨rfl, rfl, rfl, rfl, rfl⟩ (Nat.zero_le _), by decide, rfl⟩

/-- CommandIgnoresEarlierTables: two cores about to run COMPRESS that differ in their tables. -/
theorem witness_EarlierTables :
    let s := { State.reset.present 1#2 with inBits := bytesToBits bytesA };
    let t := { s with freq := some freqA, node := nodeA, sp := some 9, codeLen := codeLenA }
    s.sized ∧ t.sized ∧ s.sameOutside t ∧ s.sp ≠ t.sp :=
  ⟨⟨by decide +kernel, by decide +kernel, Nat.zero_le _⟩, ⟨by decide +kernel, by decide +kernel, Nat.zero_le _⟩, rfl,
    by decide⟩

/-- CompressIsTheContainerFunction, DecompressInvertsCompress: an input that is short enough, and its container. -/
theorem witness_Container :
    bytesA.length ≤ Params.default.lenMax ∧
    container Params.default [] = some (bin 32 0xFACE8201 ++ (true :: bin 9 256) ++ [false]) := by decide +kernel

end Sys2Proof.Tests
end

section
/-! SUPPORT. The rules every proof about a run of the machine starts from: a run as its first step and the rest, and which
instruction a step inside a command performs (R104), on the state its read leaves. -/

namespace Sys2Proof.Machine

/-! ## Runs -/

@[simp] theorem run_zero (s : State) : run 0 s = .next s := rfl

theorem run_succ (k : Nat) (s : State) : run (k + 1) s = chain (step s) (run k) := by
  have hcore : Sys2Proof.core.step s = step s := rfl
  simp only [run, Host.Core.run, hcore]
  cases step s <;> rfl

/-- A run that begins with a step whose outcome is known. -/
theorem run_succ_of_step {k : Nat} {s s' : State} (h : step s = .next s') : run (k + 1) s = run k s' := by
  rw [run_succ, h, chain_next]

theorem run_one (s : State) : run 1 s = step s := by
  rw [run_succ]; cases step s <;> rfl

/-! ## Equality outside the tables -/

theorem State.sameOutside.trans {s t u : State} (h : s.sameOutside t) (h' : t.sameOutside u) : s.sameOutside u :=
  Eq.trans h h'

/-! ## One step inside a command (R104) -/

/-- The word of a phase and a condition runs the unit operation the selection table gives them. -/
theorem runFetched_of_decodePhase {ph : Phase} {c : Cond} {i : Instr} (s : State) (h : decodePhase ph c = .ok i) :
    runFetched (.run (.phase (phaseCode ph) c) s) = exec i s := by
  simp [runFetched, decode, h]

/-- A step inside a command performs the unit operation of its phase under the condition selected. -/
theorem step_of_select {s s' : State} {ph : Phase} {c : Cond} {i : Instr} (h : s.inCommand ph)
    (hsel : select (expire s) = .next (c, s')) (hdec : decodePhase ph c = .ok i) : step s = exec i s' := by
  rw [step, fetch_of_inCommand h, hsel, chain_next, chain_next, runFetched_of_decodePhase s' hdec]

/-- The phases whose operation R104 selects "always". -/
theorem select_of_always {s : State} (h₁ : s.phase ≠ .cCount) (h₂ : s.phase ≠ .cEnc) (h₃ : s.phase ≠ .cMerge) :
    select s = .next (.always, s) := by
  unfold select
  split
  · exact absurd ‹_› h₁
  · exact absurd ‹_› h₂
  · exact absurd ‹_› h₃
  · rfl

/-- The phases whose operation R104 selects by a read of a byte. -/
theorem select_of_reading {s : State} (h : s.phase = .cCount ∨ s.phase = .cEnc) : select s = .next (readCond s) := by
  rcases h with h | h <;> simp only [select, h]

theorem readCond_of_byte {s : State} {r : Byte} (h : (s.inBits.drop s.rp).take 8 = bin 8 r.toNat) :
    readCond s = (.byte r, { s with rp := s.rp + 8, trace := s.trace ++ [.read 8 (some r.toNat)] }) := by
  simp only [readCond, bitRead_of_take r (by decide) h]

theorem readCond_of_end {s : State} (h : s.inBits.length < s.rp + 8) :
    readCond s = (.eos, { s with trace := s.trace ++ [.read 8 none] }) := by
  simp only [readCond, bitRead_of_gt 8 s h]

/-- A step that begins with a read which gets the byte r. -/
theorem step_of_byte {s : State} {ph : Phase} {r : Byte} {i : Instr} (h : s.inCommand ph) (hph : ph = .cCount ∨ ph = .cEnc)
    (hin : (s.inBits.drop s.rp).take 8 = bin 8 r.toNat) (hdec : decodePhase ph (.byte r) = .ok i) :
    step s = exec i { expire s with rp := s.rp + 8, trace := s.trace ++ [.read 8 (some r.toNat)] } := by
  refine step_of_select h ?_ hdec
  rw [select_of_reading (by rwa [expire_phase, h.inPhase]), readCond_of_byte (s := expire s) hin]
  rfl

/-- A step that begins with a read past the end of IN. -/
theorem step_of_end {s : State} {ph : Phase} {i : Instr} (h : s.inCommand ph) (hph : ph = .cCount ∨ ph = .cEnc)
    (hin : s.inBits.length < s.rp + 8) (hdec : decodePhase ph .eos = .ok i) :
    step s = exec i { expire s with trace := s.trace ++ [.read 8 none] } := by
  refine step_of_select h ?_ hdec
  rw [select_of_reading (by rwa [expire_phase, h.inPhase]), readCond_of_end (s := expire s) hin]
  rfl

/-- A step that begins with no condition to evaluate. -/
theorem step_of_always {s : State} {ph : Phase} {i : Instr} (h : s.inCommand ph)
    (hph : ph ≠ .cCount ∧ ph ≠ .cEnc ∧ ph ≠ .cMerge) (hdec : decodePhase ph .always = .ok i) :
    step s = exec i (expire s) := by
  obtain ⟨h₁, h₂, h₃⟩ := hph
  rw [← h.inPhase] at h₁ h₂ h₃
  exact step_of_select h (select_of_always h₁ h₂ h₃) hdec

/-! ## The input of COMPRESS (R61) -/

@[simp] theorem bytesToBits_nil : bytesToBits [] = [] := rfl

theorem bytesToBits_cons (b : Byte) (X : List Byte) : bytesToBits (b :: X) = bin 8 b.toNat ++ bytesToBits X := rfl

@[simp] theorem length_bytesToBits (X : List Byte) : (bytesToBits X).length = 8 * X.length := by
  induction X with
  | nil => rfl
  | cons b X ih => rw [bytesToBits_cons, List.length_append, length_bin, ih, List.length_cons]; omega

/-- Where a byte's bits come next, the next read gets that byte. -/
theorem take_of_drop_eq_bytesToBits {u : Bits} {n : Nat} {b : Byte} {X : List Byte}
    (h : u.drop n = bytesToBits (b :: X)) : (u.drop n).take 8 = bin 8 b.toNat := by
  rw [h, bytesToBits_cons, List.take_append_of_le_length (by simp), List.take_of_length_le (by simp)]

/-- After the read of a byte the bits of the later bytes are left. -/
theorem drop_add_of_drop_eq_bytesToBits {u : Bits} {n : Nat} {b : Byte} {X : List Byte}
    (h : u.drop n = bytesToBits (b :: X)) : u.drop (n + 8) = bytesToBits X := by
  rw [← List.drop_drop, h, bytesToBits_cons, List.drop_append_of_le_length (by simp), List.drop_of_length_le (by simp),
    List.nil_append]

end Sys2Proof.Machine
end

section
/-! SUPPORT. The FrequencyCounter: the table freq(X) (R120, R124), its three operations, and the first pass. -/

namespace Sys2Proof.Machine

/-! ## The table freq(X) -/

@[simp] theorem symIndex_val (r : Byte) : (symIndex r).val = r.toNat := toNat_zext9 r

theorem getElem?_freqTable {X : List Byte} {i : Nat} (h : i < 257) : (freqTable X)[i]? = some (freqOf X i) := by
  rw [freqTable, getElem?_tabulate, if_pos h]

theorem getElem_freqTable {X : List Byte} {i : Nat} (h : i < 257) : (freqTable X)[i] = freqOf X i :=
  Vector.getElem_eq_iff.mpr (getElem?_freqTable h)

/-- Before any byte only the terminator is counted. -/
theorem freqOf_nil (i : Nat) : freqOf [] i = if i = 256 then 1 else 0 := rfl

/-- One more byte is one more at its own entry, which is never entry 256 (R122). -/
theorem freqOf_concat (X : List Byte) (r : Byte) (i : Nat) :
    freqOf (X ++ [r]) i = if r.toNat = i then freqOf X i + 1 else freqOf X i := by
  have hr := r.isLt
  by_cases h : i = 256
  · rw [freqOf, freqOf, if_pos h, if_pos h, if_neg (by omega)]
  · simp only [freqOf, if_neg h, List.countP_append, List.countP_singleton, decide_eq_true_eq]
    split <;> rfl

/-- The table of one more byte is what FC_ACC makes of the table (R122). -/
theorem freqTable_concat (X : List Byte) (r : Byte) :
    freqTable (X ++ [r]) = (freqTable X).set (symIndex r) ((freqTable X)[symIndex r] + 1) := by
  apply Vector.ext
  intro i hi
  rw [Vector.getElem_set, getElem_freqTable hi, getElem_freqTable hi, freqOf_concat, Fin.getElem_fin,
    getElem_freqTable (symIndex r).isLt, symIndex_val]
  split <;> rename_i h
  · rw [h]
  · rfl

/-- Counting one more at an entry adds 1 to the sum of all entries (R124). -/
theorem freqTotal_set_succ (f : Vector Nat 257) (i : Fin 257) : freqTotal (f.set i (f[i] + 1)) = freqTotal f + 1 := by
  have hi : i.val < f.toList.length := by simp
  have hsplit := List.sum_take_add_sum_drop f.toList i
  rw [List.drop_eq_getElem_cons hi, List.sum_cons, Vector.getElem_toList] at hsplit
  rw [freqTotal, freqTotal, Vector.toList_set, List.sum_set, if_pos hi, Fin.getElem_fin]
  omega

/-- The sum of all entries of freq(X) is len(X) + 1 (R120, R124). -/
theorem freqTotal_freqTable (X : List Byte) : freqTotal (freqTable X) = X.length + 1 := by
  induction X using List.reverseRecOn with
  | nil => decide +kernel
  | append_singleton X r ih => rw [freqTable_concat, freqTotal_set_succ, ih, List.length_append, List.length_singleton]

/-! ## FC_CLEAR, FC_ACC, FC_END -/

/-- FC_CLEAR presets the counts of the empty input (R121). -/
theorem exec_fcClear (s : State) :
    exec .fcClear s = .next { s with freq := some (freqTable []), phase := .cCount } := rfl

theorem exec_fcEnd (s : State) : exec .fcEnd s = .next { s with phase := .cTbinit } := rfl

/-- FC_ACC on a table that is not yet full (R122). -/
theorem exec_fcAcc_of_lt {s : State} {r : Byte} {f : Vector Nat 257} (hf : s.freq = some f)
    (hlt : freqTotal f + 1 < 2 ^ s.par.weightW) :
    exec (.fcAcc r) s = .next { s with freq := some (f.set (symIndex r) (f[symIndex r] + 1)), phase := .cCount } := by
  show execFcAcc r s = _
  rw [execFcAcc, hf, need_some, chain_next, if_pos hlt]

/-- FC_ACC on the counts of the bytes P leaves the counts of P and r, within LEN_MAX (R122, R124, U8). -/
theorem exec_fcAcc_freqTable {s : State} {P : List Byte} {r : Byte} (hf : s.freq = some (freqTable P))
    (hlen : P.length + 1 ≤ s.par.lenMax) :
    exec (.fcAcc r) s = .next { s with freq := some (freqTable (P ++ [r])), phase := .cCount } := by
  have hlt : freqTotal (freqTable P) + 1 < 2 ^ s.par.weightW := by
    rw [freqTotal_freqTable]
    unfold Params.lenMax at hlen
    omega
  rw [exec_fcAcc_of_lt hf hlt, freqTable_concat]

/-- Settles O12: FC_CLEAR's table is freq of the empty input. -/
theorem fcClearAndFcEnd : Obligations.FcClearAndFcEnd := by
  refine ⟨fun p => ⟨rfl, rfl⟩, fun s => ⟨freqTable [], exec_fcClear s, ?_, fun i hi => ?_⟩, exec_fcEnd⟩
  · rw [getElem?_freqTable (by decide), freqOf_nil, if_pos rfl]
  · rw [getElem?_freqTable (by omega), freqOf_nil, if_neg (by omega)]

/-! ## The first pass -/

/-- FREQ is live in C_COUNT (R40). -/
theorem expire_freq_of_cCount {s : State} (h : s.phase = .cCount) : (expire s).freq = s.freq :=
  keep_of_mem (by rw [h]; decide)

/-- What the step of C_COUNT that reads the byte r makes of a core which has counted the bytes P. -/
def counted (P : List Byte) (r : Byte) (s : State) : State :=
  { expire s with
    freq := some (freqTable (P ++ [r]))
    rp := s.rp + 8
    trace := s.trace ++ [.read 8 (some r.toNat)]
    phase := .cCount }

/-- The core outside its tables when the first pass over the bytes X, from C_COUNT on, is over. -/
def passed (X : List Byte) (s : State) : State :=
  { s with
    phase := .cTbinit
    rp := s.rp + 8 * X.length
    trace := s.trace ++ X.map (fun b => .read 8 (some b.toNat)) ++ [.read 8 none] }

@[simp] theorem counted_par (P : List Byte) (r : Byte) (s : State) : (counted P r s).par = s.par := rfl

theorem counted_inCommand {s : State} (P : List Byte) (r : Byte) (h : s.inCommand .cCount) :
    (counted P r s).inCommand .cCount := ⟨h.noReset, h.ready, h.busy, rfl⟩

/-- Counting a byte and passing over the rest is passing over all of them. -/
theorem passed_counted (P : List Byte) (r : Byte) (X : List Byte) (s : State) :
    (passed X (counted P r s)).sameOutside (passed (r :: X) s) := by
  have hrp : s.rp + 8 + 8 * X.length = s.rp + 8 * (r :: X).length := by rw [List.length_cons]; omega
  simp [State.sameOutside, dropTables, passed, counted, hrp]

/-- The step of C_COUNT that gets a byte, within LEN_MAX (R122, R124, U8). -/
theorem step_counts_byte {s : State} {P : List Byte} {r : Byte} (h : s.inCommand .cCount)
    (hf : s.freq = some (freqTable P)) (hin : (s.inBits.drop s.rp).take 8 = bin 8 r.toNat)
    (hlen : P.length + 1 ≤ s.par.lenMax) : step s = .next (counted P r s) :=
  (step_of_byte h (.inl rfl) hin rfl).trans
    (exec_fcAcc_freqTable ((expire_freq_of_cCount h.inPhase).trans hf) hlen)

/-- The step of C_COUNT that finds the end of the input (R123). -/
theorem step_ends_pass {s : State} (h : s.inCommand .cCount) (hin : s.inBits.length < s.rp + 8) :
    step s = .next { expire s with phase := .cTbinit, trace := s.trace ++ [.read 8 none] } := by
  rw [step_of_end h (.inl rfl) hin rfl, exec_fcEnd]

/-- From C_COUNT with P counted and X left to read, the pass ends with the counts of P ++ X. -/
theorem run_counts (X P : List Byte) {s : State} (h : s.inCommand .cCount) (hf : s.freq = some (freqTable P))
    (hin : s.inBits.drop s.rp = bytesToBits X) (hlen : P.length + X.length ≤ s.par.lenMax) :
    ∃ t, run (X.length + 1) s = .next t ∧ t.freq = some (freqTable (P ++ X)) ∧ t.sameOutside (passed X s) := by
  induction X generalizing P s with
  | nil =>
    have hend : s.inBits.length < s.rp + 8 := by
      have := List.drop_eq_nil_iff.mp hin
      omega
    refine ⟨_, (run_one s).trans (step_ends_pass h hend), ?_, ?_⟩
    · rw [List.append_nil]; exact (expire_freq_of_cCount h.inPhase).trans hf
    · simp [State.sameOutside, dropTables, passed]
  | cons r X ih =>
    rw [List.length_cons] at hlen
    have hstep := step_counts_byte h hf (take_of_drop_eq_bytesToBits hin) (by omega)
    have hlen' : (P ++ [r]).length + X.length ≤ (counted P r s).par.lenMax := by
      rw [counted_par, List.length_append, List.length_singleton]
      omega
    obtain ⟨t, ht, hfreq, hout⟩ :=
      ih (P ++ [r]) (counted_inCommand P r h) rfl (drop_add_of_drop_eq_bytesToBits hin) hlen'
    refine ⟨t, (run_succ_of_step hstep).trans ht, ?_, hout.trans (passed_counted P r X s)⟩
    rw [hfreq, List.append_assoc, List.singleton_append]

/-- Settles O14: FC_CLEAR starts from the counts of no byte, and `run_counts` counts the whole input. -/
theorem firstPassCountsTheInput : Obligations.FirstPassCountsTheInput := by
  intro X s _ h hin hrp hlen
  have hstep : step s = .next { expire s with freq := some (freqTable []), phase := .cCount } := by
    rw [step_of_always h (by decide) rfl, exec_fcClear]
  obtain ⟨t, ht, hfreq, hout⟩ := run_counts X []
    (s := { expire s with freq := some (freqTable []), phase := .cCount })
    ⟨h.noReset, h.ready, h.busy, rfl⟩ rfl (by rw [expire_inBits, expire_rp, hin, hrp, List.drop_zero])
    (by rw [List.length_nil, Nat.zero_add]; exact hlen)
  refine ⟨t, (run_succ_of_step hstep).trans ht, hfreq, freqTotal_freqTable X, hout.trans ?_⟩
  simp [State.sameOutside, dropTables, passed, hin, hrp]

end Sys2Proof.Machine
end

section
/-! SUPPORT. The TreeBuilder's three operations on the tables they read and write (R133 to R135). -/

namespace Sys2Proof.Machine

/-! ## ACTIVE as the ascending list of its members (R32) -/

theorem lt_of_vector_getElem?_some {α : Type} {n i : Nat} {t : Vector α n} {a : α} (h : t[i]? = some a) : i < n :=
  (Vector.getElem?_eq_some_iff.mp h).1

/-- The members of ACTIVE in ascending order are the only ascending list of them. -/
theorem activeIndices_eq_of_mem {a : Vector Bool 513} {l : List Nat} (hl : l.Pairwise (· < ·))
    (h : ∀ i, a[i]? = some true ↔ i ∈ l) : activeIndices a = l :=
  (sorted_onesFrom 0 a.toList).eq_of_mem_iff hl fun i => mem_activeIndices.trans (h i)

/-- Clearing a bit of ACTIVE takes its index away. -/
theorem getElem?_setIfInBounds_false {a : Vector Bool 513} {m i : Nat} :
    (a.setIfInBounds m false)[i]? = some true ↔ a[i]? = some true ∧ i ≠ m := by
  rw [Vector.getElem?_setIfInBounds]
  split <;> rename_i h
  · subst h; split <;> simp
  · simp [Ne.symm h]

/-- Setting a bit of ACTIVE adds its index. -/
theorem getElem?_setIfInBounds_true {a : Vector Bool 513} {n i : Nat} (hn : n < 513) :
    (a.setIfInBounds n true)[i]? = some true ↔ a[i]? = some true ∨ i = n := by
  rw [Vector.getElem?_setIfInBounds]
  split <;> rename_i h
  · simp [h.symm, hn]
  · simp [Ne.symm h]

theorem activeIndices_setIfInBounds_false (a : Vector Bool 513) (m : Nat) :
    activeIndices (a.setIfInBounds m false) = (activeIndices a).filter fun i => decide (i ≠ m) := by
  refine activeIndices_eq_of_mem ((sorted_onesFrom 0 a.toList).sublist List.filter_sublist) fun i => ?_
  rw [getElem?_setIfInBounds_false, List.mem_filter, mem_activeIndices, decide_eq_true_eq]

/-- An index above every member comes last. -/
theorem activeIndices_setIfInBounds_true {a : Vector Bool 513} {n : Nat} (hn : n < 513)
    (h : ∀ i ∈ activeIndices a, i < n) : activeIndices (a.setIfInBounds n true) = activeIndices a ++ [n] := by
  refine activeIndices_eq_of_mem ?_ fun i => ?_
  · refine List.pairwise_append.mpr ⟨sorted_onesFrom 0 a.toList, List.pairwise_singleton _ _, fun i hi j hj => ?_⟩
    rw [List.mem_singleton.mp hj]
    exact h i hi
  · rw [getElem?_setIfInBounds_true hn, List.mem_append, mem_activeIndices, List.mem_singleton]

/-! ## TB_INIT (R133) -/

/-- A symbol occurs exactly where its count is positive. -/
theorem occurs_iff {f : Vector Nat 257} {i : Nat} : occurs f i = true ↔ ∃ c, f[i]? = some c ∧ 0 < c := by
  rw [occurs, decide_eq_true_eq]
  cases f[i]? <;> simp

theorem lt_of_occurs {f : Vector Nat 257} {i : Nat} (h : occurs f i = true) : i < 257 := by
  obtain ⟨c, hc, -⟩ := occurs_iff.mp h
  exact lt_of_vector_getElem?_some hc

/-- NODE after TB_INIT on FREQ = f, from the NODE it finds. -/
def leafRecords (f : Vector Nat 257) (node : Vector (Option Node) 513) : Vector (Option Node) 513 :=
  tabulate 513 fun i => if occurs f i then some (.leaf (BitVec.ofNat 9 i) (f[i]?.getD 0)) else (node[i]?).join

/-- ACTIVE after TB_INIT on FREQ = f. -/
def leafMembers (f : Vector Nat 257) : Vector Bool 513 := tabulate 513 fun i => occurs f i

/-- The state TB_INIT on FREQ = f leaves. -/
def afterTbInit (f : Vector Nat 257) (s : State) : State :=
  { s with
    node := leafRecords f s.node
    active := some (leafMembers f)
    nextIdx := some 257
    phase := .cMerge }

theorem exec_tbInit {s : State} {f : Vector Nat 257} (hf : s.freq = some f) :
    exec .tbInit s = .next (afterTbInit f s) := by
  have hneed : need s.freq .freq = .next f := by rw [hf, need_some]
  show execTbInit s = _
  rw [execTbInit, hneed, chain_next]
  rfl

theorem getElem?_leafRecords_of_pos {f : Vector Nat 257} (node : Vector (Option Node) 513) {i c : Nat}
    (hi : f[i]? = some c) (hc : 0 < c) : (leafRecords f node)[i]? = some (some (.leaf (BitVec.ofNat 9 i) c)) := by
  have hlt := lt_of_vector_getElem?_some hi
  rw [leafRecords, getElem?_tabulate, if_pos (by omega), if_pos (occurs_iff.mpr ⟨c, hi, hc⟩), hi, Option.getD_some]

theorem getElem?_leafRecords_of_not_occurs {f : Vector Nat 257} (node : Vector (Option Node) 513) {i : Nat}
    (hi : i < 513) (h : occurs f i = false) : (leafRecords f node)[i]? = node[i]? := by
  rw [leafRecords, getElem?_tabulate, if_pos hi, h, Vector.getElem?_eq_getElem hi]
  rfl

theorem getElem?_leafMembers {f : Vector Nat 257} {i : Nat} (hi : i < 513) :
    (leafMembers f)[i]? = some (occurs f i) := by
  rw [leafMembers, getElem?_tabulate, if_pos hi]

/-- Settles O15: an entry of FREQ is positive, or zero, or past the end. -/
theorem tbInitMakesOneLeafPerSymbol : Obligations.TbInitMakesOneLeafPerSymbol := by
  refine ⟨fun _ => rfl, fun s f hf => ⟨leafRecords f s.node, leafMembers f, exec_tbInit hf, ?_, ?_, ?_⟩⟩
  · intro i c hi hc
    have hlt := lt_of_vector_getElem?_some hi
    refine ⟨getElem?_leafRecords_of_pos _ hi hc, ?_⟩
    rw [getElem?_leafMembers (by omega), occurs_iff.mpr ⟨c, hi, hc⟩]
  · intro i hi
    have hlt := lt_of_vector_getElem?_some hi
    have hno : occurs f i = false := by rw [occurs, hi]; rfl
    exact ⟨getElem?_leafRecords_of_not_occurs _ (by omega) hno, by rw [getElem?_leafMembers (by omega), hno]⟩
  · intro i hge hi
    have hno : occurs f i = false := Bool.eq_false_iff.mpr fun h => by have := lt_of_occurs h; omega
    exact ⟨getElem?_leafRecords_of_not_occurs _ hi hno, by rw [getElem?_leafMembers hi, hno]⟩

/-! ## TB_MERGE (R134) -/

/-- NODE after a merge of a and b into the record n. -/
def mergedNode (s : State) (a b n : Nat) : Vector (Option Node) 513 :=
  s.node.setIfInBounds n (some (.internal (weightAt s a + weightAt s b) a b))

/-- ACTIVE after a merge of a and b into the record n. -/
def mergedActive (act : Vector Bool 513) (a b n : Nat) : Vector Bool 513 :=
  ((act.setIfInBounds a false).setIfInBounds b false).setIfInBounds n true

/-- Off the new record, a merge clears its two members and keeps every other bit. -/
theorem getElem?_mergedActive_of_ne {act : Vector Bool 513} {a b n i : Nat} (ha : a < 513) (hb : b < 513)
    (hi : i ≠ n) :
    (mergedActive act a b n)[i]? = if i = a ∨ i = b then some false else act[i]? := by
  rw [mergedActive, Vector.getElem?_setIfInBounds_ne hi.symm]
  by_cases hib : i = b
  · rw [hib, if_pos (.inr rfl), Vector.getElem?_setIfInBounds_self_of_lt hb]
  · rw [Vector.getElem?_setIfInBounds_ne (Ne.symm hib)]
    by_cases hia : i = a
    · rw [hia, if_pos (.inl rfl), Vector.getElem?_setIfInBounds_self_of_lt ha]
    · rw [Vector.getElem?_setIfInBounds_ne (Ne.symm hia), if_neg (not_or_intro hia hib)]

theorem weightAt_of_node {s : State} {i : Nat} {n : Node} (h : s.node[i]? = some (some n)) :
    weightAt s i = n.weight := by
  rw [weightAt, h]

/-- A lightest member has a record. -/
theorem nodeAt_of_lightest {s : State} {act : Vector Bool 513} {m : Nat} (h : lightest s act = .next m) :
    ∃ n, nodeAt s m = .next n ∧ n.weight = weightAt s m := by
  obtain ⟨hval, hm, -⟩ := lightest_eq_next.mp h
  obtain ⟨n, hn⟩ := hval m hm
  exact ⟨n, nodeAt_eq_next.mpr hn, (weightAt_of_node hn).symm⟩

/-- TB_MERGE where a is the lightest member and b the lightest of the others. -/
theorem exec_tbMerge_of_lightest {s : State} {act : Vector Bool 513} {a b n : Nat} (hact : s.active = some act)
    (ha : lightest s act = .next a) (hb : lightest s (act.setIfInBounds a false) = .next b)
    (hnext : s.nextIdx = some n) (hn : n < 513) (hw : weightAt s a + weightAt s b < 2 ^ s.par.weightW) :
    exec .tbMerge s = .next { s with
      node := mergedNode s a b n
      active := some (mergedActive act a b n)
      nextIdx := some (n + 1)
      phase := .cMerge } := by
  obtain ⟨-, hma, -⟩ := lightest_eq_next.mp ha
  obtain ⟨-, hmb, -⟩ := lightest_eq_next.mp hb
  obtain ⟨na, hna, hwa⟩ := nodeAt_of_lightest ha
  obtain ⟨nb, hnb, hwb⟩ := nodeAt_of_lightest hb
  show execTbMerge s = _
  simp only [execTbMerge, hact, need_some, chain_next, ha, putVec_of_lt _ _ _ _ (lt_of_vector_getElem?_some hma), hb,
    putVec_of_lt _ _ _ _ (lt_of_vector_getElem?_some hmb), hna, hnb, hnext, putVec_of_lt _ _ _ _ hn, hwa, hwb,
    if_pos hw, mergedNode, mergedActive]

/-- A collection with a member, whose members all have records, has a lightest one. -/
theorem exists_lightest {s : State} {act : Vector Bool 513} (hne : activeIndices act ≠ [])
    (hval : ∀ i : Nat, act[i]? = some true → ∃ n, s.node[i]? = some (some n)) :
    ∃ m, lightest s act = .next m := by
  have hks : keysOf s (activeIndices act) = .next ((activeIndices act).map (keyAt s)) :=
    keysOf_eq_next.mpr ⟨fun i hi => hval i (mem_activeIndices.mp hi), rfl⟩
  obtain ⟨i, is, hi⟩ := List.exists_cons_of_ne_nil hne
  exact ⟨_, by rw [lightest, hks, hi, List.map_cons, chain_next]⟩

/-- Without one of at least two members there is still a member. -/
theorem activeIndices_setIfInBounds_false_ne_nil {act : Vector Bool 513} (a : Nat) (h : 2 ≤ countActive act) :
    activeIndices (act.setIfInBounds a false) ≠ [] := by
  rw [activeIndices_setIfInBounds_false]
  intro hnil
  have hsub : activeIndices act ⊆ [a] := fun i hi => by
    simpa using List.filter_eq_nil_iff.mp hnil i hi
  have hle := ((nodup_activeIndices act).subperm hsub).length_le
  rw [List.length_singleton] at hle
  rw [countActive] at h
  omega

/-- Settles O16: both lightest members exist, and TB_MERGE joins them. -/
theorem tbMergeJoinsTheTwoLightest : Obligations.TbMergeJoinsTheTwoLightest := by
  refine ⟨fun _ => rfl, fun s act n hact hcount hrec hfits hnext hn => ?_⟩
  have hval : ∀ i : Nat, act[i]? = some true → ∃ x, s.node[i]? = some (some x) := by
    intro i hi
    have hlt := lt_of_vector_getElem?_some hi
    have hsome := hrec i hlt hi
    rw [Vector.getElem?_eq_getElem hlt] at hsome ⊢
    cases hx : s.node[i] with
    | none => rw [hx] at hsome; exact absurd rfl hsome
    | some x => exact ⟨x, rfl⟩
  have hne : activeIndices act ≠ [] := by
    intro h
    rw [countActive, h, List.length_nil] at hcount
    omega
  obtain ⟨a, ha⟩ := exists_lightest hne hval
  obtain ⟨b, hb⟩ := exists_lightest (activeIndices_setIfInBounds_false_ne_nil a hcount)
    fun i hi => hval i (getElem?_setIfInBounds_false.mp hi).1
  obtain ⟨-, hma, hmina⟩ := lightest_eq_next.mp ha
  obtain ⟨-, hmb, hminb⟩ := lightest_eq_next.mp hb
  obtain ⟨hmb, hba⟩ := getElem?_setIfInBounds_false.mp hmb
  have hw := hfits a (lt_of_vector_getElem?_some hma) b (lt_of_vector_getElem?_some hmb) hba.symm hma hmb
  refine ⟨a, b, mergedActive act a b n, hma, hmb, hba.symm, hmina,
    fun i hi hia hib => hminb i (getElem?_setIfInBounds_false.mpr ⟨hi, hia⟩) hib,
    exec_tbMerge_of_lightest hact ha hb hnext hn hw, (getElem?_setIfInBounds_true hn).mpr (.inr rfl),
    fun i hi => getElem?_mergedActive_of_ne (lt_of_vector_getElem?_some hma) (lt_of_vector_getElem?_some hmb) hi⟩

/-! ## TB_ROOT (R135) -/

theorem exec_tbRoot {s : State} {act : Vector Bool 513} {r : Nat} (hact : s.active = some act)
    (hr : activeIndices act = [r]) : exec .tbRoot s = .next { s with root := some r, phase := .cCginit } := by
  show execTbRoot s = _
  rw [execTbRoot, hact, need_some, chain_next, hr]

/-- Settles O17: the one member is the list of all members. -/
theorem tbRootTakesTheOneMember : Obligations.TbRootTakesTheOneMember := by
  refine ⟨fun _ => rfl, fun s act r hact hr hone => exec_tbRoot hact ?_⟩
  refine activeIndices_eq_of_mem (List.pairwise_singleton _ _) fun i => ⟨fun hi => ?_, fun hi => ?_⟩
  · exact List.mem_singleton.mpr (hone i (lt_of_vector_getElem?_some hi) hi)
  · rw [List.mem_singleton.mp hi]
    exact hr

end Sys2Proof.Machine
end

section
/-! SUPPORT. build(F) as a function on collections (R130, R132): one merge, what it keeps, and what the whole merge of a
collection gives. -/

namespace Sys2Proof.Machine

/-! ## Trees -/

/-- Every internal node has exactly two children (R132). -/
theorem Tree.nodes_succ (T : Tree) : T.nodes + 1 = 2 * T.symbols.length := by
  induction T with
  | leaf => rfl
  | internal w l r ihl ihr =>
    rw [Tree.nodes, Tree.symbols, List.length_append]
    omega

/-- The deepest leaf lies at most one level down per other leaf (R132). -/
theorem Tree.depth_succ_le (T : Tree) : T.depth + 1 ≤ T.symbols.length := by
  induction T with
  | leaf => exact Nat.le_refl 1
  | internal w l r ihl ihr =>
    rw [Tree.depth, Tree.symbols, List.length_append]
    omega

/-! ## Collections -/

/-- The weights of a collection's members, summed. -/
def totalWeight (c : List Item) : Nat := (c.map fun x => x.2.weight).sum

/-- The symbols on the leaves of a collection's members. -/
def allSymbols (c : List Item) : List Symbol := c.flatMap fun x => x.2.symbols

/-- A collection as the TreeBuilder keeps it: in ascending order of the records, all below NEXT = n. -/
structure Collection (n : Nat) (c : List Item) : Prop where
  ascending : (c.map Prod.fst).Pairwise (· < ·)
  below : ∀ x ∈ c, x.1 < n

theorem totalWeight_of_perm {c d : List Item} (h : c.Perm d) : totalWeight c = totalWeight d := (h.map _).sum_nat

theorem totalWeight_cons (x : Item) (c : List Item) : totalWeight (x :: c) = x.2.weight + totalWeight c := List.sum_cons

/-- The collection without the member a, as the merge removes it. -/
def without (a : Item) (c : List Item) : List Item := c.filter fun x => decide (x.1 ≠ a.1)

theorem mem_of_mem_without {a x : Item} {c : List Item} (h : x ∈ without a c) : x ∈ c := (List.mem_filter.mp h).1

theorem map_fst_without (a : Item) (c : List Item) :
    (without a c).map Prod.fst = (c.map Prod.fst).filter fun i => decide (i ≠ a.1) := by
  rw [List.filter_map]
  rfl

theorem Collection.without {n : Nat} {c : List Item} (h : Collection n c) (a : Item) : Collection n (without a c) where
  ascending := h.ascending.sublist (List.filter_sublist.map Prod.fst)
  below := fun x hx => h.below x (mem_of_mem_without hx)

/-- No two members share a record, so that taking one away takes nothing else. -/
theorem perm_cons_without {a : Item} {c : List Item} (hc : (c.map Prod.fst).Pairwise (· < ·)) (ha : a ∈ c) :
    c.Perm (a :: without a c) := by
  induction c with
  | nil => cases ha
  | cons x c ih =>
    rw [List.map_cons, List.pairwise_cons] at hc
    obtain ⟨hlt, hc⟩ := hc
    have hx : ∀ y ∈ c, x.1 < y.1 := fun y hy => hlt _ (List.mem_map_of_mem hy)
    rcases List.mem_cons.mp ha with rfl | ha
    · have hrest : without a (a :: c) = c := by
        rw [without, List.filter_cons_of_neg (by simp)]
        exact List.filter_eq_self.mpr fun y hy => decide_eq_true (hx y hy).ne'
      rw [hrest]
    · have hrest : without a (x :: c) = x :: without a c :=
        List.filter_cons_of_pos (decide_eq_true (hx a ha).ne)
      rw [hrest]
      exact ((ih hc ha).cons x).trans (.swap a x _)

/-! ## The least key -/

/-- The member a comparison of keys keeps. -/
def lesserItem (m y : Item) : Item := if keyLt (itemKey y) (itemKey m) then y else m

theorem leastItem_cons (x : Item) (c : List Item) : leastItem (x :: c) = some (c.foldl lesserItem x) := rfl

/-- The scan for the least member is the scan for the least key (R134). -/
theorem itemKey_foldl_lesserItem (x : Item) (c : List Item) :
    itemKey (c.foldl lesserItem x) = (c.map itemKey).foldl keyMin (itemKey x) := by
  rw [List.foldl_map]
  refine (List.foldl_hom itemKey fun m y => ?_).symm
  rw [keyMin, lesserItem]
  split <;> rfl

theorem mem_of_leastItem {c : List Item} {a : Item} (h : leastItem c = some a) : a ∈ c := by
  have hfold : ∀ (c : List Item) (x : Item), c.foldl lesserItem x ∈ x :: c := by
    intro c
    induction c with
    | nil => exact fun x => List.mem_cons_self
    | cons y c ih =>
      intro x
      rcases List.mem_cons.mp (ih (lesserItem x y)) with h | h
      · rw [List.foldl_cons, h, lesserItem]
        split <;> simp
      · exact List.mem_cons_of_mem _ (List.mem_cons_of_mem _ h)
  cases c with
  | nil => cases h
  | cons x c =>
    rw [leastItem_cons, Option.some.injEq] at h
    exact h ▸ hfold c x

theorem exists_leastItem {c : List Item} (h : c ≠ []) : ∃ a, leastItem c = some a := by
  obtain ⟨x, c, rfl⟩ := List.exists_cons_of_ne_nil h
  exact ⟨_, leastItem_cons x c⟩

/-! ## One merge (R130, R134) -/

/-- a and b are the members removed first and second. -/
structure LightestTwo (c : List Item) (a b : Item) : Prop where
  first : leastItem c = some a
  second : leastItem (without a c) = some b

/-- The collection after the merge of a and b into the record n. -/
def merged (n : Nat) (a b : Item) (c : List Item) : List Item :=
  without b (without a c) ++ [(n, .internal (a.2.weight + b.2.weight) a.2 b.2)]

theorem merged_perm (n : Nat) (a b : Item) (c : List Item) :
    (merged n a b c).Perm ((n, .internal (a.2.weight + b.2.weight) a.2 b.2) :: without b (without a c)) :=
  List.perm_append_singleton _ _

theorem merged_ne_nil (n : Nat) (a b : Item) (c : List Item) : merged n a b c ≠ [] :=
  List.append_ne_nil_of_right_ne_nil _ (List.cons_ne_nil _ _)

/-- The one member a last merge leaves is the one it made. -/
theorem fst_of_merged_eq_singleton {n : Nat} {a b x : Item} {c : List Item} (h : merged n a b c = [x]) : x.1 = n := by
  have hmem := (merged_perm n a b c).mem_iff.mpr List.mem_cons_self
  rw [h, List.mem_singleton] at hmem
  rw [← hmem]

theorem LightestTwo.perm {n : Nat} {c : List Item} {a b : Item} (h : LightestTwo c a b) (hc : Collection n c) :
    c.Perm (a :: b :: without b (without a c)) :=
  (perm_cons_without hc.ascending (mem_of_leastItem h.first)).trans
    ((perm_cons_without (hc.without a).ascending (mem_of_leastItem h.second)).cons a)

/-- A collection of at least two members can be merged. -/
theorem exists_lightestTwo {n : Nat} {c : List Item} (hc : Collection n c) (hlen : 2 ≤ c.length) :
    ∃ a b, LightestTwo c a b := by
  obtain ⟨a, ha⟩ := exists_leastItem (c := c) (by rintro rfl; simp at hlen)
  have hperm := (perm_cons_without hc.ascending (mem_of_leastItem ha)).length_eq
  rw [List.length_cons] at hperm
  obtain ⟨b, hb⟩ := exists_leastItem (c := without a c) fun h => by rw [h, List.length_nil] at hperm; omega
  exact ⟨a, b, ha, hb⟩

/-- A merge puts the new record, above every other, last. -/
theorem Collection.merged {n : Nat} {c : List Item} (hc : Collection n c) (a b : Item) :
    Collection (n + 1) (merged n a b c) where
  ascending := by
    have hrest := (hc.without a).without b
    rw [Machine.merged, List.map_append, List.map_singleton]
    refine List.pairwise_append.mpr ⟨hrest.ascending, List.pairwise_singleton _ _, fun i hi j hj => ?_⟩
    obtain ⟨x, hx, rfl⟩ := List.mem_map.mp hi
    rw [List.mem_singleton.mp hj]
    exact hrest.below x hx
  below := by
    intro x hx
    rcases List.mem_append.mp hx with hx | hx
    · exact Nat.lt_succ_of_lt (((hc.without a).without b).below x hx)
    · rw [List.mem_singleton.mp hx]
      exact Nat.lt_succ_self n

section
variable {n : Nat} {c : List Item} {a b : Item} (hc : Collection n c) (hab : LightestTwo c a b)
include hc hab

theorem length_merged : (merged n a b c).length + 1 = c.length := by
  rw [(hab.perm hc).length_eq, merged, List.length_append]
  rfl

/-- "weight = sum" (R130): a merge keeps the sum of all weights. -/
theorem totalWeight_merged : totalWeight (merged n a b c) = totalWeight c := by
  rw [totalWeight_of_perm (hab.perm hc), totalWeight_of_perm (merged_perm n a b c), totalWeight_cons, totalWeight_cons,
    totalWeight_cons, Tree.weight]
  omega

/-- Two members weigh no more than all of them. -/
theorem weight_add_weight_le : a.2.weight + b.2.weight ≤ totalWeight c := by
  rw [totalWeight_of_perm (hab.perm hc), totalWeight_cons, totalWeight_cons]
  omega

/-- A merge loses no leaf and adds none. -/
theorem allSymbols_merged : (allSymbols (merged n a b c)).Perm (allSymbols c) := by
  refine ((merged_perm n a b c).flatMap_right _).trans (.trans ?_ ((hab.perm hc).flatMap_right _).symm)
  simp only [List.flatMap_cons, Tree.symbols, List.append_assoc, List.Perm.refl]

end

/-! ## The whole merge -/

/-- A collection with a member is the root alone or can be merged. -/
theorem eq_singleton_or_lightestTwo {n : Nat} {c : List Item} (hc : Collection n c) (hne : c ≠ []) :
    (∃ x, c = [x]) ∨ ∃ a b, LightestTwo c a b := by
  rcases Nat.lt_or_ge c.length 2 with hone | hmany
  · have hpos := List.length_pos_of_ne_nil hne
    exact .inl (List.length_eq_one_iff.mp (by omega))
  · exact .inr (exists_lightestTwo hc hmany)

theorem mergeAll_singleton (k n : Nat) (x : Item) : mergeAll k n [x] = some x := by
  rw [mergeAll]

/-- `mergeAll` begins with the merge of the two lightest. -/
theorem mergeAll_succ {k n : Nat} {c : List Item} {a b : Item} (h : LightestTwo c a b) :
    mergeAll (k + 1) n c = mergeAll k (n + 1) (merged n a b c) := by
  obtain ⟨ha, hb⟩ := h
  rw [without] at hb
  rw [mergeAll]
  · simp only [ha, hb]
    rfl
  · rintro x rfl
    cases ha
    simp [leastItem] at hb

/-- What the merge of a whole collection gives (R130, R132): one tree with all the weight and all the leaves, its
root in the last record made. -/
theorem mergeAll_spec {n k : Nat} {c : List Item} (hc : Collection n c) (hne : c ≠ []) (hk : c.length ≤ k + 1) :
    ∃ x, mergeAll k n c = some x ∧ x.2.weight = totalWeight c ∧ x.2.symbols.Perm (allSymbols c) ∧
      (c = [x] ∨ x.1 + 2 = n + c.length) := by
  rcases eq_singleton_or_lightestTwo hc hne with ⟨x, rfl⟩ | ⟨a, b, hab⟩
  · refine ⟨x, mergeAll_singleton k n x, List.sum_singleton.symm, ?_, .inl rfl⟩
    rw [allSymbols, List.flatMap_singleton]
  · have hlen := length_merged hc hab
    have hne' := merged_ne_nil n a b c
    have hpos := List.length_pos_of_ne_nil hne'
    obtain ⟨k, rfl⟩ : ∃ j, k = j + 1 := ⟨k - 1, by omega⟩
    obtain ⟨x, hx, hweight, hsymbols, hroot⟩ := mergeAll_spec (k := k) (hc.merged a b) hne' (by omega)
    refine ⟨x, (mergeAll_succ hab).trans hx, hweight.trans (totalWeight_merged hc hab),
      hsymbols.trans (allSymbols_merged hc hab), .inr ?_⟩
    rcases hroot with hroot | hroot
    · have hn := fst_of_merged_eq_singleton hroot
      rw [hroot, List.length_singleton] at hlen
      omega
    · omega
termination_by c.length

/-! ## The leaves (R130, R133) -/

/-- The symbols that occur, ascending. -/
def occurring (f : Vector Nat 257) : List Nat := (List.range 257).filter (occurs f)

/-- The member for the symbol i: a leaf with its count. -/
def leafItem (f : Vector Nat 257) (i : Nat) : Item := (i, .leaf (BitVec.ofNat 9 i) (f[i]?.getD 0))

theorem mem_occurring {f : Vector Nat 257} {i : Nat} : i ∈ occurring f ↔ occurs f i = true := by
  rw [occurring, List.mem_filter, List.mem_range]
  exact and_iff_right_of_imp lt_of_occurs

theorem pairwise_occurring (f : Vector Nat 257) : (occurring f).Pairwise (· < ·) :=
  List.pairwise_lt_range.sublist List.filter_sublist

theorem leafItems_eq (f : Vector Nat 257) : leafItems f = (occurring f).map (leafItem f) := by
  rw [occurring, ← List.filterMap_eq_map, List.filterMap_filter]
  simp only [occurs, decide_eq_true_eq]
  rfl

theorem map_fst_leafItems (f : Vector Nat 257) : (leafItems f).map Prod.fst = occurring f := by
  rw [leafItems_eq, List.map_map]
  exact List.map_id _

theorem collection_leafItems (f : Vector Nat 257) : Collection 257 (leafItems f) where
  ascending := by
    rw [map_fst_leafItems]
    exact pairwise_occurring f
  below := fun x hx =>
    lt_of_occurs (mem_occurring.mp (map_fst_leafItems f ▸ List.mem_map_of_mem (f := Prod.fst) hx))

theorem length_leafItems_le (f : Vector Nat 257) : (leafItems f).length ≤ 257 :=
  (List.length_filterMap_le _ _).trans_eq List.length_range

/-- The leaves weigh what all counts sum to: a count of 0 adds nothing (R132). -/
theorem totalWeight_leafItems (f : Vector Nat 257) : totalWeight (leafItems f) = freqTotal f := by
  have hsum : ∀ l : List Nat,
      (((l.filter (occurs f)).map (leafItem f)).map fun x => x.2.weight).sum = (l.map fun i => f[i]?.getD 0).sum := by
    intro l
    induction l with
    | nil => rfl
    | cons i l ih =>
      by_cases h : occurs f i = true
      · simp only [List.filter_cons_of_pos h, List.map_cons, List.sum_cons, ih]
        rfl
      · have hzero : f[i]?.getD 0 = 0 := by simpa [occurs] using h
        rw [List.filter_cons_of_neg h, ih, List.map_cons, List.sum_cons, hzero, Nat.zero_add]
  have hlist : (List.range 257).map (fun i => f[i]?.getD 0) = f.toList := by
    refine List.ext_getElem (by simp) fun i hi hi' => ?_
    rw [List.length_map, List.length_range] at hi
    simp [Vector.getElem?_eq_getElem hi]
  rw [totalWeight, leafItems_eq, occurring, hsum, hlist, freqTotal]

theorem allSymbols_leafItems (f : Vector Nat 257) :
    allSymbols (leafItems f) = (occurring f).map (BitVec.ofNat 9) := by
  rw [leafItems_eq, allSymbols, List.flatMap_map]
  exact List.flatMap_pure_eq_map _ _

theorem length_allSymbols_leafItems (f : Vector Nat 257) :
    (allSymbols (leafItems f)).length = (leafItems f).length := by
  rw [allSymbols_leafItems, List.length_map, ← map_fst_leafItems, List.length_map]

/-- The symbols on the leaves are those that occur. -/
theorem mem_allSymbols_leafItems {f : Vector Nat 257} {x : Symbol} :
    x ∈ allSymbols (leafItems f) ↔ ∃ c, f[x.toNat]? = some c ∧ 0 < c := by
  rw [allSymbols_leafItems, List.mem_map, ← occurs_iff]
  constructor
  · rintro ⟨i, hi, rfl⟩
    have hocc := mem_occurring.mp hi
    have hlt := lt_of_occurs hocc
    rwa [BitVec.toNat_ofNat, Nat.mod_eq_of_lt (by omega)]
  · exact fun h => ⟨x.toNat, mem_occurring.mpr h, by simp⟩

/-- "The terminator symbol is always present" (R132). -/
theorem mem_map_fst_leafItems_of_terminator {f : Vector Nat 257} (hf : f[256]? = some 1) :
    256 ∈ (leafItems f).map Prod.fst := by
  rw [map_fst_leafItems]
  exact mem_occurring.mpr (occurs_iff.mpr ⟨1, hf, Nat.one_pos⟩)

/-- "The collection always starts non-empty" (R132). -/
theorem leafItems_ne_nil {f : Vector Nat 257} (hf : f[256]? = some 1) : leafItems f ≠ [] := fun h => by
  have hterm := mem_map_fst_leafItems_of_terminator hf
  rw [h] at hterm
  cases hterm

/-- What build(F) gives on a table with the terminator's count (R130, R132, R135). -/
theorem build_spec {f : Vector Nat 257} (hf : f[256]? = some 1) :
    ∃ x, build f = some x ∧ x.1 = 255 + (leafItems f).length ∧ x.2.weight = freqTotal f ∧
      x.2.symbols.Perm (allSymbols (leafItems f)) := by
  obtain ⟨x, hx, hweight, hsymbols, hroot⟩ := mergeAll_spec (k := 257) (collection_leafItems f) (leafItems_ne_nil hf)
    (Nat.le_succ_of_le (length_leafItems_le f))
  refine ⟨x, hx, ?_, hweight.trans (totalWeight_leafItems f), hsymbols⟩
  rcases hroot with hroot | hroot
  · have hterm := mem_map_fst_leafItems_of_terminator hf
    rw [hroot, List.map_singleton, List.mem_singleton] at hterm
    rw [hroot, List.length_singleton, ← hterm]
  · omega

end Sys2Proof.Machine
end

section
/-! SUPPORT. The TreeBuilder builds build(FREQ) (R130, R132): the trees NODE holds, the collection ACTIVE stands
for, and the run of merges as the merge of that collection. -/

namespace Sys2Proof.Machine

/-! ## Equality outside the tables -/

section
variable {s t : State} (h : t.sameOutside s)
include h

theorem State.sameOutside.par_eq : t.par = s.par :=
  show (dropTables t).par = (dropTables s).par from congrArg State.par h

theorem State.sameOutside.outBits_eq : t.outBits = s.outBits :=
  show (dropTables t).outBits = (dropTables s).outBits from congrArg State.outBits h

theorem State.sameOutside.rp_eq : t.rp = s.rp :=
  show (dropTables t).rp = (dropTables s).rp from congrArg State.rp h

theorem State.sameOutside.trace_eq : t.trace = s.trace :=
  show (dropTables t).trace = (dropTables s).trace from congrArg State.trace h

/-- With the tables aside, the core is in the same command. -/
theorem State.sameOutside.inCommand {ph : Phase} (hs : s.inCommand ph) : t.inCommand ph where
  noReset := (congrArg State.rst h).trans hs.noReset
  ready := (congrArg State.ioReady h).trans hs.ready
  busy := (congrArg State.st h).trans hs.busy
  inPhase := (congrArg State.phase h).trans hs.inPhase

theorem State.sameOutside.withPhase (ph : Phase) :
    State.sameOutside { t with phase := ph } { s with phase := ph } := by
  have hph := congrArg (fun u : State => { u with phase := ph }) (show dropTables t = dropTables s from h)
  exact hph

end

/-! ## Trees in NODE (R30) -/

/-- NODE holds the tree at record i, in records below n. -/
def Stored (node : Vector (Option Node) 513) (n : Nat) : Tree → Nat → Prop
  | .leaf x w, i => i < n ∧ node[i]? = some (some (.leaf x w))
  | .internal w a b, i =>
    i < n ∧ ∃ l r, node[i]? = some (some (.internal w l r)) ∧ Stored node n a l ∧ Stored node n b r

theorem Stored.lt {node : Vector (Option Node) 513} {n i : Nat} {T : Tree} (h : Stored node n T i) : i < n := by
  cases T <;> exact h.1

/-- A stored tree's root record has the tree's weight. -/
theorem Stored.exists_node {node : Vector (Option Node) 513} {n i : Nat} {T : Tree} (h : Stored node n T i) :
    ∃ x, node[i]? = some (some x) ∧ x.weight = T.weight := by
  cases T with
  | leaf => exact ⟨_, h.2, rfl⟩
  | internal =>
    obtain ⟨-, l, r, hi, -, -⟩ := h
    exact ⟨_, hi, rfl⟩

theorem Stored.weightAt_eq {s : State} {n i : Nat} {T : Tree} (h : Stored s.node n T i) : weightAt s i = T.weight := by
  obtain ⟨x, hx, hw⟩ := h.exists_node
  exact (weightAt_of_node hx).trans hw

/-- A stored tree is tree(NODE, i), read with enough depth. -/
theorem Stored.treeOf_eq {node : Vector (Option Node) 513} {n i k : Nat} {T : Tree} (h : Stored node n T i)
    (hk : T.depth < k) : treeOf node k i = some T := by
  induction T generalizing i k with
  | leaf x w =>
    obtain ⟨-, hi⟩ := h
    cases k with
    | zero => cases hk
    | succ k => simp only [treeOf, hi]
  | internal w a b iha ihb =>
    obtain ⟨-, l, r, hi, ha, hb⟩ := h
    cases k with
    | zero => cases hk
    | succ k =>
      rw [Tree.depth] at hk
      simp only [treeOf, hi, iha ha (by omega : a.depth < k), ihb hb (by omega : b.depth < k)]

/-- A write of record n leaves the trees below n as they were. -/
theorem Stored.setIfInBounds {node : Vector (Option Node) 513} {n i : Nat} {T : Tree} (x : Option Node)
    (h : Stored node n T i) : Stored (node.setIfInBounds n x) (n + 1) T i := by
  induction T generalizing i with
  | leaf =>
    obtain ⟨hlt, hi⟩ := h
    exact ⟨Nat.lt_succ_of_lt hlt, by rwa [Vector.getElem?_setIfInBounds_ne hlt.ne']⟩
  | internal w a b iha ihb =>
    obtain ⟨hlt, l, r, hi, ha, hb⟩ := h
    exact ⟨Nat.lt_succ_of_lt hlt, l, r, by rwa [Vector.getElem?_setIfInBounds_ne hlt.ne'], iha ha, ihb hb⟩

/-! ## The collection in NODE, ACTIVE and NEXT -/

/-- The machine's tables stand for the collection c with NEXT = n: the members of ACTIVE are its records, and NODE holds
its trees. -/
structure State.collects (s : State) (n : Nat) (c : List Item) : Prop where
  members : ∃ act, s.active = some act ∧ activeIndices act = c.map Prod.fst
  next : s.nextIdx = some n
  stored : ∀ x ∈ c, Stored s.node n x.2 x.1

theorem State.collects.collection {s : State} {n : Nat} {c : List Item} (h : s.collects n c) : Collection n c where
  ascending := by
    obtain ⟨act, -, hact⟩ := h.members
    exact hact ▸ sorted_onesFrom 0 act.toList
  below := fun x hx => (h.stored x hx).lt

/-- In C_MERGE the collection's tables are live (R40). -/
theorem State.collects.expire {s : State} {n : Nat} {c : List Item} (h : s.collects n c) (hph : s.phase = .cMerge) :
    (expire s).collects n c := by
  have hnode : (Machine.expire s).node = s.node := keep_of_mem (by rw [hph]; decide)
  have hactive : (Machine.expire s).active = s.active := keep_of_mem (by rw [hph]; decide)
  have hnext : (Machine.expire s).nextIdx = s.nextIdx := keep_of_mem (by rw [hph]; decide)
  obtain ⟨hm, hn, hs⟩ := h
  exact ⟨hactive ▸ hm, hnext ▸ hn, hnode ▸ hs⟩

/-- TB_INIT leaves the collection of leaves (R133). -/
theorem collects_afterTbInit (s : State) (f : Vector Nat 257) : (afterTbInit f s).collects 257 (leafItems f) where
  members := by
    refine ⟨_, rfl, ?_⟩
    rw [map_fst_leafItems]
    refine activeIndices_eq_of_mem (pairwise_occurring f) fun i => ?_
    rw [mem_occurring]
    constructor
    · intro h
      rw [getElem?_leafMembers (lt_of_vector_getElem?_some h)] at h
      exact Option.some.inj h
    · intro h
      have hlt := lt_of_occurs h
      rw [getElem?_leafMembers (by omega), h]
  next := rfl
  stored := by
    intro x hx
    rw [leafItems_eq, List.mem_map] at hx
    obtain ⟨i, hi, rfl⟩ := hx
    have hocc := mem_occurring.mp hi
    obtain ⟨c, hc, hpos⟩ := occurs_iff.mp hocc
    refine ⟨lt_of_occurs hocc, ?_⟩
    rw [hc]
    exact getElem?_leafRecords_of_pos _ hc hpos

/-! ## One step of C_MERGE -/

/-- argmin over ACTIVE finds the least member of the collection (R131, R134). -/
theorem lightest_of_leastItem {s : State} {n : Nat} {act : Vector Bool 513} {c : List Item} {a : Item}
    (hact : activeIndices act = c.map Prod.fst) (hst : ∀ x ∈ c, Stored s.node n x.2 x.1) (h : leastItem c = some a) :
    lightest s act = .next a.1 := by
  have hkeys : keysOf s (activeIndices act) = .next (c.map itemKey) := by
    rw [keysOf_eq_next, hact, List.forall_mem_map, List.map_map]
    refine ⟨fun x hx => ?_, List.map_congr_left fun x hx => ?_⟩
    · obtain ⟨y, hy, -⟩ := (hst x hx).exists_node
      exact ⟨y, hy⟩
    · rw [Function.comp_apply, keyAt, (hst x hx).weightAt_eq, itemKey]
  cases c with
  | nil => cases h
  | cons x c =>
    rw [leastItem_cons, Option.some.injEq] at h
    rw [lightest, hkeys, chain_next, List.map_cons, ← h]
    simp only [← itemKey_foldl_lesserItem]
    rfl

/-- TB_MERGE on the machine is one merge of the collection (R134). -/
theorem exec_tbMerge_of_collects {s : State} {n : Nat} {c : List Item} {a b : Item} (hs : s.collects n c)
    (hab : LightestTwo c a b) (hn : n < 513) (hw : totalWeight c < 2 ^ s.par.weightW) :
    ∃ t, exec .tbMerge s = .next t ∧ t.collects (n + 1) (merged n a b c) ∧
      t.sameOutside { s with phase := .cMerge } := by
  have hc := hs.collection
  obtain ⟨act, hactive, hact⟩ := hs.members
  have hact' : activeIndices (act.setIfInBounds a.1 false) = (without a c).map Prod.fst := by
    rw [activeIndices_setIfInBounds_false, hact, map_fst_without]
  have hact'' : activeIndices ((act.setIfInBounds a.1 false).setIfInBounds b.1 false) =
      (without b (without a c)).map Prod.fst := by
    rw [activeIndices_setIfInBounds_false, hact', ← map_fst_without b]
  have hsta := hs.stored a (mem_of_leastItem hab.first)
  have hstb := hs.stored b (mem_of_mem_without (mem_of_leastItem hab.second))
  have hla := lightest_of_leastItem hact hs.stored hab.first
  have hlb := lightest_of_leastItem hact' (fun x hx => hs.stored x (mem_of_mem_without hx)) hab.second
  have hle := weight_add_weight_le hc hab
  have hfits : weightAt s a.1 + weightAt s b.1 < 2 ^ s.par.weightW := by
    rw [hsta.weightAt_eq, hstb.weightAt_eq]
    omega
  refine ⟨_, exec_tbMerge_of_lightest hactive hla hlb hs.next hn hfits, ⟨⟨_, rfl, ?_⟩, rfl, fun x hx => ?_⟩, rfl⟩
  · have hrest := (hc.without a).without b
    rw [mergedActive, activeIndices_setIfInBounds_true hn, hact'', merged, List.map_append, List.map_singleton]
    rw [hact'', List.forall_mem_map]
    exact hrest.below
  · rcases List.mem_append.mp hx with hx | hx
    · exact (hs.stored x (mem_of_mem_without (mem_of_mem_without hx))).setIfInBounds _
    · rw [List.mem_singleton.mp hx]
      refine ⟨Nat.lt_succ_self n, a.1, b.1, ?_, hsta.setIfInBounds _, hstb.setIfInBounds _⟩
      rw [mergedNode, Vector.getElem?_setIfInBounds_self_of_lt hn, hsta.weightAt_eq, hstb.weightAt_eq]

/-- What the step of C_MERGE selects, by the size of the collection (R104). -/
theorem select_of_collects {s : State} {n : Nat} {c : List Item} (hs : s.collects n c) (hph : s.phase = .cMerge) :
    (2 ≤ c.length → select s = .next (.many, s)) ∧ (c.length = 1 → select s = .next (.one, s)) := by
  obtain ⟨act, hactive, hact⟩ := hs.members
  have hcount : countActive act = c.length := by rw [countActive, hact, List.length_map]
  simp only [select, hph, hactive, need_some, chain_next, hcount]
  exact ⟨fun h => if_pos h, fun h => by rw [if_neg (by omega), if_pos h]⟩

/-- Where the collection has two members or more, the step of C_MERGE is one merge. -/
theorem step_merges {s : State} {n : Nat} {c : List Item} {a b : Item} (h : s.inCommand .cMerge) (hs : s.collects n c)
    (hab : LightestTwo c a b) (hn : n < 513) (hw : totalWeight c < 2 ^ s.par.weightW) :
    ∃ t, step s = .next t ∧ t.collects (n + 1) (merged n a b c) ∧ t.sameOutside s := by
  have hs' := hs.expire h.inPhase
  have hlen := length_merged hs.collection hab
  have hpos := List.length_pos_of_ne_nil (merged_ne_nil n a b c)
  obtain ⟨t, ht, hc, hout⟩ := exec_tbMerge_of_collects hs' hab hn hw
  refine ⟨t, (step_of_select h ((select_of_collects hs' h.inPhase).1 (by omega)) rfl).trans ht, hc, hout.trans ?_⟩
  rw [← h.inPhase]
  rfl

/-- Where the collection has one member, the step of C_MERGE makes it the root (R135). -/
theorem step_takes_root {s : State} {n : Nat} {x : Item} (h : s.inCommand .cMerge) (hs : s.collects n [x]) :
    ∃ t, step s = .next t ∧ t.root = some x.1 ∧ t.nextIdx = some n ∧ Stored t.node n x.2 x.1 ∧
      t.sameOutside { s with phase := .cCginit } := by
  have hs' := hs.expire h.inPhase
  obtain ⟨act, hactive, hact⟩ := hs'.members
  have hsel := (select_of_collects hs' h.inPhase).2 rfl
  exact ⟨_, (step_of_select h hsel rfl).trans (exec_tbRoot hactive hact), rfl, hs'.next,
    hs'.stored x (List.mem_singleton.mpr rfl), rfl⟩

/-! ## The run -/

/-- From C_MERGE with the collection c the machine ends, after one step per member, with the tree `mergeAll` gives; m is
where NEXT ends. -/
theorem run_merges {s : State} {n k m : Nat} {c : List Item} (h : s.inCommand .cMerge) (hs : s.collects n c)
    (hne : c ≠ []) (hk : c.length ≤ k + 1) (hm : n + c.length = m + 1) (hcap : m ≤ 513)
    (hw : totalWeight c < 2 ^ s.par.weightW) :
    ∃ t x, run c.length s = .next t ∧ mergeAll k n c = some x ∧ t.root = some x.1 ∧ t.nextIdx = some m ∧
      Stored t.node m x.2 x.1 ∧ t.sameOutside { s with phase := .cCginit } := by
  have hc := hs.collection
  rcases eq_singleton_or_lightestTwo hc hne with ⟨x, rfl⟩ | ⟨a, b, hab⟩
  · obtain rfl : n = m := Nat.succ.inj hm
    obtain ⟨t, ht, hfinal⟩ := step_takes_root h hs
    exact ⟨t, x, (run_one s).trans ht, mergeAll_singleton k n x, hfinal⟩
  · have hlen := length_merged hc hab
    have hne' := merged_ne_nil n a b c
    have hpos := List.length_pos_of_ne_nil hne'
    obtain ⟨k, rfl⟩ : ∃ j, k = j + 1 := ⟨k - 1, by omega⟩
    obtain ⟨s', hstep, hs', hout⟩ := step_merges h hs hab (by omega) hw
    rw [← hout.par_eq, ← totalWeight_merged hc hab] at hw
    obtain ⟨t, x, hrun, hx, hroot, hnext, hst, hout'⟩ :=
      run_merges (k := k) (hout.inCommand h) hs' hne' (by omega) (by omega) hcap hw
    refine ⟨t, x, ?_, (mergeAll_succ hab).trans hx, hroot, hnext, hst, hout'.trans (hout.withPhase .cCginit)⟩
    rw [← hlen]
    exact (run_succ_of_step hstep).trans hrun
termination_by c.length

/-- Settles O18: TB_INIT makes the collection of leaves, `run_merges` builds its tree, and `build_spec` says what that is. -/
theorem treeBuilderBuildsTheTree : Obligations.TreeBuilderBuildsTheTree := by
  intro s f h hf hterm hfits
  have hle := length_leafItems_le f
  have hfreq : (expire s).freq = some f := (keep_of_mem (by rw [h.inPhase]; decide)).trans hf
  have hstep : step s = .next (afterTbInit f (expire s)) :=
    (step_of_always h (by decide) rfl).trans (exec_tbInit hfreq)
  have hinit : (afterTbInit f (expire s)).inCommand .cMerge := ⟨h.noReset, h.ready, h.busy, rfl⟩
  obtain ⟨t, x, hrun, hx, hroot, hnext, hst, hout⟩ :=
    run_merges (k := 257) (m := 256 + (leafItems f).length) hinit (collects_afterTbInit (expire s) f)
      (leafItems_ne_nil hterm) (by omega) (by omega) (by omega) (by rwa [totalWeight_leafItems])
  have hsame : t.sameOutside { s with phase := .cCginit } := hout
  obtain ⟨y, hy, hindex, hweight, hsymbols⟩ := build_spec hterm
  obtain rfl : x = y := Option.some.inj (hx.symm.trans hy)
  have hleaves := hsymbols.length_eq.trans (length_allSymbols_leafItems f)
  have hnodes := Tree.nodes_succ x.2
  have hdepth := Tree.depth_succ_le x.2
  rw [hleaves] at hnodes hdepth
  exact ⟨t, x.1, x.2, (run_succ_of_step hstep).trans hrun, hy, hsame.inCommand ⟨h.noReset, h.ready, h.busy, rfl⟩, hroot,
    hindex, hst.treeOf_eq (by omega), hnext, hweight, hleaves, hnodes, hdepth,
    fun z => hsymbols.mem_iff.trans mem_allSymbols_leafItems, hsame.outBits_eq, hsame.rp_eq, hsame.trace_eq⟩

end Sys2Proof.Machine
end

section
/-! SUPPORT. The CodeTableGenerator's two operations on the tables they read and write (R141, R142). -/

namespace Sys2Proof.Machine

/-! ## Outcomes in sequence -/

/-- A sequence whose first outcome is known goes on from it. -/
theorem chain_of_next {α β : Type} {x : Res α} {f : α → Res β} {a : α} {y : Res β} (hx : x = .next a) (hf : f a = y) :
    chain x f = y := by rw [hx, chain_next, hf]

/-! ## The two pushes (R141, R142) -/

/-- STACK with the edges to a right child r and a left child l pushed at SP = n, the left one last. -/
def withEdges (stack : Vector (Option StackEntry) 257) (n l r depth : Nat) : Vector (Option StackEntry) 257 :=
  (stack.setIfInBounds n (some { node := r, depth := some depth, bit := some true })).setIfInBounds (n + 1)
    (some { node := l, depth := some depth, bit := some false })

theorem pushEdges_of_sp {l r depth n : Nat} {s : State} (hsp : s.sp = some n) (hn : n + 1 < 257) :
    pushEdges l r depth s = .next { s with stack := withEdges s.stack n l r depth, sp := some (n + 2) } :=
  chain_of_next (push_eq_next.mpr ⟨n, hsp, Nat.lt_of_succ_lt hn, rfl⟩) (push_eq_next.mpr ⟨n + 1, rfl, hn, rfl⟩)

/-! ## CG_INIT (R141) -/

/-- The sole leaf of the degenerate tree gets the code `0` (R143). -/
theorem exec_cgInit_of_leaf {s : State} {i w : Nat} {x : Symbol} (hroot : s.root = some i)
    (hnode : s.node[i]? = some (some (.leaf x w))) (hx : x.toNat ≤ 256) :
    exec .cgInit s = .next { s with
      codeLen := (Vector.replicate 257 (some 0)).setIfInBounds x.toNat (some 1)
      codeBits := s.codeBits.setIfInBounds x.toNat (some [false])
      sp := some 0
      phase := .cMagic } := by
  refine chain_of_next (need_eq_next.mpr hroot) ?_
  refine chain_of_next (nodeAt_eq_next.mpr hnode) ?_
  exact chain_of_next (setCode_eq_next.mpr ⟨Nat.lt_succ_of_le hx, rfl⟩) rfl

theorem exec_cgInit_of_internal {s : State} {i w l r : Nat} (hroot : s.root = some i)
    (hnode : s.node[i]? = some (some (.internal w l r))) :
    exec .cgInit s = .next { s with
      codeLen := Vector.replicate 257 (some 0)
      stack := withEdges s.stack 0 l r 1
      sp := some 2
      phase := .cCgen } := by
  refine chain_of_next (need_eq_next.mpr hroot) ?_
  refine chain_of_next (nodeAt_eq_next.mpr hnode) ?_
  exact chain_of_next (pushEdges_of_sp rfl (by decide)) rfl

/-- Settles O19, by the two kinds of root. -/
theorem cgInitStartsTheWalk : Obligations.CgInitStartsTheWalk := by
  have hzero : ∀ j, j < 257 → (Vector.replicate 257 (some 0))[j]? = some (some 0) := fun j hj => by
    rw [Vector.getElem?_replicate, if_pos hj]
  refine ⟨fun _ => rfl, fun s i x w hroot hnode hx => ⟨_, exec_cgInit_of_leaf hroot hnode hx, ?_, fun j hj hne => ?_⟩,
    fun s i w l r hroot hnode => ⟨_, exec_cgInit_of_internal hroot hnode, hzero⟩⟩
  · rw [Vector.getElem?_setIfInBounds_self_of_lt (Nat.lt_succ_of_le hx)]
  · rw [Vector.getElem?_setIfInBounds_ne hne.symm, hzero j hj]

/-! ## PATH (R142) -/

/-- PATH begins with the branches p. -/
def OnPath (path : Vector (Option Bit) 256) (p : Bits) : Prop := ∀ j, j < p.length → path[j]? = some p[j]?

theorem onPath_nil (path : Vector (Option Bit) 256) : OnPath path [] := fun j hj => absurd hj (Nat.not_lt_zero j)

/-- Writing a branch one level deeper lengthens the path by it. -/
theorem OnPath.concat {path : Vector (Option Bit) 256} {p : Bits} (h : OnPath path p) (b : Bit) (hp : p.length < 256) :
    OnPath (path.setIfInBounds p.length (some b)) (p ++ [b]) := by
  intro j hj
  rw [List.length_append, List.length_singleton] at hj
  rcases Nat.lt_succ_iff_lt_or_eq.mp hj with hlt | rfl
  · rw [Vector.getElem?_setIfInBounds_ne hlt.ne', h j hlt, List.getElem?_append_left hlt]
  · rw [Vector.getElem?_setIfInBounds_self_of_lt hp, List.getElem?_concat_length]

/-- A path that PATH begins with is what a read of its length gives. -/
theorem pathBits_of_onPath {s : State} {p : Bits} (h : OnPath s.path p) : pathBits s p.length = .next p := by
  rw [pathBits_eq_next]
  apply List.ext_getElem?
  intro j
  rw [List.getElem?_take, List.getElem?_map]
  split
  next hj =>
    rw [Vector.getElem?_toList, h j hj, List.getElem?_eq_getElem hj]
    rfl
  next hj => rw [List.getElem?_eq_none (Nat.le_of_not_lt hj), Option.map_none]

/-! ## CG_STEP (R142) -/

/-- A leaf's code is the path to it. -/
theorem exec_cgStep_of_leaf {s : State} {k n w : Nat} {b : Bit} {x : Symbol} {p : Bits} (hsp : s.sp = some (k + 1))
    (htop : s.stack[k]? = some (some { node := n, depth := some (p.length + 1), bit := some b }))
    (hnode : s.node[n]? = some (some (.leaf x w))) (hx : x.toNat ≤ 256) (hp : p.length < 256) (hpath : OnPath s.path p) :
    exec .cgStep s = .next { s with
      sp := some k
      path := s.path.setIfInBounds p.length (some b)
      codeLen := s.codeLen.setIfInBounds x.toNat (some (p.length + 1))
      codeBits := s.codeBits.setIfInBounds x.toNat (some (p ++ [b]))
      phase := if k = 0 then .cMagic else .cCgen } := by
  have hlen : (p ++ [b]).length = p.length + 1 := List.length_append
  have hread := pathBits_of_onPath (s := { s with sp := some k, path := s.path.setIfInBounds p.length (some b) })
    (hpath.concat b hp)
  rw [hlen] at hread
  refine chain_of_next (pop_eq_next.mpr ⟨k, hsp, htop, rfl⟩) ?_
  refine chain_of_next (need_some (p.length + 1) .stack) (chain_of_next (need_some b .stack) ?_)
  refine chain_of_next (setPath_eq_next.mpr ⟨hp, rfl⟩) ?_
  refine chain_of_next (nodeAt_eq_next.mpr hnode) ?_
  refine chain_of_next hread ?_
  refine chain_of_next (setCode_eq_next.mpr ⟨Nat.lt_succ_of_le hx, rfl⟩) ?_
  exact walkPhase_eq_next.mpr ⟨k, rfl, rfl⟩

theorem exec_cgStep_of_internal {s : State} {k n d w l r : Nat} {b : Bit} (hsp : s.sp = some (k + 1))
    (htop : s.stack[k]? = some (some { node := n, depth := some (d + 1), bit := some b }))
    (hnode : s.node[n]? = some (some (.internal w l r))) (hd : d < 256) (hk : k + 1 < 257) :
    exec .cgStep s = .next { s with
      sp := some (k + 2)
      path := s.path.setIfInBounds d (some b)
      stack := withEdges s.stack k l r (d + 2)
      phase := .cCgen } := by
  refine chain_of_next (pop_eq_next.mpr ⟨k, hsp, htop, rfl⟩) ?_
  refine chain_of_next (need_some (d + 1) .stack) (chain_of_next (need_some b .stack) ?_)
  refine chain_of_next (setPath_eq_next.mpr ⟨hd, rfl⟩) ?_
  refine chain_of_next (nodeAt_eq_next.mpr hnode) ?_
  refine chain_of_next (pushEdges_of_sp rfl hk) ?_
  exact walkPhase_eq_next.mpr ⟨k + 2, rfl, rfl⟩

/-- Settles O20, by the two kinds of node. -/
theorem cgStepVisitsOneNode : Obligations.CgStepVisitsOneNode := by
  refine ⟨fun _ => rfl, ?_, fun s k n d w l r b hsp htop hnode hd hk => exec_cgStep_of_internal hsp htop hnode hd hk⟩
  rintro s k n _ w b x p hsp htop hnode hx hp rfl hpath
  exact exec_cgStep_of_leaf hsp htop hnode hx hp hpath

end Sys2Proof.Machine
end

section
/-! SUPPORT. The code generation walk leaves codes(T) in CODE_LEN and CODE_BITS (R140, R145): the tree codes as a table, what
the visit of one subtree leaves, and the visits of the whole tree by induction over it. -/

namespace Sys2Proof.Machine

/-! ## codes(T) as a table -/

/-- The table after the writes of the codes c, in order, the entry of a code being its f. -/
def fillTable {α : Type} (f : Bits → α) (c : List (Symbol × Bits)) (t : Vector (Option α) 257) : Vector (Option α) 257 :=
  c.foldl (fun u x => u.setIfInBounds x.1.toNat (some (f x.2))) t

theorem fillTable_append {α : Type} (f : Bits → α) (c c' : List (Symbol × Bits)) (t : Vector (Option α) 257) :
    fillTable f (c ++ c') t = fillTable f c' (fillTable f c t) := List.foldl_append

/-- Where no symbol has two codes, a symbol's entry is made of its code, and stays where it has none. -/
theorem getElem?_fillTable {α : Type} (f : Bits → α) {c : List (Symbol × Bits)} (hc : (c.map Prod.fst).Nodup)
    (t : Vector (Option α) 257) {x : Symbol} (hx : x.toNat ≤ 256) :
    (fillTable f c t)[x.toNat]? = ((c.lookup x).map fun p => some (f p)).or t[x.toNat]? := by
  induction c generalizing t with
  | nil => rfl
  | cons y c ih =>
    rw [List.map_cons, List.nodup_cons] at hc
    obtain ⟨hy, hc⟩ := hc
    refine (ih hc _).trans ?_
    by_cases hxy : x = y.1
    · subst hxy
      have hnone : c.lookup y.1 = none := by
        rw [List.lookup_eq_none_iff]
        exact fun z hz => bne_iff_ne.mpr fun h => hy (List.mem_map.mpr ⟨z, hz, h.symm⟩)
      rw [hnone, List.lookup_cons, beq_self_eq_true, Vector.getElem?_setIfInBounds_self_of_lt (Nat.lt_succ_of_le hx)]
      rfl
    · rw [List.lookup_cons, beq_false_of_ne hxy,
        Vector.getElem?_setIfInBounds_ne fun h => hxy (BitVec.eq_of_toNat_eq h.symm)]

theorem map_fst_codeWalk (T : Tree) (p : Bits) : (codeWalk T p).map Prod.fst = T.symbols := by
  induction T generalizing p with
  | leaf => rfl
  | internal w a b iha ihb => rw [codeWalk, List.map_append, iha, ihb, Tree.symbols]

theorem map_fst_codes (T : Tree) : (codes T).map Prod.fst = T.symbols := by
  cases T with
  | leaf => rfl
  | internal w a b => exact map_fst_codeWalk _ _

theorem exists_lookup_codes {T : Tree} {x : Symbol} (hx : x ∈ T.symbols) : ∃ p, (codes T).lookup x = some p := by
  rw [← Option.ne_none_iff_exists', Ne, List.lookup_eq_none_iff]
  rw [← map_fst_codes, List.mem_map] at hx
  obtain ⟨y, hy, rfl⟩ := hx
  exact fun h => absurd (h y hy) (by simp)

/-! ## Trees in NODE -/

/-- tree(NODE, i) is a tree NODE holds at record i. -/
theorem stored_of_treeOf {node : Vector (Option Node) 513} {k i : Nat} {T : Tree} (h : treeOf node k i = some T) :
    Stored node 513 T i := by
  induction k generalizing i T with
  | zero => cases h
  | succ k ih =>
    rw [treeOf] at h
    split at h
    next x w hi =>
      cases h
      exact ⟨lt_of_vector_getElem?_some hi, hi⟩
    next w l r hi =>
      split at h
      next a b ha hb =>
        cases h
        exact ⟨lt_of_vector_getElem?_some hi, l, r, hi, ih ha, ih hb⟩
      next => cases h
    next => cases h

/-! ## The steps of C_CGINIT and C_CGEN -/

/-- The state with no value in the tables whose lifetime includes neither C_CGINIT nor C_CGEN (R40). -/
def onlyWalkTables (s : State) : State :=
  { s with
    freq := none
    active := none
    nextIdx := none
    dnode := List.replicate s.par.decNodeCap DNode.blank
    dnext := none
    dstack := List.replicate s.par.decNodeCap none
    dsp := none
    cur := none }

theorem expire_of_walk {s : State} (h : s.phase = .cCginit ∨ s.phase = .cCgen) : expire s = onlyWalkTables s := by
  rcases h with h | h <;> simp [expire, onlyWalkTables, keep, lifetime, h]

theorem step_cCginit {s : State} (h : s.inCommand .cCginit) : step s = exec .cgInit (onlyWalkTables s) := by
  rw [step_of_always h (by decide) rfl, expire_of_walk (.inl h.inPhase)]

theorem step_cCgen {s : State} (h : s.inCommand .cCgen) : step s = exec .cgStep (onlyWalkTables s) := by
  rw [step_of_always h (by decide) rfl, expire_of_walk (.inr h.inPhase)]

/-! ## What the visit of a subtree finds and leaves -/

/-- STACK[k] is the edge of branch b that leads, below d branches, to the tree T in NODE. -/
def EdgeTo (stack : Vector (Option StackEntry) 257) (node : Vector (Option Node) 513) (k d : Nat) (b : Bit) (T : Tree) :
    Prop :=
  ∃ i, stack[k]? = some (some { node := i, depth := some (d + 1), bit := some b }) ∧ Stored node 513 T i

/-- The next CG_STEP visits T, over a stack of k entries, its edge of branch b lying below the path p. -/
structure State.awaits (s : State) (k : Nat) (p : Bits) (b : Bit) (T : Tree) : Prop where
  command : s.inCommand .cCgen
  sp : s.sp = some (k + 1)
  top : EdgeTo s.stack s.node k p.length b T
  path : OnPath s.path p

/-- The next CG_STEPs visit the siblings a and b, their edges lying below the path p, over a stack of k entries. -/
structure State.awaitsChildren (s : State) (k : Nat) (p : Bits) (a b : Tree) : Prop where
  command : s.inCommand .cCgen
  sp : s.sp = some (k + 2)
  left : EdgeTo s.stack s.node (k + 1) p.length false a
  right : EdgeTo s.stack s.node k p.length true b
  path : OnPath s.path p

theorem State.awaitsChildren.awaits {s : State} {k : Nat} {p : Bits} {a b : Tree} (h : s.awaitsChildren k p a b) :
    s.awaits (k + 1) p false a :=
  ⟨h.command, h.sp, h.left, h.path⟩

/-- The two edges pushed lead to the two children. -/
theorem edges_withEdges (stack : Vector (Option StackEntry) 257) {node : Vector (Option Node) 513} {k l r : Nat} (d : Nat)
    {a b : Tree} (hk : k + 1 < 257) (ha : Stored node 513 a l) (hb : Stored node 513 b r) :
    EdgeTo (withEdges stack k l r (d + 1)) node (k + 1) d false a ∧
      EdgeTo (withEdges stack k l r (d + 1)) node k d true b := by
  refine ⟨⟨l, ?_, ha⟩, r, ?_, hb⟩
  · rw [withEdges, Vector.getElem?_setIfInBounds_self_of_lt hk]
  · rw [withEdges, Vector.getElem?_setIfInBounds_ne (Nat.succ_ne_self k),
      Vector.getElem?_setIfInBounds_self_of_lt (Nat.lt_of_succ_lt hk)]

/-- t is s after writes of the codes c: of STACK the entries below k and of PATH the d first branches are as they were, and
so is all else but SP and PHASE, and the tables that are not the walk's. -/
structure State.recorded (t s : State) (k d : Nat) (c : List (Symbol × Bits)) : Prop where
  outside : State.sameOutside { t with phase := s.phase } s
  node : t.node = s.node
  root : t.root = s.root
  stack : ∀ j, j < k → t.stack[j]? = s.stack[j]?
  path : ∀ j, j < d → t.path[j]? = s.path[j]?
  codeLen : t.codeLen = fillTable List.length c s.codeLen
  codeBits : t.codeBits = fillTable id c s.codeBits

/-- t is s after the visit of a subtree with the codes c, whose edge lay over a stack of k entries and below d branches. -/
structure State.visited (t s : State) (k d : Nat) (c : List (Symbol × Bits)) : Prop extends t.recorded s k d c where
  sp : t.sp = some k
  phase : t.phase = if k = 0 then .cMagic else .cCgen

theorem State.recorded.mono {s t : State} {k k' d d' : Nat} {c : List (Symbol × Bits)} (h : t.recorded s k' d' c)
    (hk : k ≤ k') (hd : d ≤ d') : t.recorded s k d c :=
  { h with
    stack := fun j hj => h.stack j (hj.trans_le hk)
    path := fun j hj => h.path j (hj.trans_le hd) }

theorem State.recorded.trans {s t u : State} {k d : Nat} {c c' : List (Symbol × Bits)} (hu : u.recorded t k d c')
    (ht : t.recorded s k d c) : u.recorded s k d (c ++ c') where
  outside := (hu.outside.withPhase s.phase).trans ht.outside
  node := hu.node.trans ht.node
  root := hu.root.trans ht.root
  stack j hj := (hu.stack j hj).trans (ht.stack j hj)
  path j hj := (hu.path j hj).trans (ht.path j hj)
  codeLen := by rw [fillTable_append, hu.codeLen, ht.codeLen]
  codeBits := by rw [fillTable_append, hu.codeBits, ht.codeBits]

/-- A visit is the codes written before it and its own. -/
theorem State.visited.after {s t u : State} {k d : Nat} {c c' : List (Symbol × Bits)} (hu : u.visited t k d c')
    (ht : t.recorded s k d c) : u.visited s k d (c ++ c') :=
  ⟨hu.torecorded.trans ht, hu.sp, hu.phase⟩

theorem State.recorded.inCommand {s t : State} {k d : Nat} {c : List (Symbol × Bits)} {ph ph' : Phase}
    (h : t.recorded s k d c) (hs : s.inCommand ph) (hph : t.phase = ph') : t.inCommand ph' := by
  obtain ⟨hreset, hready, hbusy, -⟩ := h.outside.inCommand hs
  exact ⟨hreset, hready, hbusy, hph⟩

/-- After the visit of the left child the walk awaits its sibling. -/
theorem State.visited.awaits {s t : State} {k : Nat} {p : Bits} {a b : Tree} {c : List (Symbol × Bits)}
    (ht : t.visited s (k + 1) p.length c) (h : s.awaitsChildren k p a b) : t.awaits k p true b where
  command := ht.inCommand h.command ht.phase
  sp := ht.sp
  top := by
    obtain ⟨i, hi, hst⟩ := h.right
    exact ⟨i, (ht.stack k (Nat.lt_succ_self k)).trans hi, ht.node ▸ hst⟩
  path j hj := (ht.path j hj).trans (h.path j hj)

/-! ## The run -/

theorem run_add {m n : Nat} {s t : State} (h : run m s = .next t) : run (m + n) s = run n t := by
  induction m generalizing s with
  | zero =>
    cases h
    rw [Nat.zero_add]
  | succ m ih =>
    rw [run_succ, chain_eq_next] at h
    obtain ⟨u, hstep, hu⟩ := h
    rw [Nat.succ_add, run_succ_of_step hstep, ih hu]

/-- What the induction over the tree proves of it: from every state that awaits T the walk visits it, one step per node, and
writes the codes below its path. The bound on k says that the stack holds at most one entry per branch (R145). -/
def WalkVisits (T : Tree) : Prop :=
  ∀ {s : State} {k : Nat} {p : Bits} {b : Bit}, s.awaits k p b T → (∀ x ∈ T.symbols, x.toNat ≤ 256) →
    p.length + T.depth < 256 → k ≤ p.length + 1 →
    ∃ t, run T.nodes s = .next t ∧ t.visited s k p.length (codeWalk T (p ++ [b]))

/-- The left child, visited over its sibling's entry, and then the sibling (R142). -/
theorem run_visits_children {s : State} {k w : Nat} {p : Bits} {a b : Tree} (iha : WalkVisits a) (ihb : WalkVisits b)
    (h : s.awaitsChildren k p a b) (hsym : ∀ x ∈ (Tree.internal w a b).symbols, x.toNat ≤ 256)
    (hd : p.length + (Tree.internal w a b).depth ≤ 256) (hk : k ≤ p.length) :
    ∃ t, run (a.nodes + b.nodes) s = .next t ∧ t.visited s k p.length (codeWalk (.internal w a b) p) := by
  rw [Tree.symbols, List.forall_mem_append] at hsym
  rw [Tree.depth] at hd
  obtain ⟨hsyma, hsymb⟩ := hsym
  obtain ⟨t, hrun, ht⟩ := iha h.awaits hsyma (by omega) (by omega)
  obtain ⟨u, hrun', hu⟩ := ihb (ht.awaits h) hsymb (by omega) (by omega)
  exact ⟨u, (run_add hrun).trans hrun', hu.after (ht.mono (Nat.le_succ k) le_rfl)⟩

/-- The visit of a leaf writes its code (R142). -/
theorem walkVisits_leaf (x : Symbol) (w : Nat) : WalkVisits (.leaf x w) := by
  intro s k p b h hsym hd hk
  obtain ⟨hcmd, hsp, ⟨i, htop, -, hnode⟩, hpath⟩ := h
  have hlen : (p ++ [b]).length = p.length + 1 := List.length_append
  have hstep := (step_cCgen hcmd).trans
    (exec_cgStep_of_leaf hsp htop hnode (hsym x (List.mem_singleton_self x)) (by omega) hpath)
  refine ⟨_, (run_one s).trans hstep, ⟨rfl, rfl, rfl, fun _ _ => rfl, fun j hj => ?_, ?_, rfl⟩, rfl, rfl⟩
  · exact Vector.getElem?_setIfInBounds_ne hj.ne'
  · exact congrArg (fun n => s.codeLen.setIfInBounds x.toNat (some n)) hlen.symm

/-- The step at an internal node writes no code and pushes its children (R142). -/
theorem step_pushes_children {s : State} {k w : Nat} {p : Bits} {bit : Bit} {a b : Tree}
    (h : s.awaits k p bit (.internal w a b)) (hp : p.length < 256) (hk : k + 1 < 257) :
    ∃ t, step s = .next t ∧ t.recorded s k p.length [] ∧ t.awaitsChildren k (p ++ [bit]) a b := by
  obtain ⟨hcmd, hsp, ⟨i, htop, -, l, r, hnode, ha, hb⟩, hpath⟩ := h
  have hlen : (p ++ [bit]).length = p.length + 1 := List.length_append
  refine ⟨_, (step_cCgen hcmd).trans (exec_cgStep_of_internal hsp htop hnode hp hk), ?_, ?_⟩
  · refine ⟨rfl, rfl, rfl, fun j hj => ?_, fun j hj => ?_, rfl, rfl⟩
    · rw [withEdges, Vector.getElem?_setIfInBounds_ne (by omega), Vector.getElem?_setIfInBounds_ne hj.ne']
      rfl
    · exact Vector.getElem?_setIfInBounds_ne hj.ne'
  · obtain ⟨hleft, hright⟩ := edges_withEdges s.stack (p.length + 1) hk ha hb
    exact ⟨⟨hcmd.noReset, hcmd.ready, hcmd.busy, rfl⟩, rfl, hlen ▸ hleft, hlen ▸ hright, hpath.concat bit hp⟩

theorem walkVisits_internal {a b : Tree} (w : Nat) (iha : WalkVisits a) (ihb : WalkVisits b) :
    WalkVisits (.internal w a b) := by
  intro s k p bit h hsym hd hk
  have hlen : (p ++ [bit]).length = p.length + 1 := List.length_append
  have hpos : 0 < (Tree.internal w a b).depth := Nat.succ_pos _
  obtain ⟨t, hstep, ht, hchildren⟩ := step_pushes_children h (by omega) (by omega)
  obtain ⟨u, hrun, hu⟩ := run_visits_children iha ihb hchildren hsym (by omega) (by omega)
  exact ⟨u, (run_succ_of_step hstep).trans hrun,
    ⟨(hu.mono le_rfl (by omega)).trans ht, hu.sp, hu.phase⟩⟩

theorem walkVisits (T : Tree) : WalkVisits T := by
  induction T with
  | leaf x w => exact walkVisits_leaf x w
  | internal w a b iha ihb => exact walkVisits_internal w iha ihb

/-- CG_INIT on an internal root clears CODE_LEN and pushes the root's children (R141). -/
theorem step_starts_walk {s : State} {i w : Nat} {a b : Tree} (h : s.inCommand .cCginit) (hroot : s.root = some i)
    (hT : Stored s.node 513 (.internal w a b) i) :
    ∃ t, step s = .next t ∧ t.recorded { s with codeLen := Vector.replicate 257 (some 0) } 0 0 [] ∧
      t.awaitsChildren 0 [] a b := by
  obtain ⟨-, l, r, hnode, ha, hb⟩ := hT
  obtain ⟨hleft, hright⟩ := edges_withEdges s.stack (k := 0) 0 (by decide) ha hb
  refine ⟨_, (step_cCginit h).trans (exec_cgInit_of_internal hroot hnode), ?_,
    ⟨h.noReset, h.ready, h.busy, rfl⟩, rfl, hleft, hright, onPath_nil _⟩
  exact ⟨rfl, rfl, rfl, fun j hj => absurd hj (Nat.not_lt_zero j), fun j hj => absurd hj (Nat.not_lt_zero j), rfl, rfl⟩

/-- From C_CGINIT the walk of the stored tree T writes codes(T) over a CODE_LEN of zeros (R140, R141). -/
theorem run_writes_codes {s : State} {i : Nat} {T : Tree} (h : s.inCommand .cCginit) (hroot : s.root = some i)
    (hT : Stored s.node 513 T i) (hsym : ∀ x ∈ T.symbols, x.toNat ≤ 256) (hd : T.depth ≤ 256) :
    ∃ t, run T.nodes s = .next t ∧
      t.visited { s with codeLen := Vector.replicate 257 (some 0) } 0 0 (codes T) := by
  cases T with
  | leaf x w =>
    obtain ⟨-, hnode⟩ := hT
    have hstep := (step_cCginit h).trans (exec_cgInit_of_leaf hroot hnode (hsym x (List.mem_singleton_self x)))
    exact ⟨_, (run_one s).trans hstep, ⟨rfl, rfl, rfl, fun _ _ => rfl, fun _ _ => rfl, rfl, rfl⟩, rfl, rfl⟩
  | internal w a b =>
    obtain ⟨t, hstep, ht, hchildren⟩ := step_starts_walk h hroot hT
    obtain ⟨u, hrun, hu⟩ := run_visits_children (walkVisits a) (walkVisits b) hchildren hsym
      ((Nat.zero_add _).trans_le hd) le_rfl
    exact ⟨u, (run_succ_of_step hstep).trans hrun, hu.after ht⟩

/-- Settles O21: the walk writes codes(T), and a table so filled holds what `codeOf` gives. -/
theorem codeTableIsCodesOfTheTree : Obligations.CodeTableIsCodesOfTheTree := by
  intro s i T h hroot hT hnodup hsym hd
  obtain ⟨t, hrun, ht⟩ := run_writes_codes h hroot (stored_of_treeOf hT) hsym hd
  have hcodes : ((codes T).map Prod.fst).Nodup := (map_fst_codes T).symm ▸ hnodup
  have hcommand : t.inCommand .cMagic := ht.inCommand ⟨h.noReset, h.ready, h.busy, h.inPhase⟩ ht.phase
  refine ⟨t, hrun, hcommand, fun x hx => ?_, fun x hx => ?_, ht.node, ht.root,
    ht.outside.outBits_eq, ht.outside.rp_eq, ht.outside.trace_eq⟩
  · rw [ht.codeLen, getElem?_fillTable _ hcodes _ hx, Vector.getElem?_replicate, if_pos (Nat.lt_succ_of_le hx), codeOf]
    cases (codes T).lookup x <;> rfl
  · obtain ⟨p, hp⟩ := exists_lookup_codes hx
    rw [ht.codeBits, getElem?_fillTable _ hcodes _ (hsym x hx), codeOf, hp]
    rfl

end Sys2Proof.Machine
end

section
/-! SUPPORT. The serialize half of the HeaderCodec on the tables it reads and writes (R151, R152). -/

namespace Sys2Proof.Machine

/-! ## The two pushes (R151, R152) -/

/-- An entry of the header walk (log entry 13): its record alone. -/
def nodeEntry (n : Nat) : StackEntry := { node := n, depth := none, bit := none }

/-- STACK with a right child r and a left child l pushed at SP = n, the left one last. -/
def withChildren (stack : Vector (Option StackEntry) 257) (n l r : Nat) : Vector (Option StackEntry) 257 :=
  (stack.setIfInBounds n (some (nodeEntry r))).setIfInBounds (n + 1) (some (nodeEntry l))

theorem pushNode_of_sp {i n : Nat} {s : State} (hsp : s.sp = some n) (hn : n < 257) :
    pushNode i s = .next { s with stack := s.stack.setIfInBounds n (some (nodeEntry i)), sp := some (n + 1) } :=
  push_eq_next.mpr ⟨n, hsp, hn, rfl⟩

/-! ## HS_START (R151) -/

theorem exec_hsStart {s : State} {i : Nat} (hroot : s.root = some i) :
    exec .hsStart s = .next { s with
      stack := s.stack.setIfInBounds 0 (some (nodeEntry i))
      sp := some 1
      phase := .cHdr } := by
  refine chain_of_next (need_eq_next.mpr hroot) ?_
  exact chain_of_next (pushNode_of_sp rfl (by decide)) rfl

/-! ## HS_STEP (R152) -/

section
variable {s : State} {k w : Nat} {e : StackEntry} (hsp : s.sp = some (k + 1)) (htop : s.stack[k]? = some (some e))
  (hopen : s.closed = false)
include hsp htop hopen

/-- A leaf's record is its tag and its symbol, in two writes. -/
theorem exec_hsStep_of_leaf {x : Symbol} (hnode : s.node[e.node]? = some (some (.leaf x w))) :
    exec .hsStep s = .next { s with
      sp := some k
      outBits := s.outBits ++ true :: bin 9 x.toNat
      trace := s.trace ++ [.write 1 1, .write 9 x.toNat]
      phase := if k = 0 then .cRewind else .cHdr } := by
  refine chain_of_next (pop_eq_next.mpr ⟨k, hsp, htop, rfl⟩) ?_
  refine chain_of_next (nodeAt_eq_next.mpr hnode) ?_
  refine chain_of_next (memWrite_of_open 1 1 _ hopen (by decide) (by decide)) ?_
  refine chain_of_next (memWrite_of_open 9 x.toNat _ hopen (by decide) (by decide)) ?_
  refine walkPhase_eq_next.mpr ⟨k, rfl, ?_⟩
  rw [List.append_assoc, List.append_assoc]
  rfl

/-- An internal node's record is its tag; its children are left to write. -/
theorem exec_hsStep_of_internal {l r : Nat} (hnode : s.node[e.node]? = some (some (.internal w l r)))
    (hk : k + 1 < 257) :
    exec .hsStep s = .next { s with
      sp := some (k + 2)
      stack := withChildren s.stack k l r
      outBits := s.outBits ++ [false]
      trace := s.trace ++ [.write 1 0]
      phase := .cHdr } := by
  refine chain_of_next (pop_eq_next.mpr ⟨k, hsp, htop, rfl⟩) ?_
  refine chain_of_next (nodeAt_eq_next.mpr hnode) ?_
  refine chain_of_next (memWrite_of_open 1 0 _ hopen (by decide) (by decide)) ?_
  refine chain_of_next (pushNode_of_sp rfl (Nat.lt_of_succ_lt hk)) ?_
  refine chain_of_next (pushNode_of_sp rfl hk) ?_
  exact walkPhase_eq_next.mpr ⟨k + 2, rfl, rfl⟩

end

/-! ## The steps of C_HSINIT and C_HDR -/

/-- The tables live in the header walk are those live in the code generation walk (R40). -/
theorem expire_of_headerWalk {s : State} (h : s.phase = .cHsinit ∨ s.phase = .cHdr) : expire s = onlyWalkTables s := by
  rcases h with h | h <;> simp [expire, onlyWalkTables, keep, lifetime, h]

theorem step_cHsinit {s : State} (h : s.inCommand .cHsinit) : step s = exec .hsStart (onlyWalkTables s) := by
  rw [step_of_always h (by decide) rfl, expire_of_headerWalk (.inl h.inPhase)]

theorem step_cHdr {s : State} (h : s.inCommand .cHdr) : step s = exec .hsStep (onlyWalkTables s) := by
  rw [step_of_always h (by decide) rfl, expire_of_headerWalk (.inr h.inPhase)]

end Sys2Proof.Machine
end

section
/-! SUPPORT. The header walk appends ser(T) to OUT (R150, R159): what the writing of one subtree finds and leaves, and the
writing of the whole tree by induction over it. -/

namespace Sys2Proof.Machine

/-! ## Equality outside the tables, up to what is appended to OUT -/

theorem State.sameOutside.closed_eq {s t : State} (h : t.sameOutside s) : t.closed = s.closed :=
  show (dropTables t).closed = (dropTables s).closed from congrArg State.closed h

theorem State.sameOutside.inBits_eq {s t : State} (h : t.sameOutside s) : t.inBits = s.inBits :=
  show (dropTables t).inBits = (dropTables s).inBits from congrArg State.inBits h

/-- The state after the transactions l, which append u to OUT. -/
def appended (u : Bits) (l : List Transaction) (s : State) : State :=
  { s with outBits := s.outBits ++ u, trace := s.trace ++ l }

theorem appended_appended (u u' : Bits) (l l' : List Transaction) (s : State) :
    appended u' l' (appended u l s) = appended (u ++ u') (l ++ l') s := by
  simp only [appended, List.append_assoc]

theorem State.sameOutside.appended {s t : State} (h : t.sameOutside s) (u : Bits) (l : List Transaction) :
    (appended u l t).sameOutside (appended u l s) := by
  show dropTables (Machine.appended u l t) = dropTables (Machine.appended u l s)
  exact congrArg (Machine.appended u l) (show dropTables t = dropTables s from h)

/-! ## What the writing of a subtree finds and leaves -/

/-- STACK[k] is an entry for the tree T in NODE. -/
def EntryFor (stack : Vector (Option StackEntry) 257) (node : Vector (Option Node) 513) (k : Nat) (T : Tree) : Prop :=
  ∃ e, stack[k]? = some (some e) ∧ Stored node 513 T e.node

/-- The next HS_STEP writes the root of T, over a stack of k entries. -/
structure State.awaitsRecord (s : State) (k : Nat) (T : Tree) : Prop where
  command : s.inCommand .cHdr
  output : s.closed = false
  sp : s.sp = some (k + 1)
  top : EntryFor s.stack s.node k T

/-- The next HS_STEPs write the siblings a and b, over a stack of k entries. -/
structure State.awaitsSiblings (s : State) (k : Nat) (a b : Tree) : Prop where
  command : s.inCommand .cHdr
  output : s.closed = false
  sp : s.sp = some (k + 2)
  left : EntryFor s.stack s.node (k + 1) a
  right : EntryFor s.stack s.node k b

theorem State.awaitsSiblings.awaitsRecord {s : State} {k : Nat} {a b : Tree} (h : s.awaitsSiblings k a b) :
    s.awaitsRecord (k + 1) a :=
  ⟨h.command, h.output, h.sp, h.left⟩

/-- The two entries pushed are for the two children. -/
theorem entries_withChildren (stack : Vector (Option StackEntry) 257) {node : Vector (Option Node) 513} {k l r : Nat}
    {a b : Tree} (hk : k + 1 < 257) (ha : Stored node 513 a l) (hb : Stored node 513 b r) :
    EntryFor (withChildren stack k l r) node (k + 1) a ∧ EntryFor (withChildren stack k l r) node k b := by
  refine ⟨⟨nodeEntry l, ?_, ha⟩, nodeEntry r, ?_, hb⟩
  · rw [withChildren, Vector.getElem?_setIfInBounds_self_of_lt hk]
  · rw [withChildren, Vector.getElem?_setIfInBounds_ne (Nat.succ_ne_self k),
      Vector.getElem?_setIfInBounds_self_of_lt (Nat.lt_of_succ_lt hk)]

/-- t is s after the transactions l, which append u to OUT: of STACK the entries below k are as they were, and so is all
else but SP and PHASE, and the tables that are not the walk's. -/
structure State.wrote (t s : State) (k : Nat) (u : Bits) (l : List Transaction) : Prop where
  outside : State.sameOutside { t with phase := s.phase } (appended u l s)
  node : t.node = s.node
  codeLen : t.codeLen = s.codeLen
  codeBits : t.codeBits = s.codeBits
  stack : ∀ j, j < k → t.stack[j]? = s.stack[j]?

/-- t is s after the writing of the tree T, whose entry lay over a stack of k entries. -/
structure State.serialized (t s : State) (k : Nat) (T : Tree) : Prop extends t.wrote s k (ser T) (headerTrace T) where
  sp : t.sp = some k
  phase : t.phase = if k = 0 then .cRewind else .cHdr

theorem State.wrote.mono {s t : State} {k k' : Nat} {u : Bits} {l : List Transaction} (h : t.wrote s k' u l)
    (hk : k ≤ k') : t.wrote s k u l :=
  { h with stack := fun j hj => h.stack j (hj.trans_le hk) }

theorem State.wrote.trans {s t v : State} {k : Nat} {u u' : Bits} {l l' : List Transaction} (hv : v.wrote t k u' l')
    (ht : t.wrote s k u l) : v.wrote s k (u ++ u') (l ++ l') where
  outside := by
    rw [← appended_appended]
    exact (hv.outside.withPhase s.phase).trans (ht.outside.appended u' l')
  node := hv.node.trans ht.node
  codeLen := hv.codeLen.trans ht.codeLen
  codeBits := hv.codeBits.trans ht.codeBits
  stack j hj := (hv.stack j hj).trans (ht.stack j hj)

theorem State.wrote.inCommand {s t : State} {k : Nat} {u : Bits} {l : List Transaction} {ph ph' : Phase}
    (h : t.wrote s k u l) (hs : s.inCommand ph) (hph : t.phase = ph') : t.inCommand ph' := by
  obtain ⟨hreset, hready, hbusy, -⟩ :=
    h.outside.inCommand (ph := ph) ⟨hs.noReset, hs.ready, hs.busy, hs.inPhase⟩
  exact ⟨hreset, hready, hbusy, hph⟩

theorem State.wrote.closed_eq {s t : State} {k : Nat} {u : Bits} {l : List Transaction} (h : t.wrote s k u l) :
    t.closed = s.closed := h.outside.closed_eq

/-- After the writing of the left child the walk awaits its sibling. -/
theorem State.serialized.awaitsRecord {s t : State} {k : Nat} {a b : Tree} (ht : t.serialized s (k + 1) a)
    (h : s.awaitsSiblings k a b) : t.awaitsRecord k b where
  command := ht.inCommand h.command ht.phase
  output := ht.closed_eq.trans h.output
  sp := ht.sp
  top := by
    obtain ⟨e, he, hst⟩ := h.right
    exact ⟨e, (ht.stack k (Nat.lt_succ_self k)).trans he, ht.node ▸ hst⟩

/-! ## The run -/

/-- What the induction over the tree proves of it: from every state that awaits T the walk writes it, one step per node. The
bound on k says that STACK has room for one entry per level of T (R152). -/
def WalkSerializes (T : Tree) : Prop :=
  ∀ {s : State} {k : Nat}, s.awaitsRecord k T → k + T.depth < 257 →
    ∃ t, run T.nodes s = .next t ∧ t.serialized s k T

/-- A leaf is written by one step (R152). -/
theorem walkSerializes_leaf (x : Symbol) (w : Nat) : WalkSerializes (.leaf x w) := by
  intro s k h _
  obtain ⟨hcmd, hopen, hsp, e, htop, -, hnode⟩ := h
  have hstep := (step_cHdr hcmd).trans (exec_hsStep_of_leaf (s := onlyWalkTables s) hsp htop hopen hnode)
  exact ⟨_, (run_one s).trans hstep, ⟨rfl, rfl, rfl, rfl, fun _ _ => rfl⟩, rfl, rfl⟩

/-- The step at an internal node writes its tag and pushes its children (R152). -/
theorem step_pushes_siblings {s : State} {k w : Nat} {a b : Tree} (h : s.awaitsRecord k (.internal w a b))
    (hk : k + 1 < 257) :
    ∃ t, step s = .next t ∧ t.wrote s k [false] [.write 1 0] ∧ t.awaitsSiblings k a b := by
  obtain ⟨hcmd, hopen, hsp, e, htop, -, l, r, hnode, ha, hb⟩ := h
  obtain ⟨hleft, hright⟩ := entries_withChildren s.stack hk ha hb
  refine ⟨_, (step_cHdr hcmd).trans (exec_hsStep_of_internal (s := onlyWalkTables s) hsp htop hopen hnode hk),
    ⟨rfl, rfl, rfl, rfl, fun j hj => ?_⟩,
    ⟨hcmd.noReset, hcmd.ready, hcmd.busy, rfl⟩, hopen, rfl, hleft, hright⟩
  rw [withChildren, Vector.getElem?_setIfInBounds_ne (by omega), Vector.getElem?_setIfInBounds_ne hj.ne']
  rfl

/-- An internal node's tag, then its left child over its sibling's entry, then the sibling (R150, R152). -/
theorem walkSerializes_internal {a b : Tree} (w : Nat) (iha : WalkSerializes a) (ihb : WalkSerializes b) :
    WalkSerializes (.internal w a b) := by
  intro s k h hk
  rw [Tree.depth] at hk
  obtain ⟨t, hstep, ht, hsiblings⟩ := step_pushes_siblings h (by omega)
  obtain ⟨u, hrun, hu⟩ := iha hsiblings.awaitsRecord (by omega)
  obtain ⟨v, hrun', hv⟩ := ihb (hu.awaitsRecord hsiblings) (by omega)
  have hchildren := hv.towrote.trans (hu.mono (Nat.le_succ k))
  exact ⟨v, (run_succ_of_step hstep).trans ((run_add hrun).trans hrun'), hchildren.trans ht, hv.sp, hv.phase⟩

theorem walkSerializes (T : Tree) : WalkSerializes T := by
  induction T with
  | leaf x w => exact walkSerializes_leaf x w
  | internal w a b iha ihb => exact walkSerializes_internal w iha ihb

/-- HS_START leaves the walk awaiting the root, and OUT as it was (R151). -/
theorem step_starts_header {s : State} {i : Nat} {T : Tree} (h : s.inCommand .cHsinit) (hopen : s.closed = false)
    (hroot : s.root = some i) (hT : Stored s.node 513 T i) :
    ∃ t, step s = .next t ∧ t.wrote s 0 [] [] ∧ t.awaitsRecord 0 T := by
  refine ⟨_, (step_cHsinit h).trans (exec_hsStart hroot), ⟨?_, rfl, rfl, rfl, fun j hj => absurd hj (Nat.not_lt_zero j)⟩,
    ⟨h.noReset, h.ready, h.busy, rfl⟩, hopen, rfl, nodeEntry i, ?_, hT⟩
  · rw [appended, List.append_nil, List.append_nil]
    rfl
  · exact Vector.getElem?_setIfInBounds_self_of_lt (by decide)

/-- Settles O25: HS_START awaits the root, and the walk from there writes the whole tree. -/
theorem serializerWritesTheHeader : Obligations.SerializerWritesTheHeader := by
  intro s i T h hopen hroot hT hd
  obtain ⟨t, hstep, ht, hawaits⟩ := step_starts_header h hopen hroot (stored_of_treeOf hT)
  obtain ⟨u, hrun, hu⟩ := walkSerializes T hawaits (by omega)
  have hwrote : u.wrote s 0 (ser T) (headerTrace T) := hu.towrote.trans ht
  exact ⟨u, (run_succ_of_step hstep).trans hrun, hwrote.inCommand h hu.phase, hwrote.outside.outBits_eq,
    hwrote.outside.trace_eq, hwrote.codeLen, hwrote.codeBits, hwrote.closed_eq.trans hopen, hwrote.outside.rp_eq,
    hwrote.outside.inBits_eq⟩

end Sys2Proof.Machine
end

section
/-! SUPPORT. The StreamEncoder's operations that write a code (R168, R169). -/

namespace Sys2Proof.Machine

section
variable {s : State} {len : Nat} {bits : Bits}

/-- Of an entry of CODE_BITS the first CODE_LEN bits are written (R34, R168). -/
theorem writeCode_take (hlen : len ≤ bits.length) (hpos : 1 ≤ len) (hle : len ≤ 256) (hopen : s.closed = false) :
    writeCode (bits.take len) s = .next { s with
      outBits := s.outBits ++ bits.take len
      trace := s.trace ++ [.write len (val (bits.take len))] } := by
  have htake : (bits.take len).length = len := List.length_take_of_le hlen
  rw [writeCode_of_open _ s hopen (htake.symm ▸ hpos) (htake.symm ▸ hle), htake]

/-! ## EN_SYM (R168) -/

theorem exec_enSym_of_code {r : Byte} (hcl : s.codeLen[r.toNat]? = some (some len))
    (hcb : s.codeBits[r.toNat]? = some (some bits)) (hlen : len ≤ bits.length) (hpos : 1 ≤ len) (hle : len ≤ 256)
    (hopen : s.closed = false) :
    exec (.enSym r) s = .next { s with
      outBits := s.outBits ++ bits.take len
      trace := s.trace ++ [.write len (val (bits.take len))]
      phase := .cEnc } := by
  rw [← toNat_zext9] at hcl hcb
  refine chain_of_next (codeLenAt_eq_next.mpr hcl) ?_
  rw [if_neg (Nat.ne_of_gt hpos)]
  refine chain_of_next (codeBitsAt_eq_next.mpr ⟨bits, hcb, hlen, rfl⟩) ?_
  exact chain_of_next (writeCode_take hlen hpos hle hopen) rfl

/-- A byte whose CODE_LEN is 0 has no code (R168, R210). -/
theorem exec_enSym_of_noCode {r : Byte} (hcl : s.codeLen[r.toNat]? = some (some 0)) :
    exec (.enSym r) s = .next (abort .noCode s) := by
  rw [← toNat_zext9] at hcl
  exact chain_of_next (codeLenAt_eq_next.mpr hcl) (if_pos rfl)

/-! ## EN_TERM (R169) -/

theorem exec_enTerm_of_code (hcl : s.codeLen[256]? = some (some len)) (hcb : s.codeBits[256]? = some (some bits))
    (hlen : len ≤ bits.length) (hpos : 1 ≤ len) (hle : len ≤ 256) (hopen : s.closed = false) :
    exec .enTerm s = .next { s with
      outBits := s.outBits ++ bits.take len
      trace := s.trace ++ [.write len (val (bits.take len))]
      phase := .cClose } := by
  refine chain_of_next (codeLenAt_eq_next.mpr hcl) ?_
  refine chain_of_next (codeBitsAt_eq_next.mpr ⟨bits, hcb, hlen, rfl⟩) ?_
  exact chain_of_next (writeCode_take hlen hpos hle hopen) rfl

end

/-- Settles O34, by whether the byte has a code. -/
theorem enSymWritesTheCode : Obligations.EnSymWritesTheCode :=
  ⟨fun _ _ => rfl, fun _ _ _ _ hcl hcb hpos hle hlen hopen => exec_enSym_of_code hcl hcb hlen hpos hle hopen,
    fun _ _ hcl => exec_enSym_of_noCode hcl⟩

/-- Settles O35: the terminator's code is written as a byte's is. -/
theorem enTermWritesTheTerminator : Obligations.EnTermWritesTheTerminator :=
  ⟨fun _ => rfl, fun _ _ _ hcl hcb hpos hle hlen hopen => exec_enTerm_of_code hcl hcb hlen hpos hle hopen⟩

end Sys2Proof.Machine
end

section
/-! SUPPORT. The StreamDecoder's check of the container's constant (R176, R177). -/

namespace Sys2Proof.Machine

/-! ## DE_MAGIC and the token MAGIC -/

/-- The word at the read position is read whole, and only then compared with MAGIC (R176). -/
theorem exec_deMagic_of_take {s : State} {m : BitVec 32} (hin : (s.inBits.drop s.rp).take 32 = bin 32 m.toNat) :
    exec .deMagic s =
      if m = s.par.magic then
        .next { s with rp := s.rp + 32, trace := s.trace ++ [.read 32 (some m.toNat)], phase := .dHdinit }
      else .next (abort .format { s with rp := s.rp + 32, trace := s.trace ++ [.read 32 (some m.toNat)] }) := by
  show execDeMagic s = _
  rw [execDeMagic, bitRead_of_take m (by decide) hin]
  rfl

theorem exec_deMagic_of_end {s : State} (hin : s.inBits.length < s.rp + 32) :
    exec .deMagic s = .next (abort .format { s with trace := s.trace ++ [.read 32 none] }) := by
  show execDeMagic s = _
  rw [execDeMagic, bitRead_of_gt 32 s hin]
  rfl

/-- The token MAGIC stands at the read position, so its read has nothing left to compare (R177). -/
theorem exec_magic_of_take {s : State} (hin : (s.inBits.drop s.rp).take 32 = bin 32 s.par.magic.toNat) :
    exec .magic s = .next { s with
      rp := s.rp + 32
      trace := s.trace ++ [.read 32 (some s.par.magic.toNat)]
      phase := .dHdinit } := by
  show execMagic s = _
  rw [execMagic, bitRead_of_take s.par.magic (by decide) hin]

/-- Settles O39, by what the 32 bits are: MAGIC, another word, or not all there. -/
theorem deMagicChecksTheConstant : Obligations.DeMagicChecksTheConstant := by
  refine ⟨fun _ => rfl, fun s op hop hin => ?magic, fun s m hin hne => ?other, fun s hin => exec_deMagic_of_end hin⟩
  case magic =>
    rcases hop with rfl | rfl
    · rw [exec_deMagic_of_take hin, if_pos rfl]
    · exact exec_magic_of_take hin
  case other => rw [exec_deMagic_of_take hin, if_neg hne]

end Sys2Proof.Machine
end

section
/-! SUPPORT. The host commands: acceptance in a step of its own (R190), NOP and RSVD3 (R193, R194); and how a command in
flight is followed from stage to stage. -/

namespace Sys2Proof.Machine

/-! ## Acceptance (R190) -/

/-- A core that is not BUSY runs the command presented, which the handshake takes off the port (log entry 11). -/
theorem step_of_command {s : State} {i : Instr} (hreset : s.rst = false) (hst : s.st ≠ .busy) (hvalid : s.cmdValid = true)
    (hop : decodeCmd s.cmdOp = i) : step s = exec i { s with cmdValid := false } := by
  have hfetch : fetch s = .next (.run (.cmd s.cmdOp) { s with cmdValid := false }) := by
    simp [fetch, hreset, hst, hvalid]
  rw [step, hfetch, chain_next, runFetched, decode, hop]

/-- Settles O4: NOP and RSVD3 leave the state they find, and the handshake touches cmd_valid alone. -/
theorem nopAndReservedChangeNothing : Obligations.NopAndReservedChangeNothing := by
  refine fun s => ⟨rfl, rfl, fun hreset hst hvalid hop => ⟨false, ?_⟩⟩
  rcases hop with hop | hop
  · exact step_of_command (i := .nop) hreset hst hvalid (by rw [hop]; rfl)
  · exact step_of_command (i := .rsvd3) hreset hst hvalid (by rw [hop]; rfl)

/-- The state in which a command that began at the phase `first` is accepted (R190). -/
def accepted (first : Phase) (s : State) : State :=
  { s with cmdValid := false, st := .busy, err := .none, phase := first }

theorem step_accepts_compress {s : State} (h : s.about 1#2) : step s = .next (accepted .cClear s) := by
  rw [step_of_command (i := .compress) h.noReset h.notBusy h.presented (by rw [h.command]; rfl)]
  exact congrArg Host.Outcome.next (accept_of_not_busy .cClear { s with cmdValid := false } h.notBusy)

theorem step_accepts_decompress {s : State} (h : s.about 2#2) : step s = .next (accepted .dMagic s) := by
  rw [step_of_command (i := .decompress) h.noReset h.notBusy h.presented (by rw [h.command]; rfl)]
  exact congrArg Host.Outcome.next (accept_of_not_busy .dMagic { s with cmdValid := false } h.notBusy)

/-! ## Runs of some length -/

/-- Some number of steps lead from s to t. -/
def State.reaches (s t : State) : Prop := ∃ k, run k s = .next t

theorem State.reaches_of_step {s t : State} (h : step s = .next t) : s.reaches t := ⟨1, (run_one s).trans h⟩

theorem State.reaches.trans {s t u : State} (h : s.reaches t) (h' : t.reaches u) : s.reaches u := by
  obtain ⟨m, hm⟩ := h
  obtain ⟨n, hn⟩ := h'
  exact ⟨m + n, (run_add hm).trans hn⟩

/-! ## A command in flight -/

/-- The core runs a command over `input` and is about to perform the unit operation of `ph`; no error was raised, OUT is
open and holds `out`. -/
structure State.inFlight (s : State) (p : Params) (input : Bits) (ph : Phase) (out : Bits) : Prop where
  command : s.inCommand ph
  noError : s.err = .none
  par : s.par = p
  input : s.inBits = input
  output : s.outBits = out
  isOpen : s.closed = false

/-- An accepted command is in flight, with nothing written. -/
theorem inFlight_accepted {s : State} {op : BitVec 2} (first : Phase) (h : s.about op) :
    (accepted first s).inFlight s.par s.inBits first [] := by
  obtain ⟨-, hout, hopen⟩ := h.streams
  exact ⟨⟨h.noReset, h.ready, rfl, rfl⟩, rfl, rfl, rfl, hout, hopen⟩

section
variable {s t : State} {p : Params} {input out u : Bits} {ph ph' : Phase} {n : Nat} {l : List Transaction}

theorem State.sameOutside.of_withPhase (h : State.sameOutside { t with phase := ph } s) (hph : t.phase = ph') :
    t.sameOutside { s with phase := ph' } := by
  subst hph
  exact h.withPhase t.phase

/-- A command goes on, with the tables aside, by writing u. -/
theorem State.inFlight.writes (hs : s.inFlight p input ph out)
    (h : t.sameOutside { s with phase := ph', rp := n, outBits := s.outBits ++ u, trace := l }) :
    t.inFlight p input ph' (out ++ u) where
  command := h.inCommand ⟨hs.command.noReset, hs.command.ready, hs.command.busy, rfl⟩
  noError := (congrArg State.err h).trans hs.noError
  par := h.par_eq.trans hs.par
  input := h.inBits_eq.trans hs.input
  output := hs.output ▸ h.outBits_eq
  isOpen := h.closed_eq.trans hs.isOpen

/-- A command goes on, with the tables aside, and writes nothing. -/
theorem State.inFlight.goesOn (hs : s.inFlight p input ph out)
    (h : t.sameOutside { s with phase := ph', rp := n, trace := l }) : t.inFlight p input ph' out := by
  rw [← List.append_nil out]
  exact hs.writes (u := []) (by rw [List.append_nil]; exact h)

end

end Sys2Proof.Machine
end

section
/-! SUPPORT. The tree of an input: what build(freq(X)) is known to be (R132), and the lengths of its codes (R145). -/

namespace Sys2Proof.Machine

theorem wellFormed_iff {p : Params} :
    p.wellFormed = true ↔ 0 < p.weightW ∧ 513 ≤ p.decNodeCap ∧ 0 < p.mediumUnit := by
  simp only [Params.wellFormed, Bool.and_eq_true, decide_eq_true_eq, and_assoc]

/-! ## The symbols that occur in an input -/

theorem freqOf_pos_iff {X : List Byte} {i : Nat} : 0 < freqOf X i ↔ i = 256 ∨ ∃ b ∈ X, b.toNat = i := by
  by_cases h : i = 256
  · simp [freqOf, h]
  · simp [freqOf, h, List.countP_pos_iff]

theorem occurs_freqTable_iff {X : List Byte} {x : Symbol} :
    occurs (freqTable X) x.toNat = true ↔ x = 256#9 ∨ ∃ b ∈ X, x = zext9 b := by
  have hx : x.toNat = 256 ↔ x = 256#9 := BitVec.toNat_inj (y := 256#9)
  have hb : ∀ b : Byte, b.toNat = x.toNat ↔ x = zext9 b := fun b => by
    rw [← toNat_zext9, BitVec.toNat_inj, eq_comm]
  have hcount : occurs (freqTable X) x.toNat = true ↔ 0 < freqOf X x.toNat := by
    rw [occurs_iff]
    constructor
    · rintro ⟨c, hc, hpos⟩
      rw [getElem?_freqTable (lt_of_vector_getElem?_some hc), Option.some.injEq] at hc
      rwa [hc]
    · intro hpos
      have hlt : x.toNat < 257 := by
        rcases freqOf_pos_iff.mp hpos with h | ⟨b, -, h⟩
        · omega
        · have := b.isLt
          omega
      exact ⟨_, getElem?_freqTable hlt, hpos⟩
  simp only [hcount, freqOf_pos_iff, hx, hb]

theorem getElem?_freqTable_terminator (X : List Byte) : (freqTable X)[256]? = some 1 :=
  getElem?_freqTable (by decide)

/-- Each symbol that occurs has one leaf. -/
theorem nodup_allSymbols_leafItems (f : Vector Nat 257) : (allSymbols (leafItems f)).Nodup := by
  have hnodup : (occurring f).Nodup := (pairwise_occurring f).imp fun h => Nat.ne_of_lt h
  rw [allSymbols_leafItems]
  refine hnodup.map_on fun i hi j hj h => ?_
  have hi := lt_of_occurs (mem_occurring.mp hi)
  have hj := lt_of_occurs (mem_occurring.mp hj)
  have h := congrArg BitVec.toNat h
  rwa [BitVec.toNat_ofNat, BitVec.toNat_ofNat, Nat.mod_eq_of_lt (by omega), Nat.mod_eq_of_lt (by omega)] at h

/-! ## build(freq(X)) -/

/-- What is used of the tree of the input X: it is small, and its leaves are the bytes of X and the terminator, each once
(R132). -/
structure TreeFor (X : List Byte) (T : Tree) : Prop where
  leaves : T.symbols.length ≤ 257
  nodup : T.symbols.Nodup
  mem_symbols : ∀ x : Symbol, x ∈ T.symbols ↔ x = 256#9 ∨ ∃ b ∈ X, x = zext9 b

theorem treeFor_of_build {X : List Byte} {i : Nat} {T : Tree} (h : build (freqTable X) = some (i, T)) : TreeFor X T := by
  obtain ⟨y, hy, -, -, hperm⟩ := build_spec (getElem?_freqTable_terminator X)
  obtain rfl : (i, T) = y := Option.some.inj (h.symm.trans hy)
  have hleaves := hperm.length_eq.trans (length_allSymbols_leafItems _)
  refine ⟨hleaves.trans_le (length_leafItems_le _), hperm.nodup_iff.mpr (nodup_allSymbols_leafItems _), fun x => ?_⟩
  rw [hperm.mem_iff, mem_allSymbols_leafItems, ← occurs_iff, occurs_freqTable_iff]

theorem TreeFor.depth {X : List Byte} {T : Tree} (h : TreeFor X T) : T.depth ≤ 256 := by
  have := Tree.depth_succ_le T
  have := h.leaves
  omega

/-- The tree of an input fits the decompressor's store (R9, R132). -/
theorem TreeFor.nodes {X : List Byte} {T : Tree} (h : TreeFor X T) : T.nodes ≤ 513 := by
  have := Tree.nodes_succ T
  have := h.leaves
  omega

theorem TreeFor.terminator_mem {X : List Byte} {T : Tree} (h : TreeFor X T) : 256#9 ∈ T.symbols :=
  (h.mem_symbols _).mpr (.inl rfl)

theorem TreeFor.byte_mem {X : List Byte} {T : Tree} (h : TreeFor X T) {b : Byte} (hb : b ∈ X) : zext9 b ∈ T.symbols :=
  (h.mem_symbols _).mpr (.inr ⟨b, hb, rfl⟩)

theorem TreeFor.toNat_le {X : List Byte} {T : Tree} (h : TreeFor X T) : ∀ x ∈ T.symbols, x.toNat ≤ 256 := by
  intro x hx
  rcases (h.mem_symbols x).mp hx with rfl | ⟨b, -, rfl⟩
  · decide
  · have := b.isLt
    rw [toNat_zext9]
    omega

/-! ## The lengths of the codes (R145) -/

theorem length_codeWalk {T : Tree} {p : Bits} {y : Symbol × Bits} (h : y ∈ codeWalk T p) :
    p.length ≤ y.2.length ∧ y.2.length ≤ p.length + T.depth := by
  induction T generalizing p with
  | leaf x w =>
    rw [List.mem_singleton.mp h]
    exact ⟨le_rfl, Nat.le_add_right _ _⟩
  | internal w a b iha ihb =>
    rw [Tree.depth]
    rcases List.mem_append.mp h with h | h
    · have := iha h
      rw [List.length_append, List.length_singleton] at this
      omega
    · have := ihb h
      rw [List.length_append, List.length_singleton] at this
      omega

theorem length_of_mem_codes {T : Tree} (hd : T.depth ≤ 256) {y : Symbol × Bits} (h : y ∈ codes T) :
    1 ≤ y.2.length ∧ y.2.length ≤ 256 := by
  cases T with
  | leaf x w =>
    rw [List.mem_singleton.mp h]
    exact ⟨Nat.le_refl 1, show 1 ≤ 256 by decide⟩
  | internal w a b =>
    refine ⟨?_, (length_codeWalk h).2.trans ((Nat.zero_add _).trans_le hd)⟩
    rcases List.mem_append.mp h with h | h
    · exact (length_codeWalk h).1
    · exact (length_codeWalk h).1

/-- A leaf's symbol has its code in the table. -/
theorem mem_codes_codeOf {T : Tree} {x : Symbol} (hx : x ∈ T.symbols) : (x, codeOf T x) ∈ codes T := by
  obtain ⟨p, hp⟩ := exists_lookup_codes hx
  obtain ⟨l, l', hcodes, -⟩ := List.lookup_eq_some_iff.mp hp
  rw [codeOf, hp, Option.getD_some, hcodes]
  exact List.mem_append_right _ List.mem_cons_self

theorem length_codeOf {T : Tree} (hd : T.depth ≤ 256) {x : Symbol} (hx : x ∈ T.symbols) :
    1 ≤ (codeOf T x).length ∧ (codeOf T x).length ≤ 256 :=
  length_of_mem_codes hd (mem_codes_codeOf hx)

end Sys2Proof.Machine
end

section
/-! SUPPORT. COMPRESS, stage by stage (R191, R197): what each unit leaves to the next one. -/

namespace Sys2Proof.Machine

section
variable {s : State} {p : Params} {input out : Bits} {X : List Byte} {T : Tree} {i : Nat}

/-! ## Counting and building -/

/-- The first pass ends with freq(X) (R120). -/
theorem reaches_freqTable (hs : s.inFlight p (bytesToBits X) .cClear out) (hp : p.wellFormed = true) (hrp : s.rp = 0)
    (hlen : X.length ≤ p.lenMax) :
    ∃ t, s.reaches t ∧ t.inFlight p (bytesToBits X) .cTbinit out ∧ t.freq = some (freqTable X) ∧
      t.trace = s.trace ++ X.map (fun b => .read 8 (some b.toNat)) ++ [.read 8 none] := by
  obtain ⟨t, hrun, hfreq, -, hout⟩ := firstPassCountsTheInput X s (hs.par ▸ hp) hs.command hs.input hrp (hs.par ▸ hlen)
  exact ⟨t, ⟨_, hrun⟩, hs.goesOn hout, hfreq, hout.trace_eq⟩

/-- From TB_INIT the TreeBuilder leaves build(FREQ) in NODE, its root in ROOT, and all else but PHASE as it was (R130). -/
theorem reaches_build {f : Vector Nat 257} (h : s.inCommand .cTbinit) (hf : s.freq = some f) (hterm : f[256]? = some 1)
    (hfits : freqTotal f < 2 ^ s.par.weightW) :
    ∃ t i T, s.reaches t ∧ build f = some (i, T) ∧ t.root = some i ∧ t.tree i = some T ∧
      t.sameOutside { s with phase := .cCginit } := by
  obtain ⟨t, i, T, hrun, hbuild, -, hroot, -, htree, -⟩ := treeBuilderBuildsTheTree s f h hf hterm hfits
  have hle := length_leafItems_le f
  have hfreq : (expire s).freq = some f := (keep_of_mem (by rw [h.inPhase]; decide)).trans hf
  have hstep : step s = .next (afterTbInit f (expire s)) :=
    (step_of_always h (by decide) rfl).trans (exec_tbInit hfreq)
  have hinit : (afterTbInit f (expire s)).inCommand .cMerge := ⟨h.noReset, h.ready, h.busy, rfl⟩
  obtain ⟨u, -, hmerges, -, -, -, -, hout⟩ :=
    run_merges (k := 257) (m := 256 + (leafItems f).length) hinit (collects_afterTbInit (expire s) f)
      (leafItems_ne_nil hterm) (by omega) (by omega) (by omega) (by rwa [totalWeight_leafItems])
  obtain rfl : t = u :=
    Host.Outcome.next.inj (hrun.symm.trans ((run_succ_of_step hstep).trans hmerges))
  exact ⟨t, i, T, ⟨_, hrun⟩, hbuild, hroot, htree, hout⟩

/-- The TreeBuilder builds the tree of X (R130). -/
theorem reaches_tree (hs : s.inFlight p input .cTbinit out) (hfreq : s.freq = some (freqTable X))
    (hlen : X.length ≤ p.lenMax) (hp : p.wellFormed = true) :
    ∃ t i T, s.reaches t ∧ t.inFlight p input .cCginit out ∧ build (freqTable X) = some (i, T) ∧ t.root = some i ∧
      t.tree i = some T ∧ t.trace = s.trace := by
  have hfits : freqTotal (freqTable X) < 2 ^ s.par.weightW := by
    obtain ⟨hpos, -, -⟩ := wellFormed_iff.mp hp
    have htwo : 2 ^ 1 ≤ 2 ^ p.weightW := Nat.pow_le_pow_right (by decide) hpos
    rw [freqTotal_freqTable, hs.par]
    unfold Params.lenMax at hlen
    omega
  obtain ⟨t, i, T, hrun, hbuild, hroot, htree, hout⟩ :=
    reaches_build hs.command hfreq (getElem?_freqTable_terminator X) hfits
  exact ⟨t, i, T, hrun, hs.goesOn hout, hbuild, hroot, htree, hout.trace_eq⟩

/-! ## The code table -/

/-- CODE_LEN and CODE_BITS hold the code of every symbol of T (R34, R140). -/
def State.holdsCodes (s : State) (T : Tree) : Prop :=
  ∀ x ∈ T.symbols, s.codeLen[x.toNat]? = some (some (codeOf T x).length) ∧
    s.codeBits[x.toNat]? = some (some (codeOf T x))

theorem State.holdsCodes.of_eq {t : State} (h : s.holdsCodes T) (hl : t.codeLen = s.codeLen)
    (hb : t.codeBits = s.codeBits) : t.holdsCodes T := fun x hx => by
  rw [hl, hb]
  exact h x hx

/-- The CodeTableGenerator leaves codes(T) (R140, R145). -/
theorem reaches_codes (hs : s.inFlight p input .cCginit out) (hroot : s.root = some i) (htree : s.tree i = some T)
    (hT : TreeFor X T) :
    ∃ t, s.reaches t ∧ t.inFlight p input .cMagic out ∧ t.holdsCodes T ∧ t.root = some i ∧ t.tree i = some T ∧
      t.trace = s.trace := by
  obtain ⟨t, hrun, -, hlen, hbits, hnode, hroot', -, -, htrace⟩ :=
    codeTableIsCodesOfTheTree s i T hs.command hroot htree hT.nodup hT.toNat_le hT.depth
  obtain ⟨u, hrun', hu⟩ := run_writes_codes hs.command hroot (stored_of_treeOf htree) hT.toNat_le hT.depth
  obtain rfl : t = u := Host.Outcome.next.inj (hrun.symm.trans hrun')
  refine ⟨t, ⟨_, hrun⟩, hs.goesOn (hu.outside.of_withPhase hu.phase), fun x hx => ⟨hlen x (hT.toNat_le x hx), hbits x hx⟩,
    hroot'.trans hroot, ?_, htrace⟩
  rw [State.tree, hnode]
  exact htree

/-! ## The constant and the header -/

theorem exec_enMagic_of_open (hopen : s.closed = false) :
    exec .enMagic s = .next { s with
      outBits := s.outBits ++ bin 32 s.par.magic.toNat
      trace := s.trace ++ [.write 32 s.par.magic.toNat]
      phase := .cHsinit } :=
  chain_of_next (memWrite_of_open 32 s.par.magic.toNat s hopen (by decide) (by decide)) rfl

/-- The codes are live in the phases from C_MAGIC to C_ENC (R40). -/
theorem State.holdsCodes.expire {ph : Phase} (h : s.holdsCodes T) (hs : s.inCommand ph)
    (hl : ph ∈ lifetime .codeLen) (hb : ph ∈ lifetime .codeBits) : (expire s).holdsCodes T :=
  h.of_eq (keep_of_mem (hs.inPhase ▸ hl)) (keep_of_mem (hs.inPhase ▸ hb))

/-- EN_MAGIC writes the container's constant (R166). -/
theorem reaches_magic (hs : s.inFlight p input .cMagic out) (hcodes : s.holdsCodes T) (hroot : s.root = some i)
    (htree : s.tree i = some T) :
    ∃ t, s.reaches t ∧ t.inFlight p input .cHsinit (out ++ bin 32 p.magic.toNat) ∧ t.holdsCodes T ∧ t.root = some i ∧
      t.tree i = some T ∧ t.trace = s.trace ++ [.write 32 p.magic.toNat] := by
  have hstep := (step_of_always hs.command (by decide) rfl).trans (exec_enMagic_of_open (s := expire s) hs.isOpen)
  have hnode : (expire s).node = s.node := keep_of_mem (by rw [hs.command.inPhase]; decide)
  have hroot' : (expire s).root = s.root := keep_of_mem (by rw [hs.command.inPhase]; decide)
  obtain rfl := hs.par
  refine ⟨_, State.reaches_of_step hstep, hs.writes rfl, hcodes.expire hs.command (by decide) (by decide),
    hroot'.trans hroot, ?_, rfl⟩
  rw [State.tree]
  exact hnode ▸ htree

/-- The header walk writes ser(T) (R150). -/
theorem reaches_header (hs : s.inFlight p input .cHsinit out) (hcodes : s.holdsCodes T) (hroot : s.root = some i)
    (htree : s.tree i = some T) (hd : T.depth ≤ 256) :
    ∃ t, s.reaches t ∧ t.inFlight p input .cRewind (out ++ ser T) ∧ t.holdsCodes T ∧
      t.trace = s.trace ++ headerTrace T := by
  obtain ⟨t, hstep, ht, hawaits⟩ := step_starts_header hs.command hs.isOpen hroot (stored_of_treeOf htree)
  obtain ⟨u, hrun, hu⟩ := walkSerializes T hawaits (by omega)
  have hwrote : u.wrote s 0 (ser T) (headerTrace T) := hu.towrote.trans ht
  exact ⟨u, (State.reaches_of_step hstep).trans ⟨_, hrun⟩, hs.writes (hwrote.outside.of_withPhase hu.phase),
    hcodes.of_eq hwrote.codeLen hwrote.codeBits, hwrote.outside.trace_eq⟩

/-! ## The second pass -/

theorem payload_cons (T : Tree) (b : Byte) (X : List Byte) :
    payload T (b :: X) = codeOf T (zext9 b) ++ payload T X := by
  rw [payload, List.flatMap_cons, List.append_assoc, payload]

/-- EN_REWIND (R167). -/
theorem reaches_rewind (hs : s.inFlight p input .cRewind out) (hcodes : s.holdsCodes T) :
    ∃ t, s.reaches t ∧ t.inFlight p input .cEnc out ∧ t.holdsCodes T ∧ t.rp = 0 ∧ t.trace = s.trace ++ [.rewind] := by
  have hstep : step s = .next { rewind (expire s) with phase := .cEnc } := step_of_always hs.command (by decide) rfl
  exact ⟨_, State.reaches_of_step hstep, hs.goesOn rfl, hcodes.expire hs.command (by decide) (by decide), rfl, rfl⟩

/-- The step of C_ENC that gets a byte of T appends its code (R168). -/
theorem reaches_code {b : Byte} (hs : s.inFlight p input .cEnc out) (hcodes : s.holdsCodes T) (hd : T.depth ≤ 256)
    (hb : zext9 b ∈ T.symbols) (hin : (input.drop s.rp).take 8 = bin 8 b.toNat) :
    ∃ t, s.reaches t ∧ t.inFlight p input .cEnc (out ++ codeOf T (zext9 b)) ∧ t.holdsCodes T ∧ t.rp = s.rp + 8 ∧
      t.trace = s.trace ++ [.read 8 (some b.toNat), codeWrite (codeOf T (zext9 b))] := by
  have hlive := hcodes.expire hs.command (by decide) (by decide)
  obtain ⟨hlen, hbits⟩ := hlive _ hb
  obtain ⟨hpos, hle⟩ := length_codeOf hd hb
  rw [toNat_zext9] at hlen hbits
  have hstep := (step_of_byte hs.command (.inr rfl) (hs.input ▸ hin) rfl).trans
    (exec_enSym_of_code (s := { expire s with rp := s.rp + 8, trace := s.trace ++ [.read 8 (some b.toNat)] })
      hlen hbits le_rfl hpos hle hs.isOpen)
  simp only [List.take_length, List.append_assoc] at hstep
  exact ⟨_, State.reaches_of_step hstep, hs.writes rfl, hlive, rfl, rfl⟩

/-- The step of C_ENC that finds the end of the input appends the terminator's code (R169). -/
theorem reaches_terminator (hs : s.inFlight p input .cEnc out) (hcodes : s.holdsCodes T) (hd : T.depth ≤ 256)
    (hterm : 256#9 ∈ T.symbols) (hin : input.length < s.rp + 8) :
    ∃ t, s.reaches t ∧ t.inFlight p input .cClose (out ++ codeOf T 256#9) ∧
      t.trace = s.trace ++ [.read 8 none, codeWrite (codeOf T 256#9)] := by
  obtain ⟨hlen, hbits⟩ := hcodes.expire hs.command (by decide) (by decide) _ hterm
  obtain ⟨hpos, hle⟩ := length_codeOf hd hterm
  have hstep := (step_of_end hs.command (.inr rfl) (hs.input ▸ hin) rfl).trans
    (exec_enTerm_of_code (s := { expire s with trace := s.trace ++ [.read 8 none] }) hlen hbits le_rfl hpos hle hs.isOpen)
  simp only [List.take_length, List.append_assoc] at hstep
  exact ⟨_, State.reaches_of_step hstep, hs.writes rfl, rfl⟩

/-- From C_ENC the codes of the bytes left and the terminator's are written (R165). -/
theorem reaches_payload (hs : s.inFlight p input .cEnc out) (hcodes : s.holdsCodes T) (hd : T.depth ≤ 256)
    (hterm : 256#9 ∈ T.symbols) (hX : ∀ b ∈ X, zext9 b ∈ T.symbols) (hin : input.drop s.rp = bytesToBits X) :
    ∃ t, s.reaches t ∧ t.inFlight p input .cClose (out ++ payload T X) ∧
      t.trace = s.trace ++ X.flatMap (fun b => [.read 8 (some b.toNat), codeWrite (codeOf T (zext9 b))]) ++
        [.read 8 none, codeWrite (codeOf T 256#9)] := by
  induction X generalizing s out with
  | nil =>
    have hend : input.length < s.rp + 8 := by
      have := List.drop_eq_nil_iff.mp hin
      omega
    obtain ⟨t, hrun, ht, htrace⟩ := reaches_terminator hs hcodes hd hterm hend
    exact ⟨t, hrun, ht, by rw [htrace, List.flatMap_nil, List.append_nil]⟩
  | cons b X ih =>
    obtain ⟨hb, hX⟩ := List.forall_mem_cons.mp hX
    obtain ⟨t, hrun, ht, hcodes', hrp, htrace⟩ := reaches_code hs hcodes hd hb (take_of_drop_eq_bytesToBits hin)
    obtain ⟨u, hrun', hu, htrace'⟩ := ih ht hcodes' hX (hrp ▸ drop_add_of_drop_eq_bytesToBits hin)
    refine ⟨u, hrun.trans hrun', ?_, ?_⟩
    · rw [payload_cons, ← List.append_assoc]
      exact hu
    · rw [htrace', htrace, List.flatMap_cons, List.append_assoc s.trace]

/-- EN_CLOSE (R170). -/
theorem reaches_done (hs : s.inFlight p input .cClose out) :
    ∃ t, s.reaches t ∧ t.st = .done ∧ t.err = .none ∧ t.phase = .pIdle ∧ t.closed = true ∧ t.outBits = out ∧
      t.trace = s.trace ++ [.close] := by
  have hstep : step s = .next (finish (expire s)) := step_of_always hs.command (by decide) rfl
  exact ⟨_, State.reaches_of_step hstep, rfl, hs.noError, rfl, rfl, hs.output, rfl⟩

end

/-- Settles O57: the units' stages one after another, each from what the one before it leaves. -/
theorem compressIsTheContainerFunction : Obligations.CompressIsTheContainerFunction := by
  intro s X hp habout hin hlen
  have hs := hin ▸ inFlight_accepted .cClear habout
  obtain ⟨hrp, -, -⟩ := habout.streams
  obtain ⟨s₁, hrun₁, hs₁, hfreq, htrace₁⟩ := reaches_freqTable hs hp hrp hlen
  obtain ⟨s₂, i, T, hrun₂, hs₂, hbuild, hroot₂, htree₂, htrace₂⟩ := reaches_tree hs₁ hfreq hlen hp
  have hT := treeFor_of_build hbuild
  obtain ⟨s₃, hrun₃, hs₃, hcodes₃, hroot₃, htree₃, htrace₃⟩ := reaches_codes hs₂ hroot₂ htree₂ hT
  obtain ⟨s₄, hrun₄, hs₄, hcodes₄, hroot₄, htree₄, htrace₄⟩ := reaches_magic hs₃ hcodes₃ hroot₃ htree₃
  obtain ⟨s₅, hrun₅, hs₅, hcodes₅, htrace₅⟩ := reaches_header hs₄ hcodes₄ hroot₄ htree₄ hT.depth
  obtain ⟨s₆, hrun₆, hs₆, hcodes₆, hrp₆, htrace₆⟩ := reaches_rewind hs₅ hcodes₅
  obtain ⟨s₇, hrun₇, hs₇, htrace₇⟩ := reaches_payload hs₆ hcodes₆ hT.depth hT.terminator_mem (fun _ => hT.byte_mem)
    (by rw [hrp₆, List.drop_zero])
  obtain ⟨t, hrun₈, hst, herr, hphase, hclosed, hout, htrace₈⟩ := reaches_done hs₇
  have hunits := hrun₁.trans (hrun₂.trans (hrun₃.trans (hrun₄.trans (hrun₅.trans (hrun₆.trans (hrun₇.trans hrun₈))))))
  obtain ⟨k, hrun⟩ := (State.reaches_of_step (step_accepts_compress habout)).trans hunits
  refine ⟨k, i, t, T, hrun, hbuild, hst, herr, hphase, hclosed, hout, ?_⟩
  rw [htrace₈, htrace₇, htrace₆, htrace₅, htrace₄, htrace₃, htrace₂, htrace₁]
  simp only [compressTrace, accepted, List.append_assoc, List.cons_append, List.nil_append]

end Sys2Proof.Machine
end

section
/-! SUPPORT. The deserialize half of the HeaderCodec: its reads and their checks (R156, R218), and the trees DNODE holds
(R36). -/

namespace Sys2Proof.Machine

/-! ## The bits not yet read -/

/-- Of `input` the bits u are left to read at the position rp. -/
def Unread (input : Bits) (rp : Nat) (u : Bits) : Prop := ∃ w, input = w ++ u ∧ rp = w.length

section
variable {input u v : Bits} {rp : Nat}

theorem Unread.rp_eq (h : Unread input rp u) : rp = input.length - u.length := by
  obtain ⟨w, rfl, rfl⟩ := h
  rw [List.length_append, Nat.add_sub_cancel]

theorem Unread.drop_eq (h : Unread input rp u) : input.drop rp = u := by
  obtain ⟨w, rfl, rfl⟩ := h
  exact List.drop_left

theorem Unread.length_eq (h : Unread input rp u) : input.length = rp + u.length := by
  obtain ⟨w, rfl, rfl⟩ := h
  exact List.length_append

theorem Unread.advance (h : Unread input rp (v ++ u)) : Unread input (rp + v.length) u := by
  obtain ⟨w, rfl, rfl⟩ := h
  exact ⟨w ++ v, (List.append_assoc w v u).symm, List.length_append.symm⟩

theorem Unread.head {b : Bit} (h : Unread input rp (b :: u)) : input[rp]? = some b := by
  obtain ⟨w, rfl, rfl⟩ := h
  simp

end

/-! ## The reads of a header record -/

section
variable {s : State} {k : BitVec 1 → State → Res State} {n : Nat} {b : Bit}

theorem headerTag_of_bit (hin : s.inBits[s.rp]? = some b) (hn : s.dnext = some n) (hlt : n < s.par.decNodeCap) :
    headerTag s k =
      k (BitVec.ofBool b) { s with rp := s.rp + 1, trace := s.trace ++ [.read 1 (some b.toNat)] } := by
  rw [headerTag, bitRead_one hin]
  exact chain_of_next (need_eq_next.mpr hn) (if_neg hlt.ne)

theorem headerTag_of_full (hin : s.inBits[s.rp]? = some b) (hn : s.dnext = some s.par.decNodeCap) :
    headerTag s k =
      .next (abort .capacity { s with rp := s.rp + 1, trace := s.trace ++ [.read 1 (some b.toNat)] }) := by
  rw [headerTag, bitRead_one hin]
  exact chain_of_next (need_eq_next.mpr hn) (if_pos rfl)

theorem headerTag_of_end (hin : s.inBits.length < s.rp + 1) :
    headerTag s k = .next (abort .malformed { s with trace := s.trace ++ [.read 1 none] }) := by
  rw [headerTag, bitRead_of_gt 1 s hin]
  rfl

theorem headerSymbol_of_take {x : Symbol} {k : Symbol → State → Res State}
    (hin : (s.inBits.drop s.rp).take 9 = bin 9 x.toNat) :
    headerSymbol s k = k x { s with rp := s.rp + 9, trace := s.trace ++ [.read 9 (some x.toNat)] } := by
  rw [headerSymbol, bitRead_of_take x (by decide) hin]

theorem headerSymbol_of_end {k : Symbol → State → Res State} (hin : s.inBits.length < s.rp + 9) :
    headerSymbol s k = .next (abort .malformed { s with trace := s.trace ++ [.read 9 none] }) := by
  rw [headerSymbol, bitRead_of_gt 9 s hin]
  rfl

end

/-! ## DNODE, field by field (R36) -/

/-- The field f of DNODE[i]. -/
def field {α : Type} (f : DNode → Option α) (d : List DNode) (i : Nat) : Option α := d[i]?.bind f

/-- The child that the branch b leads to. -/
def DNode.child (b : Bit) (n : DNode) : Option Nat := if b then n.right else n.left

/-- DNODE[p].left <- i or DNODE[p].right <- i (R156). -/
def DNode.withChild (b : Bit) (i : Nat) (n : DNode) : DNode := if b then n.withRight i else n.withLeft i

section
variable {α : Type} {f : DNode → Option α} {d : List DNode} {g : DNode → DNode} {i p : Nat}

theorem field_modify_of_ne (h : i ≠ p) : field f (d.modify p g) i = field f d i := by
  rw [field, List.getElem?_modify_ne _ _ h.symm, field]

/-- A write that leaves the field as it is. -/
theorem field_modify_of_same (h : ∀ r, f (g r) = f r) : field f (d.modify p g) i = field f d i := by
  rw [field, field, List.getElem?_modify]
  cases d[i]? <;> simp [apply_ite f, h]

theorem field_modify_self {x : Option α} (hp : p < d.length) (h : ∀ r, f (g r) = x) :
    field f (d.modify p g) p = x := by
  rw [field, List.getElem?_modify_eq, List.getElem?_eq_getElem hp]
  exact h _

theorem isLeaf_of_field {s : State} {b : Bool} (h : field DNode.leaf s.dnode i = some b) : isLeaf s i = .next b :=
  isLeaf_eq_next.mpr (Option.bind_eq_some_iff.mp h)

theorem symOf_of_field {s : State} {x : Symbol} (h : field DNode.sym s.dnode i = some x) : symOf s i = .next x :=
  symOf_eq_next.mpr (Option.bind_eq_some_iff.mp h)

theorem childOf_of_field {s : State} {b : Bit} {c : Nat} (h : field (DNode.child b) s.dnode i = some c) :
    childOf s i (BitVec.ofBool b) = .next c := by
  obtain ⟨n, hn, hc⟩ := Option.bind_eq_some_iff.mp h
  refine childOf_eq_next.mpr ⟨n, hn, ?_⟩
  cases b <;> exact hc

end

/-- DNODE holds the tree, but for its weights, at record i. -/
def DStored (d : List DNode) : Tree → Nat → Prop
  | .leaf x _, i => field DNode.leaf d i = some true ∧ field DNode.sym d i = some x
  | .internal _ a b, i =>
    field DNode.leaf d i = some false ∧
      ∃ l r, field (DNode.child false) d i = some l ∧ field (DNode.child true) d i = some r ∧ DStored d a l ∧ DStored d b r

/-! ## The places where a record is still to come -/

/-- Where the record of a subtree goes that is still to be read: it is the root's, or a child's. -/
inductive Hole where
  | root
  | child (parent : Nat) (b : Bit)

/-- In DNODE the tree stands in the hole. -/
def Filled (d : List DNode) : Hole → Tree → Prop
  | .root, T => DStored d T 0
  | .child p b, T => ∃ i, field (DNode.child b) d p = some i ∧ DStored d T i

/-- "Attach record i to the node waiting for a child" (R156), in DNODE. -/
def Hole.fill (i : Nat) (d : List DNode) : Hole → List DNode
  | .root => d
  | .child p b => d.modify p (DNode.withChild b i)

/-- A hole among the first n records: the root's is open only while there is none. -/
def Hole.fits (n : Nat) : Hole → Prop
  | .root => n = 0
  | .child p _ => p < n

/-- The holes of the unfinished nodes, given from the innermost outwards, in the order in which they are filled (R156). -/
def holesOf : List DEntry → List Hole
  | [] => []
  | e :: es =>
    if e.stage then .child e.node true :: holesOf es
    else .child e.node false :: .child e.node true :: holesOf es

/-- DSTACK holds the unfinished nodes, the innermost one on top (R37). -/
def OnDstack (ds : List (Option DEntry)) : List DEntry → Prop
  | [] => True
  | e :: es => ds[es.length]? = some (some e) ∧ OnDstack ds es

theorem OnDstack.set {ds : List (Option DEntry)} {es : List DEntry} {k : Nat} (x : Option DEntry) (h : OnDstack ds es)
    (hk : es.length ≤ k) : OnDstack (ds.set k x) es := by
  induction es with
  | nil => exact h
  | cons e es ih =>
    rw [List.length_cons] at hk
    obtain ⟨he, h⟩ := h
    exact ⟨by rwa [List.getElem?_set_ne (by omega)], ih h (by omega)⟩

/-- The unfinished nodes es on DSTACK are some of the first n records. -/
structure Frames (ds : List (Option DEntry)) (n : Nat) (es : List DEntry) : Prop where
  onDstack : OnDstack ds es
  le : es.length ≤ n
  below : ∀ e ∈ es, e.node < n

theorem holesOf_fits {es : List DEntry} {n : Nat} (h : ∀ e ∈ es, e.node < n) : ∀ x ∈ holesOf es, x.fits n := by
  induction es with
  | nil => exact fun x hx => absurd hx List.not_mem_nil
  | cons e es ih =>
    obtain ⟨he, hes⟩ := List.forall_mem_cons.mp h
    rw [holesOf]
    split
    · exact List.forall_mem_cons.mpr ⟨he, ih hes⟩
    · exact List.forall_mem_cons.mpr ⟨he, List.forall_mem_cons.mpr ⟨he, ih hes⟩⟩

/-- n records are read, and the next ones fill the holes hs. -/
structure State.lacks (s : State) (n : Nat) (hs : List Hole) : Prop where
  dnext : s.dnext = some n
  le : n ≤ s.par.decNodeCap
  dnode : s.dnode.length = s.par.decNodeCap
  dstack : s.dstack.length = s.par.decNodeCap
  frames : ∃ es, s.dsp = some es.length ∧ Frames s.dstack n es ∧ (hs = holesOf es ∨ es = [] ∧ n = 0 ∧ hs = [.root])
  nodup : hs.Nodup

theorem State.lacks.fits {s : State} {n : Nat} {hs : List Hole} (h : s.lacks n hs) : ∀ x ∈ hs, x.fits n := by
  obtain ⟨es, -, hes, rfl | ⟨-, rfl, rfl⟩⟩ := h.frames
  · exact holesOf_fits hes.below
  · exact fun x hx => List.mem_singleton.mp hx ▸ rfl

/-- In D_HDR the tables of the header reader are live (R40). -/
theorem State.lacks.expire {s : State} {n : Nat} {hs : List Hole} (h : s.lacks n hs) (hph : s.phase = .dHdr) :
    (expire s).lacks n hs := by
  have hnode : (Machine.expire s).dnode = s.dnode := keep_of_mem (by rw [hph]; decide)
  have hnext : (Machine.expire s).dnext = s.dnext := keep_of_mem (by rw [hph]; decide)
  have hstack : (Machine.expire s).dstack = s.dstack := keep_of_mem (by rw [hph]; decide)
  have hsp : (Machine.expire s).dsp = s.dsp := keep_of_mem (by rw [hph]; decide)
  exact ⟨hnext.trans h.dnext, h.le, hnode ▸ h.dnode, hstack ▸ h.dstack, hsp ▸ hstack ▸ h.frames, h.nodup⟩

/-! ## One record (R156) -/

/-- The attachment fills the first hole. -/
theorem attach_fills {s : State} {n : Nat} {h : Hole} {hs : List Hole} (hl : s.lacks n (h :: hs)) :
    ∃ ds es, attach n { s with dnext := some (n + 1) } =
        .next { s with dnext := some (n + 1), dnode := h.fill n s.dnode, dstack := ds, dsp := some es.length } ∧
      ds.length = s.dstack.length ∧ Frames ds n es ∧ hs = holesOf es := by
  obtain ⟨es, hsp, hes, heq | ⟨rfl, rfl, heq⟩⟩ := hl.frames
  · cases es with
    | nil => cases heq
    | cons e es =>
      obtain ⟨p, stage⟩ := e
      obtain ⟨⟨he, hon⟩, hle, hbelow⟩ := hes
      obtain ⟨hp, hrest⟩ := List.forall_mem_cons.mp hbelow
      rw [List.length_cons] at hle
      have hlt : p < s.dnode.length := hl.dnode ▸ hp.trans_le hl.le
      cases stage with
      | true =>
        obtain ⟨rfl, rfl⟩ := List.cons.inj heq
        exact ⟨s.dstack, es, attach_eq_next.mpr (.inr (.inl ⟨es.length, p, hsp, he, hlt, rfl⟩)), rfl,
          ⟨hon, by omega, hrest⟩, rfl⟩
      | false =>
        obtain ⟨rfl, rfl⟩ := List.cons.inj heq
        refine ⟨s.dstack.set es.length (some { node := p, stage := true }), { node := p, stage := true } :: es,
          attach_eq_next.mpr (.inr (.inr ⟨es.length, p, hsp, he, hlt, ?_⟩)), List.length_set,
          ⟨⟨?_, hon.set _ le_rfl⟩, hle, List.forall_mem_cons.mpr ⟨hp, hrest⟩⟩, rfl⟩
        · rw [hsp]
          rfl
        · exact List.getElem?_set_self (lt_of_getElem?_some he)
  · obtain ⟨rfl, rfl⟩ := List.cons.inj heq
    refine ⟨s.dstack, [], attach_eq_next.mpr (.inl ⟨hsp, ?_⟩), rfl, hes, rfl⟩
    rw [hsp]
    rfl

end Sys2Proof.Machine
end

section
/-! SUPPORT. The header reader rebuilds the tree it reads, or stops where the header does (R154, R156, R218): one HD_STEP on
the holes of the tree, and the run of them as `scanHeader` follows the bits. -/

namespace Sys2Proof.Machine

/-! ## What one record adds -/

@[simp] theorem Hole.length_fill (i : Nat) (d : List DNode) (h : Hole) : (h.fill i d).length = d.length := by
  cases h with
  | root => rfl
  | child p b => exact List.length_modify ..

/-- The phase after a record that leaves the holes hs (R156). -/
def headerPhase : List Hole → Phase
  | [] => .dDec
  | _ :: _ => .dHdr

/-- t is s after the record n, which r writes into DNODE[n], went into the hole h; the holes hs are left. -/
structure State.recordsAt (t s : State) (n : Nat) (r : DNode → DNode) (h : Hole) (hs : List Hole) : Prop where
  lacks : t.lacks (n + 1) hs
  dnode : t.dnode = (h.fill n s.dnode).modify n r
  cur : hs = [] → t.cur = some 0
  outside : t.sameOutside { s with phase := headerPhase hs }

section
variable {s : State} {n : Nat} {h : Hole} {hs : List Hole} {x : Symbol} {u : Bits}

theorem Frames.succ {ds : List (Option DEntry)} {es : List DEntry} (hes : Frames ds n es) : Frames ds (n + 1) es :=
  ⟨hes.onDstack, Nat.le_succ_of_le hes.le, fun e he => Nat.lt_succ_of_lt (hes.below e he)⟩

/-- A leaf fills a hole (R156, R158). -/
theorem addLeaf_records (hl : s.lacks n (h :: hs)) (hn : n < s.par.decNodeCap) :
    ∃ t, addLeaf x s = .next t ∧ t.recordsAt s n (fun _ => DNode.ofLeaf x) h hs := by
  obtain ⟨ds, es, hattach, hlen, hes, rfl⟩ := attach_fills hl
  have hsize : n < (h.fill n s.dnode).length := by rwa [Hole.length_fill, hl.dnode]
  have hdnode : ((h.fill n s.dnode).modify n fun _ => DNode.ofLeaf x).length = s.par.decNodeCap := by
    rw [List.length_modify, Hole.length_fill, hl.dnode]
  have hframes : ∃ es', some es.length = some es'.length ∧ Frames ds (n + 1) es' ∧
      (holesOf es = holesOf es' ∨ es' = [] ∧ n + 1 = 0 ∧ holesOf es = [.root]) := ⟨es, rfl, hes.succ, .inl rfl⟩
  have hnodup := (List.nodup_cons.mp hl.nodup).2
  cases es with
  | nil =>
    exact ⟨_, addLeaf_eq_next.mpr ⟨n, _, hl.dnext, hattach, hsize, headerEnd_eq_next.mpr (.inl ⟨rfl, rfl⟩)⟩,
      ⟨rfl, hn, hdnode, hlen.trans hl.dstack, hframes, hnodup⟩, rfl, fun _ => rfl, rfl⟩
  | cons e es =>
    have hphase : headerPhase (holesOf (e :: es)) = .dHdr := by
      rw [holesOf]
      split <;> rfl
    refine ⟨_, addLeaf_eq_next.mpr ⟨n, _, hl.dnext, hattach, hsize, headerEnd_eq_next.mpr (.inr ⟨es.length, rfl, rfl⟩)⟩,
      ⟨rfl, hn, hdnode, hlen.trans hl.dstack, hframes, hnodup⟩, rfl, fun hnil => ?_, ?_⟩
    · rw [hnil] at hphase
      cases hphase
    · rw [hphase]
      rfl

/-- An internal node fills a hole and opens two (R156, R157). -/
theorem addInternal_records (hl : s.lacks n (h :: hs)) (hn : n < s.par.decNodeCap) :
    ∃ t, addInternal s = .next t ∧
      t.recordsAt s n DNode.asInternal h (.child n false :: .child n true :: hs) := by
  obtain ⟨ds, es, hattach, hlen, hes, rfl⟩ := attach_fills hl
  have hsize : n < (h.fill n s.dnode).length := by rwa [Hole.length_fill, hl.dnode]
  have hdnode : ((h.fill n s.dnode).modify n DNode.asInternal).length = s.par.decNodeCap := by
    rw [List.length_modify, Hole.length_fill, hl.dnode]
  have hdstack : es.length < ds.length := by
    rw [hlen, hl.dstack]
    exact hes.le.trans_lt hn
  have hnew : ∀ b, Hole.child n b ∉ holesOf es := fun b hb => Nat.lt_irrefl n (holesOf_fits hes.below _ hb)
  refine ⟨_, addInternal_eq_next.mpr ⟨n, _, es.length, hl.dnext, hattach, hsize, rfl, hdstack, rfl⟩,
    ⟨rfl, hn, hdnode, ?_, ⟨{ node := n, stage := false } :: es, rfl, ⟨⟨?_, hes.onDstack.set _ le_rfl⟩, ?_, ?_⟩, .inl rfl⟩,
      ?_⟩, rfl, fun hnil => absurd hnil (List.cons_ne_nil _ _), rfl⟩
  · exact (List.length_set ..).trans (hlen.trans hl.dstack)
  · exact List.getElem?_set_self hdstack
  · exact Nat.succ_le_succ hes.le
  · exact List.forall_mem_cons.mpr ⟨Nat.lt_succ_self n, hes.succ.below⟩
  · refine List.nodup_cons.mpr ⟨fun hmem => ?_, List.nodup_cons.mpr ⟨hnew true, (List.nodup_cons.mp hl.nodup).2⟩⟩
    rcases List.mem_cons.mp hmem with heq | hmem
    · cases heq
    · exact hnew false hmem

theorem State.lacks.afterRead (hl : s.lacks n hs) (m : Nat) (l : List Transaction) :
    State.lacks { s with rp := m, trace := l } n hs :=
  ⟨hl.dnext, hl.le, hl.dnode, hl.dstack, hl.frames, hl.nodup⟩

end

/-! ## What the records below stay, and the trees in the holes -/

/-- From d to d' the first n records keep their fields, but for the children in the holes hs. -/
structure KeepsBelow (d d' : List DNode) (n : Nat) (hs : List Hole) : Prop where
  leaf : ∀ i, i < n → field DNode.leaf d' i = field DNode.leaf d i
  sym : ∀ i, i < n → field DNode.sym d' i = field DNode.sym d i
  child : ∀ i, i < n → ∀ b, .child i b ∉ hs → field (DNode.child b) d' i = field (DNode.child b) d i

/-- From d to d' the holes hs are filled with the trees whose header bits are v. -/
structure Rebuilds (d d' : List DNode) (n : Nat) (hs : List Hole) (v : Bits) : Prop where
  keeps : KeepsBelow d d' n hs
  trees : ∃ Ts, List.Forall₂ (Filled d') hs Ts ∧ v = Ts.flatMap ser ∧ ∀ T ∈ Ts, T.unweighted = T

theorem rebuilds_nil (d : List DNode) (n : Nat) : Rebuilds d d n [] [] :=
  ⟨⟨fun _ _ => rfl, fun _ _ => rfl, fun _ _ _ _ => rfl⟩, [], .nil, rfl, fun _ h => absurd h List.not_mem_nil⟩

theorem DNode.child_withChild_self (b : Bit) (i : Nat) (r : DNode) : (r.withChild b i).child b = some i := by
  cases b <;> rfl

theorem DNode.child_withChild_of_ne {b b' : Bit} (h : b' ≠ b) (i : Nat) (r : DNode) :
    (r.withChild b i).child b' = r.child b' := by
  obtain rfl : b' = !b := Bool.eq_not_of_ne h
  cases b <;> rfl

section
variable {d d' : List DNode} {n : Nat} {h : Hole} {hs : List Hole} {r : DNode → DNode} {v : Bits} {T : Tree}

/-- Filling a hole writes no field but that child. -/
theorem field_fill_of_same {α : Type} {f : DNode → Option α} {i : Nat}
    (hf : ∀ p b, h = .child p b → i = p → ∀ q, f (q.withChild b n) = f q) : field f (h.fill n d) i = field f d i := by
  cases h with
  | root => rfl
  | child p b =>
    by_cases hi : i = p
    · exact field_modify_of_same (hf p b rfl hi)
    · exact field_modify_of_ne hi

theorem keepsBelow_record (d : List DNode) (n : Nat) (h : Hole) (r : DNode → DNode) :
    KeepsBelow d ((h.fill n d).modify n r) n [h] where
  leaf i hi := (field_modify_of_ne hi.ne).trans (field_fill_of_same fun _ b _ _ _ => by cases b <;> rfl)
  sym i hi := (field_modify_of_ne hi.ne).trans (field_fill_of_same fun _ b _ _ _ => by cases b <;> rfl)
  child i hi b hb := (field_modify_of_ne hi.ne).trans <| field_fill_of_same fun p b' hh hip =>
    DNode.child_withChild_of_ne (fun hbb => hb (by rw [hh, hip, hbb]; exact List.mem_singleton_self _)) n

/-- Later records keep what is below them and no hole of theirs. -/
theorem KeepsBelow.trans {e : List DNode} {hs' : List Hole} (hd : KeepsBelow d e n [h]) (he : KeepsBelow e d' (n + 1) hs')
    (hsub : ∀ i b, i < n → .child i b ∈ hs' → .child i b ∈ hs) : KeepsBelow d d' n (h :: hs) where
  leaf i hi := (he.leaf i (Nat.lt_succ_of_lt hi)).trans (hd.leaf i hi)
  sym i hi := (he.sym i (Nat.lt_succ_of_lt hi)).trans (hd.sym i hi)
  child i hi b hb := by
    obtain ⟨hne, hmem⟩ := not_or.mp (mt List.mem_cons.mpr hb)
    exact (he.child i (Nat.lt_succ_of_lt hi) b fun hh => hmem (hsub i b hi hh)).trans
      (hd.child i hi b fun hh => hne (List.mem_singleton.mp hh))

/-- A hole that was filled with record n holds the tree that stands there. -/
theorem filled_of_record {hs' : List Hole} (hfit : h.fits n) (hlen : n < d.length) (hmem : h ∉ hs')
    (hk : KeepsBelow ((h.fill n d).modify n r) d' (n + 1) hs') (hT : DStored d' T n) : Filled d' h T := by
  cases h with
  | root =>
    obtain rfl : n = 0 := hfit
    exact hT
  | child p b =>
    refine ⟨n, ?_, hT⟩
    rw [hk.child p (Nat.lt_succ_of_lt hfit) b hmem, field_modify_of_ne (Nat.ne_of_lt hfit)]
    exact field_modify_self (Nat.lt_trans hfit hlen) (DNode.child_withChild_self b n)

variable (hfit : h.fits n) (hlen : n < d.length) (hmem : h ∉ hs)
include hfit hlen hmem

/-- A leaf's record, and the trees of the holes that are left. -/
theorem Rebuilds.leaf {x : Symbol}
    (hr : Rebuilds ((h.fill n d).modify n fun _ => DNode.ofLeaf x) d' (n + 1) hs v) :
    Rebuilds d d' n (h :: hs) ((true :: bin 9 x.toNat) ++ v) := by
  obtain ⟨hk, Ts, hfilled, rfl, hTs⟩ := hr
  have hsize : n < (h.fill n d).length := by rwa [Hole.length_fill]
  have hT : DStored d' (.leaf x 0) n :=
    ⟨(hk.leaf n (Nat.lt_succ_self n)).trans (field_modify_self hsize fun _ => rfl),
      (hk.sym n (Nat.lt_succ_self n)).trans (field_modify_self hsize fun _ => rfl)⟩
  exact ⟨(keepsBelow_record d n h _).trans hk fun _ _ _ hm => hm, .leaf x 0 :: Ts,
    .cons (filled_of_record hfit hlen hmem hk hT) hfilled, rfl, List.forall_mem_cons.mpr ⟨rfl, hTs⟩⟩

/-- An internal node's record, its two subtrees, and the trees of the holes that are left. -/
theorem Rebuilds.internal
    (hr : Rebuilds ((h.fill n d).modify n DNode.asInternal) d' (n + 1) (.child n false :: .child n true :: hs) v) :
    Rebuilds d d' n (h :: hs) ([false] ++ v) := by
  obtain ⟨hk, Ts, hfilled, rfl, hTs⟩ := hr
  have hsize : n < (h.fill n d).length := by rwa [Hole.length_fill]
  have hsub : ∀ i b, i < n → Hole.child i b ∈ Hole.child n false :: .child n true :: hs → Hole.child i b ∈ hs := by
    intro i b hi hm
    rcases List.mem_cons.mp hm with heq | hm
    · cases heq
      exact absurd hi (Nat.lt_irrefl _)
    · rcases List.mem_cons.mp hm with heq | hm
      · cases heq
        exact absurd hi (Nat.lt_irrefl _)
      · exact hm
  cases hfilled with
  | cons ha hfilled =>
    cases hfilled with
    | cons hb hfilled =>
      rename_i a b Ts
      obtain ⟨l, hl, ha⟩ := ha
      obtain ⟨q, hq, hb⟩ := hb
      obtain ⟨hua, hTs⟩ := List.forall_mem_cons.mp hTs
      obtain ⟨hub, hTs⟩ := List.forall_mem_cons.mp hTs
      have hT : DStored d' (.internal 0 a b) n :=
        ⟨(hk.leaf n (Nat.lt_succ_self n)).trans (field_modify_self hsize fun _ => rfl), l, q, hl, hq, ha, hb⟩
      have hout : h ∉ Hole.child n false :: .child n true :: hs := by
        cases h with
        | root => simpa using hmem
        | child p c => exact fun hm => hmem (hsub p c hfit hm)
      refine ⟨(keepsBelow_record d n h _).trans hk hsub, .internal 0 a b :: Ts,
        .cons (filled_of_record hfit hlen hout hk hT) hfilled, ?_, List.forall_mem_cons.mpr ⟨?_, hTs⟩⟩
      · simp only [List.flatMap_cons, ser, List.append_assoc, List.cons_append, List.nil_append]
      · rw [Tree.unweighted, hua, hub]

end

end Sys2Proof.Machine
end

section
/-! SUPPORT. The run of the header reader follows `scanHeader` (R154, R156, R198). -/

namespace Sys2Proof.Machine

/-- Enough bits are the bits of a word. -/
theorem exists_word {n : Nat} {u : Bits} (h : n ≤ u.length) : ∃ x : BitVec n, u.take n = bin n x.toNat := by
  have hlen := List.length_take_of_le h
  have hlt := val_lt (u.take n)
  rw [hlen] at hlt
  refine ⟨BitVec.ofNat n (val (u.take n)), ?_⟩
  rw [BitVec.toNat_ofNat, Nat.mod_eq_of_lt hlt, bin_val_of_length hlen]

/-! ## How a command ends -/

/-- Some number of steps end the command with the result r (R200). -/
def State.ends (s : State) (r : RunResult) : Prop :=
  ∃ t, s.reaches t ∧ t.result = r ∧ t.closed = true ∧ t.phase = .pIdle

theorem State.reaches.ends {s t : State} {r : RunResult} (h : s.reaches t) (ht : t.ends r) : s.ends r := by
  obtain ⟨u, hu, hend⟩ := ht
  exact ⟨u, h.trans hu, hend⟩

/-- An error ends the command (R216). -/
theorem ends_of_abort {s u : State} {e : ErrCode} {out : Bits} {n : Nat} (h : step s = .next (abort e u))
    (hout : u.outBits = out) (hrp : u.rp = n) : s.ends { st := .error, err := e, out := out, rp := n } := by
  subst hout hrp
  exact ⟨_, State.reaches_of_step h, rfl, rfl, rfl⟩

/-! ## The steps of D_HDR -/

/-- The header reader has n records and the holes hs; the bits u are left to read. -/
structure State.inHeader (s : State) (p : Params) (input out : Bits) (n : Nat) (hs : List Hole) (u : Bits) : Prop where
  flight : s.inFlight p input (headerPhase hs) out
  unread : Unread input s.rp u
  lacks : s.lacks n hs
  cur : hs = [] → s.cur = some 0

section
variable {s : State} {p : Params} {input out u : Bits} {n : Nat} {h : Hole} {hs : List Hole} {b : Bit}

theorem step_hdStep (hs' : s.inFlight p input .dHdr out) : step s = execHdStep (expire s) :=
  step_of_always hs'.command (by decide) rfl

theorem expire_dnode_of_dHdr (hph : s.phase = .dHdr) : (expire s).dnode = s.dnode :=
  keep_of_mem (by rw [hph]; decide)

/-- A record whose bits w are read, and that goes into the hole h, is a step of the reader. -/
theorem State.recordsAt.inHeader {t t' : State} {hs' : List Hole} {r : DNode → DNode} {w : Bits} {l : List Transaction}
    (hin : s.inHeader p input out n (h :: hs) (w ++ u)) (hread : t' = { expire s with rp := s.rp + w.length, trace := l })
    (ht : t.recordsAt t' n r h hs') :
    t.inHeader p input out (n + 1) hs' u ∧ t.dnode = (h.fill n s.dnode).modify n r := by
  subst hread
  refine ⟨⟨hin.flight.goesOn ht.outside, ?_, ht.lacks, ht.cur⟩, ?_⟩
  · rw [ht.outside.rp_eq]
    exact hin.unread.advance
  · rw [ht.dnode]
    exact congrArg (fun d => (h.fill n d).modify n r) (expire_dnode_of_dHdr hin.flight.command.inPhase)

/-- A leaf's record is read (R156, R158). -/
theorem step_reads_leaf {x : Symbol} (hin : s.inHeader p input out n (h :: hs) ((true :: bin 9 x.toNat) ++ u))
    (hn : n < p.decNodeCap) :
    ∃ t, s.reaches t ∧ t.inHeader p input out (n + 1) hs u ∧
      t.dnode = (h.fill n s.dnode).modify n fun _ => DNode.ofLeaf x := by
  obtain rfl := hin.flight.par
  obtain rfl := hin.flight.input
  have hl := hin.lacks.expire hin.flight.command.inPhase
  have hdrop : s.inBits.drop (s.rp + 1) = bin 9 x.toNat ++ u := (Unread.advance (v := [true]) hin.unread).drop_eq
  have hsym : (s.inBits.drop (s.rp + 1)).take 9 = bin 9 x.toNat := by
    rw [hdrop, List.take_append_of_le_length (by simp),
      List.take_of_length_le (by simp)]
  obtain ⟨t, hstep, ht⟩ := addLeaf_records (x := x)
    (hl.afterRead (s.rp + 10) (s.trace ++ [.read 1 (some 1)] ++ [.read 9 (some x.toNat)])) hn
  have hexec : execHdStep (expire s) = .next t := by
    rw [execHdStep, headerTag_of_bit (s := expire s) hin.unread.head hl.dnext hn]
    exact (headerSymbol_of_take hsym).trans hstep
  exact ⟨t, State.reaches_of_step ((step_hdStep hin.flight).trans hexec),
    ht.inHeader hin (by rw [List.length_cons, length_bin])⟩

/-- An internal node's record is read (R156, R157). -/
theorem step_reads_internal (hin : s.inHeader p input out n (h :: hs) ([false] ++ u)) (hn : n < p.decNodeCap) :
    ∃ t, s.reaches t ∧ t.inHeader p input out (n + 1) (.child n false :: .child n true :: hs) u ∧
      t.dnode = (h.fill n s.dnode).modify n DNode.asInternal := by
  obtain rfl := hin.flight.par
  obtain rfl := hin.flight.input
  have hl := hin.lacks.expire hin.flight.command.inPhase
  obtain ⟨t, hstep, ht⟩ := addInternal_records (hl.afterRead (s.rp + 1) (s.trace ++ [.read 1 (some 0)])) hn
  have hexec : execHdStep (expire s) = .next t := by
    rw [execHdStep, headerTag_of_bit (s := expire s) hin.unread.head hl.dnext hn]
    exact hstep
  exact ⟨t, State.reaches_of_step ((step_hdStep hin.flight).trans hexec), ht.inHeader hin rfl⟩

/-- The bits end before the tag (R156, R218). -/
theorem ends_without_tag (hin : s.inHeader p input out n (h :: hs) []) :
    s.ends { st := .error, err := .malformed, out := out, rp := input.length } := by
  obtain rfl := hin.flight.input
  have hlen : s.inBits.length = s.rp := hin.unread.length_eq
  have hend : s.inBits.length < s.rp + 1 := hlen.trans_lt (Nat.lt_succ_self _)
  exact ends_of_abort ((step_hdStep hin.flight).trans (headerTag_of_end (s := expire s) hend)) hin.flight.output hlen.symm

/-- A record comes that the store has no room for (R156, R218). -/
theorem ends_full (hin : s.inHeader p input out p.decNodeCap (h :: hs) (b :: u)) :
    s.ends { st := .error, err := .capacity, out := out, rp := input.length - u.length } := by
  obtain rfl := hin.flight.par
  obtain rfl := hin.flight.input
  have hl := hin.lacks.expire hin.flight.command.inPhase
  exact ends_of_abort ((step_hdStep hin.flight).trans (headerTag_of_full (s := expire s) hin.unread.head hl.dnext))
    hin.flight.output (Unread.advance (v := [b]) hin.unread).rp_eq

/-- The bits end within a leaf's symbol (R156, R218). -/
theorem ends_without_symbol (hin : s.inHeader p input out n (h :: hs) (true :: u)) (hn : n < p.decNodeCap)
    (hu : u.length < 9) : s.ends { st := .error, err := .malformed, out := out, rp := input.length - u.length } := by
  obtain rfl := hin.flight.par
  obtain rfl := hin.flight.input
  have hl := hin.lacks.expire hin.flight.command.inPhase
  have hnext := Unread.advance (v := [true]) hin.unread
  have hend : s.inBits.length < s.rp + 1 + 9 := by
    have := hnext.length_eq
    rw [List.length_singleton] at this
    omega
  have hexec : execHdStep (expire s) = .next (abort .malformed
      { expire s with rp := s.rp + 1, trace := s.trace ++ [.read 1 (some 1)] ++ [.read 9 none] }) := by
    rw [execHdStep, headerTag_of_bit (s := expire s) hin.unread.head hl.dnext hn]
    exact headerSymbol_of_end hend
  exact ends_of_abort ((step_hdStep hin.flight).trans hexec) hin.flight.output hnext.rp_eq

/-! ## The run -/

/-- What the machine does with a header of which u is left, where reading it ends as `scanHeader` says. -/
def State.headerEnds (s : State) (p : Params) (input out : Bits) (n : Nat) (hs : List Hole) (u : Bits) : HeaderEnd → Prop
  | .complete _ rest =>
    ∃ t m v, s.reaches t ∧ t.inHeader p input out m [] rest ∧ u = v ++ rest ∧ Rebuilds s.dnode t.dnode n hs v
  | .malformed rest => s.ends { st := .error, err := .malformed, out := out, rp := input.length - rest.length }
  | .capacity rest => s.ends { st := .error, err := .capacity, out := out, rp := input.length - rest.length }

/-- How the header ends after a record of the bits w is how it ends before it. -/
theorem State.headerEnds.before {t : State} {n' : Nat} {hs' : List Hole} {w : Bits} {e : HeaderEnd} (hrun : s.reaches t)
    (hback : ∀ d v, Rebuilds t.dnode d n' hs' v → Rebuilds s.dnode d n hs (w ++ v))
    (ht : t.headerEnds p input out n' hs' u e) : s.headerEnds p input out n hs (w ++ u) e := by
  cases e with
  | complete m rest =>
    obtain ⟨t', m', v, hrun', hin, rfl, hr⟩ := ht
    exact ⟨t', m', w ++ v, hrun.trans hrun', hin, (List.append_assoc w v rest).symm, hback _ _ hr⟩
  | malformed rest => exact hrun.ends ht
  | capacity rest => exact hrun.ends ht

/-- The header reader ends as `scanHeader` does, and where the header is complete DNODE holds its trees. -/
theorem headerEnds_scanHeader {k : Nat} (hin : s.inHeader p input out n hs u) (hk : u.length < k) :
    s.headerEnds p input out n hs u (scanHeader p.decNodeCap k hs.length n u) := by
  induction k generalizing s n hs u with
  | zero => exact absurd hk (Nat.not_lt_zero _)
  | succ k ih =>
    cases hs with
    | nil =>
      rw [List.length_nil, scanHeader]
      exact ⟨s, n, [], ⟨0, rfl⟩, hin, rfl, rebuilds_nil _ _⟩
    | cons h hs =>
      obtain ⟨hnew, -⟩ := List.nodup_cons.mp hin.lacks.nodup
      have hfit := hin.lacks.fits h List.mem_cons_self
      cases u with
      | nil =>
        rw [List.length_cons, scanHeader]
        exact ends_without_tag hin
      | cons b u =>
        rw [List.length_cons] at hk
        rw [List.length_cons, scanHeader]
        by_cases hfull : n = p.decNodeCap
        · subst hfull
          rw [if_pos rfl]
          exact ends_full hin
        rw [if_neg hfull]
        have hn : n < p.decNodeCap := Nat.lt_of_le_of_ne (hin.flight.par ▸ hin.lacks.le) hfull
        have hsize : n < s.dnode.length := by rwa [hin.lacks.dnode, hin.flight.par]
        cases b with
        | false =>
          obtain ⟨t, hrun, ht, hd⟩ := step_reads_internal hin hn
          exact .before (w := [false]) hrun (fun d v hr => (hd ▸ hr).internal hfit hsize hnew) (ih ht (by omega))
        | true =>
          rw [if_pos rfl]
          by_cases hshort : u.length < 9
          · rw [if_pos hshort]
            exact ends_without_symbol hin hn hshort
          rw [if_neg hshort]
          obtain ⟨x, hx⟩ := exists_word (Nat.le_of_not_lt hshort)
          rw [← List.take_append_drop 9 u, hx, ← List.cons_append] at hin ⊢
          obtain ⟨t, hrun, ht, hd⟩ := step_reads_leaf hin hn
          exact .before hrun (fun d v hr => (hd ▸ hr).leaf hfit hsize hnew)
            (ih ht (by rw [List.length_drop]; omega))

end

end Sys2Proof.Machine
end

section
/-! SUPPORT. The StreamDecoder walks the payload as `walkBits` does (R178, R185, R198). -/

namespace Sys2Proof.Machine

/-! ## One bit of `walkBits` -/

/-- Where the branch b leads from `cur` in D; under the degenerate tree nowhere (R178, R182). -/
def walkPos (D cur : Tree) (b : Bit) : Tree :=
  match D, cur with
  | .leaf _ _, c => c
  | .internal _ _ _, .internal _ l r => if b then r else l
  | .internal _ _ _, .leaf x w => .leaf x w

/-- The walk on from the position reached, after the leaf test (R178). -/
def walkAt (D : Tree) : Tree → Bits → Walked
  | .leaf x _, u =>
    if x = 256#9 then { bytes := [], how := .terminator, rest := u }
    else if 256 < x.toNat then { bytes := [], how := .reservedSymbol, rest := u }
    else { walkBits D D u with bytes := lowByte x :: (walkBits D D u).bytes }
  | .internal w l r, u => walkBits D (.internal w l r) u

@[simp] theorem walkBits_nil (D cur : Tree) : walkBits D cur [] = { bytes := [], how := .exhausted, rest := [] } := by
  rw [walkBits]

theorem walkBits_cons (D cur : Tree) (b : Bit) (u : Bits) : walkBits D cur (b :: u) = walkAt D (walkPos D cur b) u := by
  cases D with
  | leaf => cases cur <;> rfl
  | internal =>
    cases cur with
    | leaf => rfl
    | internal w l r =>
      cases b with
      | false => cases l <;> rfl
      | true => cases r <;> rfl

/-! ## What a walk shows when the command has ended -/

/-- ST at the end of a walk (R178, R181). -/
def WalkEnd.st : WalkEnd → RunState
  | .terminator => .done
  | .exhausted => .error
  | .reservedSymbol => .error

/-- ERR at the end of a walk (R178, R210). -/
def WalkEnd.err : WalkEnd → ErrCode
  | .terminator => .none
  | .exhausted => .malformed
  | .reservedSymbol => .symRange

/-- What the command shows after a walk over the last bits of `input`, with `out` written before it. -/
def walkResult (input out : Bits) (w : Walked) : RunResult :=
  { st := w.how.st, err := w.how.err, out := out ++ bytesToBits w.bytes, rp := input.length - w.rest.length }

/-! ## The operations of DE_STEP -/

/-- DNODE holds D at its root, and `cur` at the record c, where the walk of D may stand before a bit is read. -/
inductive Cursor (d : List DNode) : Tree → Tree → Nat → Prop where
  | degenerate {x : Symbol} {w : Nat} (root : DStored d (.leaf x w) 0) : Cursor d (.leaf x w) (.leaf x w) 0
  | ordinary {w v c : Nat} {a b l r : Tree} (root : DStored d (.internal w a b) 0) (node : DStored d (.internal v l r) c) :
    Cursor d (.internal w a b) (.internal v l r) c

section
variable {s : State} {b : Bit} {D cur : Tree} {c : Nat} {d : List DNode}

theorem cursor_root (h : DStored d D 0) : Cursor d D D 0 := by
  cases D with
  | leaf => exact .degenerate h
  | internal => exact .ordinary h h

theorem Cursor.root (h : Cursor d D cur c) : DStored d D 0 := by
  cases h <;> assumption

/-- From an internal node that a bit leads to, the walk goes on. -/
theorem Cursor.next {v : Nat} {l r : Tree} (h : Cursor d D cur c) (hpos : walkPos D cur b = .internal v l r) {c' : Nat}
    (hst : DStored d (.internal v l r) c') : Cursor d D (.internal v l r) c' := by
  cases h with
  | degenerate => cases hpos
  | ordinary root => exact .ordinary root hst

/-- The move of R178 leads where `walkPos` says. -/
theorem walkDown_of_cursor (h : Cursor s.dnode D cur c) (hcur : s.cur = some c) :
    ∃ c', walkDown (BitVec.ofBool b) s = .next { s with cur := some c' } ∧ DStored s.dnode (walkPos D cur b) c' := by
  cases h with
  | degenerate root =>
    refine ⟨0, chain_of_next (isLeaf_of_field root.1) ?_, root⟩
    rw [if_pos rfl, ← hcur]
  | ordinary root node =>
    obtain ⟨hroot, -⟩ := root
    obtain ⟨-, i, j, hi, hj, hl, hr⟩ := node
    cases b with
    | false =>
      exact ⟨i, chain_of_next (isLeaf_of_field hroot) (chain_of_next (need_eq_next.mpr hcur)
        (chain_of_next (childOf_of_field (b := false) hi) rfl)), hl⟩
    | true =>
      exact ⟨j, chain_of_next (isLeaf_of_field hroot) (chain_of_next (need_eq_next.mpr hcur)
        (chain_of_next (childOf_of_field (b := true) hj) rfl)), hr⟩

section
variable {x : Symbol} {w : Nat} (hcur : s.cur = some c)
include hcur

theorem leafTest_of_internal {l r : Tree} (h : DStored s.dnode (.internal w l r) c) :
    leafTest s = .next { s with phase := .dDec } :=
  chain_of_next (need_eq_next.mpr hcur) (chain_of_next (isLeaf_of_field h.1) rfl)

variable (h : DStored s.dnode (.leaf x w) c)
include h

theorem leafTest_of_terminator (hx : x = 256#9) : leafTest s = .next { s with phase := .dClose } :=
  chain_of_next (need_eq_next.mpr hcur) <| chain_of_next (isLeaf_of_field h.1) <|
    chain_of_next (symOf_of_field h.2) (if_pos hx)

theorem leafTest_of_reserved (hx : x ≠ 256#9) (hgt : 256 < x.toNat) : leafTest s = .next (abort .symRange s) :=
  chain_of_next (need_eq_next.mpr hcur) <| chain_of_next (isLeaf_of_field h.1) <|
    chain_of_next (symOf_of_field h.2) ((if_neg hx).trans (if_pos hgt))

theorem leafTest_of_byte (hx : x ≠ 256#9) (hle : ¬ 256 < x.toNat) (hopen : s.closed = false) :
    leafTest s = .next { s with
      outBits := s.outBits ++ bin 8 (lowByte x).toNat
      trace := s.trace ++ [.write 8 (lowByte x).toNat]
      cur := some 0
      phase := .dDec } :=
  chain_of_next (need_eq_next.mpr hcur) <| chain_of_next (isLeaf_of_field h.1) <|
    chain_of_next (symOf_of_field h.2) <| (if_neg hx).trans <| (if_neg hle).trans <|
      chain_of_next (memWrite_of_open 8 (lowByte x).toNat s hopen (by decide) (by decide)) rfl

end

end

/-! ## The run -/

/-- The decoder walks D and stands at `cur`; the bits u are left to read. -/
structure State.inPayload (s : State) (p : Params) (input out : Bits) (D cur : Tree) (u : Bits) : Prop where
  flight : s.inFlight p input .dDec out
  unread : Unread input s.rp u
  cursor : ∃ c, s.cur = some c ∧ Cursor s.dnode D cur c

section
variable {s : State} {p : Params} {input out u : Bits} {D cur : Tree} {b : Bit}

theorem expire_dnode_of_dDec (h : s.phase = .dDec) : (expire s).dnode = s.dnode := keep_of_mem (by rw [h]; decide)

theorem expire_cur_of_dDec (h : s.phase = .dDec) : (expire s).cur = s.cur := keep_of_mem (by rw [h]; decide)

/-- The state at the leaf test of the step that reads the bit b and moves to the record c. -/
def atLeafTest (b : Bit) (c : Nat) (s : State) : State :=
  { expire s with rp := s.rp + 1, trace := s.trace ++ [.read 1 (some b.toNat)], cur := some c }

/-- A step of D_DEC reads a bit, follows it, and makes the leaf test there (R178). -/
theorem step_moves (hs : s.inPayload p input out D cur (b :: u)) :
    ∃ c, step s = leafTest (atLeafTest b c s) ∧ DStored (atLeafTest b c s).dnode (walkPos D cur b) c := by
  obtain ⟨c, hcur, hcursor⟩ := hs.cursor
  have hph := hs.flight.command.inPhase
  obtain rfl := hs.flight.input
  rw [← expire_cur_of_dDec hph] at hcur
  rw [← expire_dnode_of_dDec hph] at hcursor
  obtain ⟨c', hdown, hst⟩ := walkDown_of_cursor (b := b)
    (s := { expire s with rp := s.rp + 1, trace := s.trace ++ [.read 1 (some b.toNat)] }) hcursor hcur
  refine ⟨c', (step_of_always hs.flight.command (by decide) rfl).trans ?_, hst⟩
  show execDeStep (expire s) = _
  rw [execDeStep, payloadBit, bitRead_one (s := expire s) hs.unread.head]
  exact chain_of_next hdown rfl

/-- The bits end before the terminator (R178, R212). -/
theorem ends_exhausted (hs : s.inPayload p input out D cur []) :
    s.ends { st := .error, err := .malformed, out := out, rp := input.length } := by
  obtain rfl := hs.flight.input
  have hlen : s.inBits.length = s.rp := hs.unread.length_eq
  have hend : s.inBits.length < s.rp + 1 := hlen.trans_lt (Nat.lt_succ_self _)
  have hexec : execDeStep (expire s) = .next (abort .malformed { expire s with trace := s.trace ++ [.read 1 none] }) := by
    rw [execDeStep, payloadBit, bitRead_of_gt 1 (expire s) hend]
    rfl
  exact ends_of_abort ((step_of_always hs.flight.command (by decide) rfl).trans hexec) hs.flight.output hlen.symm

/-- DE_CLOSE (R181). -/
theorem ends_done (hs : s.inFlight p input .dClose out) :
    s.ends { st := .done, err := .none, out := out, rp := s.rp } := by
  have hstep : step s = .next (finish (expire s)) := step_of_always hs.command (by decide) rfl
  refine ⟨_, State.reaches_of_step hstep, ?_, rfl, rfl⟩
  rw [State.result, finish_st, finish_err, finish_outBits, finish_rp, expire_err, expire_outBits, expire_rp, hs.noError,
    hs.output]

/-- From a position of the walk the command ends as the walk does (R175, R185, R198). -/
theorem ends_walkBits (hs : s.inPayload p input out D cur u) : s.ends (walkResult input out (walkBits D cur u)) := by
  induction u generalizing s out cur with
  | nil =>
    rw [walkBits_nil, walkResult, bytesToBits_nil, List.append_nil]
    exact ends_exhausted hs
  | cons b u ih =>
    obtain ⟨c, hstep, hst⟩ := step_moves hs
    have hnext : Unread input (s.rp + 1) u := Unread.advance (v := [b]) hs.unread
    have hdnode : (atLeafTest b c s).dnode = s.dnode := expire_dnode_of_dDec hs.flight.command.inPhase
    obtain ⟨c', -, hcursor⟩ := hs.cursor
    rw [← hdnode] at hcursor
    rw [walkBits_cons]
    cases hpos : walkPos D cur b with
    | internal w l r =>
      rw [hpos] at hst
      have hstep := hstep.trans (leafTest_of_internal rfl hst)
      exact (State.reaches_of_step hstep).ends (ih ⟨hs.flight.goesOn rfl, hnext, c, rfl, hcursor.next hpos hst⟩)
    | leaf x w =>
      rw [hpos] at hst
      rw [walkAt]
      by_cases hterm : x = 256#9
      · rw [if_pos hterm, walkResult, bytesToBits_nil, List.append_nil, ← hnext.rp_eq]
        have hstep := hstep.trans (leafTest_of_terminator rfl hst hterm)
        exact (State.reaches_of_step hstep).ends (ends_done (hs.flight.goesOn rfl))
      rw [if_neg hterm]
      by_cases hgt : 256 < x.toNat
      · rw [if_pos hgt, walkResult, bytesToBits_nil, List.append_nil, ← hnext.rp_eq]
        exact ends_of_abort (hstep.trans (leafTest_of_reserved rfl hst hterm hgt)) hs.flight.output rfl
      · rw [if_neg hgt, walkResult, bytesToBits_cons, ← List.append_assoc]
        have hstep := hstep.trans (leafTest_of_byte rfl hst hterm hgt hs.flight.isOpen)
        exact (State.reaches_of_step hstep).ends
          (ih ⟨hs.flight.writes rfl, hnext, 0, rfl, cursor_root hcursor.root⟩)

end

end Sys2Proof.Machine
end

section
/-! SUPPORT. The header as a function: ser read back by deser and by `scanHeader` (R93, R154, R161). -/

namespace Sys2Proof.Machine

theorem deserFuel_ser {T : Tree} {k : Nat} (hk : T.depth < k) (rest : Bits) :
    deserFuel k (ser T ++ rest) = some (T.unweighted, rest) := by
  induction T generalizing k rest with
  | leaf x w =>
    obtain ⟨k, rfl⟩ := Nat.exists_eq_add_one_of_ne_zero (Nat.ne_of_gt hk)
    have hlen : ¬ (bin 9 x.toNat ++ rest).length < 9 := by simp
    rw [ser, List.cons_append, deserFuel, if_neg hlen, List.take_append_of_le_length (by simp),
      List.take_of_length_le (by simp), List.drop_append_of_le_length (by simp), List.drop_of_length_le (by simp),
      val_bin_symbol, BitVec.ofNat_toNat, BitVec.setWidth_eq, Tree.unweighted, List.nil_append]
  | internal w a b iha ihb =>
    rw [Tree.depth] at hk
    obtain ⟨k, rfl⟩ := Nat.exists_eq_add_one_of_ne_zero (Nat.ne_of_gt (Nat.zero_lt_of_lt hk))
    rw [ser, List.cons_append, List.append_assoc, deserFuel, iha (by omega)]
    simp only [ihb (by omega : b.depth < k), Tree.unweighted]

/-- Every record takes a bit, and a tree has more records than levels. -/
theorem nodes_le_length_ser (T : Tree) : T.nodes ≤ (ser T).length := by
  induction T with
  | leaf => simp [ser, Tree.nodes]
  | internal w a b iha ihb =>
    rw [ser, List.length_cons, List.length_append, Tree.nodes]
    omega

theorem depth_lt_nodes (T : Tree) : T.depth < T.nodes := by
  induction T with
  | leaf => exact Nat.one_pos
  | internal w a b iha ihb =>
    rw [Tree.depth, Tree.nodes]
    omega

/-- The header read back is the tree written, without its weights (R161). -/
theorem deser_ser (T : Tree) (rest : Bits) : deser (ser T ++ rest) = some (T.unweighted, rest) := by
  have hdepth := depth_lt_nodes T
  have hnodes := nodes_le_length_ser T
  exact deserFuel_ser (by rw [List.length_append]; omega) rest

/-- A tree that fits the store is one subtree less to come, and its records more (R92, R156). -/
theorem scanHeader_ser {cap : Nat} {T : Tree} (k m : Nat) {n : Nat} (hn : n + T.nodes ≤ cap) (u : Bits) :
    scanHeader cap (k + T.nodes) (m + 1) n (ser T ++ u) = scanHeader cap k m (n + T.nodes) u := by
  induction T generalizing k m n u with
  | leaf x w =>
    rw [Tree.nodes] at hn ⊢
    have hlen : ¬ (bin 9 x.toNat ++ u).length < 9 := by simp
    rw [ser, List.cons_append, scanHeader, if_neg (by omega), if_pos rfl, if_neg hlen,
      List.drop_append_of_le_length (by simp), List.drop_of_length_le (by simp), List.nil_append]
  | internal w a b iha ihb =>
    rw [Tree.nodes] at hn ⊢
    have hfuel : k + (a.nodes + b.nodes + 1) = k + b.nodes + a.nodes + 1 := by omega
    have hcount : n + (a.nodes + b.nodes + 1) = n + 1 + a.nodes + b.nodes := by omega
    rw [ser, List.cons_append, List.append_assoc, hfuel, scanHeader, if_neg (by omega), if_neg Bool.false_ne_true,
      iha _ _ (by omega), ihb _ _ (by omega), hcount]

/-- A header that fits the store is complete (R154). -/
theorem scanHeader_of_fits {cap k : Nat} {T : Tree} (hcap : T.nodes ≤ cap) (hk : T.nodes ≤ k) (u : Bits) :
    scanHeader cap k 1 0 (ser T ++ u) = .complete T.nodes u := by
  obtain ⟨j, rfl⟩ := Nat.exists_eq_add_of_le' hk
  rw [scanHeader_ser (m := 0) (n := 0) j (by omega) u, scanHeader, Nat.zero_add]

end Sys2Proof.Machine
end

section
/-! SUPPORT. The payload as a function: the walk of a tree over the codes of an input gives the input back (R175, R185). -/

namespace Sys2Proof.Machine

/-! ## Trees without weights (R161) -/

theorem codeWalk_unweighted (T : Tree) (p : Bits) : codeWalk T.unweighted p = codeWalk T p := by
  induction T generalizing p with
  | leaf => rfl
  | internal w a b iha ihb => rw [Tree.unweighted, codeWalk, iha, ihb, codeWalk]

theorem codes_unweighted (T : Tree) : codes T.unweighted = codes T := by
  cases T with
  | leaf => rfl
  | internal w a b => exact codeWalk_unweighted (.internal w a b) []

theorem symbols_unweighted (T : Tree) : T.unweighted.symbols = T.symbols := by
  rw [← map_fst_codes, codes_unweighted, map_fst_codes]

theorem codeOf_unweighted (T : Tree) (x : Symbol) : codeOf T.unweighted x = codeOf T x := by
  rw [codeOf, codes_unweighted, codeOf]

theorem payload_unweighted (T : Tree) (X : List Byte) : payload T.unweighted X = payload T X := by
  simp only [payload, codeOf_unweighted]

/-! ## The walk along a code -/

theorem walkAt_internal_cons (w v : Nat) (a b l r : Tree) (c : Bit) (u : Bits) :
    walkAt (.internal w a b) (.internal v l r) (c :: u) = walkAt (.internal w a b) (if c then r else l) u :=
  walkBits_cons (.internal w a b) (.internal v l r) c u

/-- Below an internal root the bits of a code lead from its subtree to its leaf. -/
theorem walkAt_of_mem_codeWalk {w : Nat} {a b T : Tree} {p : Bits} {y : Symbol × Bits} (h : y ∈ codeWalk T p) :
    ∃ q v, y.2 = p ++ q ∧ ∀ u, walkAt (.internal w a b) T (q ++ u) = walkAt (.internal w a b) (.leaf y.1 v) u := by
  induction T generalizing p with
  | leaf x v =>
    rw [List.mem_singleton.mp h]
    exact ⟨[], v, (List.append_nil p).symm, fun _ => rfl⟩
  | internal v l r ihl ihr =>
    rcases List.mem_append.mp h with h | h
    · obtain ⟨q, v', hy, hq⟩ := ihl h
      exact ⟨false :: q, v', hy.trans (List.append_assoc ..), fun u => (walkAt_internal_cons ..).trans (hq u)⟩
    · obtain ⟨q, v', hy, hq⟩ := ihr h
      exact ⟨true :: q, v', hy.trans (List.append_assoc ..), fun u => (walkAt_internal_cons ..).trans (hq u)⟩

/-- The code of a leaf's symbol leads from the root to that leaf (R140, R178, R182). -/
theorem walkBits_codeOf {T : Tree} {x : Symbol} (hx : x ∈ T.symbols) (u : Bits) :
    ∃ v, walkBits T T (codeOf T x ++ u) = walkAt T (.leaf x v) u := by
  have hmem := mem_codes_codeOf hx
  cases T with
  | leaf y w =>
    obtain ⟨rfl, hcode⟩ := Prod.mk.inj (List.mem_singleton.mp hmem)
    exact ⟨w, by rw [hcode]; exact walkBits_cons ..⟩
  | internal w a b =>
    obtain ⟨q, v, hq, hwalk⟩ := walkAt_of_mem_codeWalk (w := w) (a := a) (b := b) hmem
    have hcode : codeOf (.internal w a b) x = q := hq
    exact ⟨v, hcode ▸ hwalk u⟩

/-- The walk over the payload of X gives back X and stops after the terminator's code (R185). -/
theorem walkBits_payload {T : Tree} {X : List Byte} (hterm : 256#9 ∈ T.symbols) (hX : ∀ b ∈ X, zext9 b ∈ T.symbols)
    (P : Bits) : walkBits T T (payload T X ++ P) = { bytes := X, how := .terminator, rest := P } := by
  induction X with
  | nil =>
    obtain ⟨v, hwalk⟩ := walkBits_codeOf hterm P
    rw [payload, List.flatMap_nil, List.nil_append, hwalk, walkAt, if_pos rfl]
  | cons b X ih =>
    obtain ⟨hb, hX⟩ := List.forall_mem_cons.mp hX
    obtain ⟨v, hwalk⟩ := walkBits_codeOf hb (payload T X ++ P)
    have hlt := b.isLt
    have hne : zext9 b ≠ 256#9 := fun h => by
      have := toNat_zext9 b
      rw [h, BitVec.toNat_ofNat] at this
      omega
    have hle : ¬ 256 < (zext9 b).toNat := by
      rw [toNat_zext9]
      omega
    rw [payload_cons, List.append_assoc, hwalk, walkAt, if_neg hne, if_neg hle, ih hX, lowByte_zext9]

end Sys2Proof.Machine
end

section
/-! SUPPORT. DECOMPRESS ends as `decompressResult` says (R198), and on a container followed by any bits it gives back the
input (R199). -/

namespace Sys2Proof.Machine

/-! ## The cases of `decompressResult` (R198) -/

section
variable {p : Params} {input u : Bits}

theorem decompressResult_of_short (h : input.length < 32) :
    decompressResult p input = { st := .error, err := .format, out := [], rp := 0 } := by
  rw [decompressResult, if_pos h]

variable (hlen : ¬ input.length < 32)
include hlen

theorem decompressResult_of_otherWord (h : val (input.take 32) ≠ p.magic.toNat) :
    decompressResult p input = { st := .error, err := .format, out := [], rp := 32 } := by
  rw [decompressResult, if_neg hlen, if_pos h]

variable (hmagic : val (input.take 32) = p.magic.toNat)
include hmagic

theorem decompressResult_of_malformed
    (h : scanHeader p.decNodeCap (input.length + 1) 1 0 (input.drop 32) = .malformed u) :
    decompressResult p input = { st := .error, err := .malformed, out := [], rp := input.length - u.length } := by
  rw [decompressResult, if_neg hlen, if_neg (not_not_intro hmagic), h]

theorem decompressResult_of_capacity
    (h : scanHeader p.decNodeCap (input.length + 1) 1 0 (input.drop 32) = .capacity u) :
    decompressResult p input = { st := .error, err := .capacity, out := [], rp := input.length - u.length } := by
  rw [decompressResult, if_neg hlen, if_neg (not_not_intro hmagic), h]

theorem decompressResult_of_complete {n : Nat} {T : Tree}
    (h : scanHeader p.decNodeCap (input.length + 1) 1 0 (input.drop 32) = .complete n u)
    (hdeser : deser (input.drop 32) = some (T, u)) :
    decompressResult p input = walkResult input [] (walkBits T T u) := by
  simp only [decompressResult, if_neg hlen, hmagic, ne_eq, not_true_eq_false, if_false, h, hdeser]
  cases hhow : (walkBits T T u).how <;> simp only [walkResult, hhow, WalkEnd.st, WalkEnd.err, List.nil_append]

end

/-! ## The stages of DECOMPRESS -/

section
variable {s : State} {p : Params} {input out : Bits}

theorem step_deMagic (hs : s.inFlight p input .dMagic out) : step s = exec .deMagic (expire s) :=
  step_of_always hs.command (by decide) rfl

/-- In D_MAGIC the decompressor's tables hold no value (R40). -/
theorem expire_tables_of_dMagic (h : s.phase = .dMagic) :
    (expire s).dnode.length = s.par.decNodeCap ∧ (expire s).dstack.length = s.par.decNodeCap := by
  have hdnode : (expire s).dnode = _ := keep_of_not_mem (by rw [h]; decide)
  have hdstack : (expire s).dstack = _ := keep_of_not_mem (by rw [h]; decide)
  rw [hdnode, hdstack, List.length_replicate, List.length_replicate]
  exact ⟨rfl, rfl⟩

/-- A stream too short for the constant (R176). -/
theorem ends_short (hs : s.inFlight p input .dMagic out) (hrp : s.rp = 0) (hlen : input.length < 32) :
    s.ends { st := .error, err := .format, out := out, rp := 0 } := by
  have hend : (expire s).inBits.length < (expire s).rp + 32 := by
    rw [expire_inBits, expire_rp, hs.input, hrp]
    omega
  exact ends_of_abort ((step_deMagic hs).trans (exec_deMagic_of_end hend)) hs.output hrp

/-- A stream that begins with another word (R176). -/
theorem ends_otherWord (hs : s.inFlight p input .dMagic out) (hrp : s.rp = 0) {m : BitVec 32}
    (hin : input.take 32 = bin 32 m.toNat) (hm : m ≠ p.magic) :
    s.ends { st := .error, err := .format, out := out, rp := 32 } := by
  have htake : ((expire s).inBits.drop (expire s).rp).take 32 = bin 32 m.toNat := by
    rw [expire_inBits, expire_rp, hs.input, hrp, List.drop_zero, hin]
  have hexec := (step_deMagic hs).trans (exec_deMagic_of_take htake)
  rw [if_neg (by rw [expire_par, hs.par]; exact hm)] at hexec
  exact ends_of_abort hexec hs.output (congrArg (· + 32) hrp)

/-- A stream that begins with the constant (R176). -/
theorem reaches_dHdinit (hs : s.inFlight p input .dMagic out) (hrp : s.rp = 0)
    (hin : input.take 32 = bin 32 p.magic.toNat) :
    ∃ t, s.reaches t ∧ t.inFlight p input .dHdinit out ∧ t.rp = 32 ∧ t.dnode.length = p.decNodeCap ∧
      t.dstack.length = p.decNodeCap := by
  have htake : ((expire s).inBits.drop (expire s).rp).take 32 = bin 32 p.magic.toNat := by
    rw [expire_inBits, expire_rp, hs.input, hrp, List.drop_zero, hin]
  have hexec := (step_deMagic hs).trans (exec_deMagic_of_take htake)
  rw [if_pos (by rw [expire_par, hs.par])] at hexec
  obtain ⟨hdnode, hdstack⟩ := expire_tables_of_dMagic hs.command.inPhase
  rw [hs.par] at hdnode hdstack
  exact ⟨_, State.reaches_of_step hexec, hs.goesOn rfl, congrArg (· + 32) hrp, hdnode, hdstack⟩

/-- The header reader starts with no record and the root's to come (R155). -/
theorem reaches_inHeader {u : Bits} (hs : s.inFlight p input .dHdinit out) (hunread : Unread input s.rp u)
    (hdnode : s.dnode.length = p.decNodeCap) (hdstack : s.dstack.length = p.decNodeCap) :
    ∃ t, s.reaches t ∧ t.inHeader p input out 0 [.root] u := by
  obtain rfl := hs.par
  have hdnode' : (expire s).dnode = s.dnode := keep_of_mem (by rw [hs.command.inPhase]; decide)
  have hdstack' : (expire s).dstack = s.dstack := keep_of_mem (by rw [hs.command.inPhase]; decide)
  have hstep : step s = .next { expire s with dnext := some 0, dsp := some 0, phase := .dHdr } :=
    step_of_always hs.command (by decide) rfl
  rw [← hdnode'] at hdnode
  rw [← hdstack'] at hdstack
  have hframes : Frames (expire s).dstack 0 [] := ⟨trivial, le_rfl, fun e he => absurd he List.not_mem_nil⟩
  exact ⟨_, State.reaches_of_step hstep, hs.goesOn rfl, hunread,
    ⟨rfl, Nat.zero_le _, hdnode, hdstack, ⟨[], rfl, hframes, .inr ⟨rfl, rfl, rfl⟩⟩, List.nodup_singleton _⟩,
    fun h => absurd h (List.cons_ne_nil _ _)⟩

/-- Once the header is complete, the command ends as the walk of its tree over the bits left ends. -/
theorem exists_tree_of_rebuilds {d : List DNode} {m : Nat} {v rest : Bits} (hs : s.inHeader p input out m [] rest)
    (hr : Rebuilds d s.dnode 0 [.root] v) :
    ∃ T, v = ser T ∧ T.unweighted = T ∧ s.ends (walkResult input out (walkBits T T rest)) := by
  obtain ⟨-, Ts, hfilled, rfl, hTs⟩ := hr
  cases hfilled with
  | cons hT hnil =>
    cases hnil
    refine ⟨_, List.flatMap_singleton .., hTs _ (List.mem_singleton_self _), ?_⟩
    exact ends_walkBits ⟨hs.flight, hs.unread, 0, hs.cur rfl, cursor_root hT⟩

/-- DECOMPRESS from D_MAGIC on, its ways of ending tested in order (R198). -/
theorem ends_decompressResult (hs : s.inFlight p input .dMagic []) (hrp : s.rp = 0) :
    s.ends (decompressResult p input) := by
  by_cases hlen : input.length < 32
  · rw [decompressResult_of_short hlen]
    exact ends_short hs hrp hlen
  obtain ⟨m, hm⟩ := exists_word (n := 32) (Nat.le_of_not_lt hlen)
  have hval : val (input.take 32) = m.toNat := by rw [hm, val_bin_magic]
  by_cases hmagic : m = p.magic
  case neg =>
    rw [decompressResult_of_otherWord hlen (by rw [hval]; exact fun h => hmagic (BitVec.eq_of_toNat_eq h))]
    exact ends_otherWord hs hrp hm hmagic
  subst hmagic
  obtain ⟨s', hrun', hs', hrp', hdnode, hdstack⟩ := reaches_dHdinit hs hrp hm
  have hunread : Unread input s'.rp (input.drop 32) :=
    ⟨input.take 32, (List.take_append_drop 32 input).symm,
      hrp'.trans (List.length_take_of_le (Nat.le_of_not_lt hlen)).symm⟩
  obtain ⟨t, hrun, ht⟩ := reaches_inHeader hs' hunread hdnode hdstack
  replace hrun := hrun'.trans hrun
  have hscan := headerEnds_scanHeader ht (k := input.length + 1) (by rw [List.length_drop]; omega)
  rw [List.length_singleton] at hscan
  cases he : scanHeader p.decNodeCap (input.length + 1) 1 0 (input.drop 32) with
  | malformed rest =>
    rw [decompressResult_of_malformed hlen hval he]
    rw [he] at hscan
    exact hrun.ends hscan
  | capacity rest =>
    rw [decompressResult_of_capacity hlen hval he]
    rw [he] at hscan
    exact hrun.ends hscan
  | complete n rest =>
    rw [he] at hscan
    obtain ⟨t', n', v, hrun', ht', hbits, hr⟩ := hscan
    obtain ⟨T, rfl, hT, hends⟩ := exists_tree_of_rebuilds ht' hr
    have hdeser := deser_ser T rest
    rw [← hbits, hT] at hdeser
    rw [decompressResult_of_complete hlen hval he hdeser]
    exact hrun.ends (hrun'.ends hends)

end

/-- Settles O58: the accepted command ends as `decompressResult` says. -/
theorem decompressEndsInOneOfItsWays : Obligations.DecompressEndsInOneOfItsWays := by
  intro s _ habout _
  obtain ⟨hrp, -, -⟩ := habout.streams
  obtain ⟨t, ⟨k, hrun⟩, hresult, hclosed, hphase⟩ :=
    (State.reaches_of_step (step_accepts_decompress habout)).ends
      (ends_decompressResult (inFlight_accepted .dMagic habout) hrp)
  exact ⟨k, t, hrun, hresult, hclosed, hphase⟩

/-- What DECOMPRESS gives on the parts of a container and any bits after them (R90, R199). -/
theorem decompressResult_of_parts {p : Params} {input P : Bits} {T : Tree} {X : List Byte} (hT : TreeFor X T)
    (hcap : T.nodes ≤ p.decNodeCap) (hin : input = bin 32 p.magic.toNat ++ (ser T ++ (payload T X ++ P))) :
    decompressResult p input =
      { st := .done, err := .none, out := bytesToBits X, rp := input.length - P.length } := by
  have hword : input.take 32 = bin 32 p.magic.toNat := hin ▸ List.take_left' (length_bin ..)
  have hrest : input.drop 32 = ser T ++ (payload T X ++ P) := hin ▸ List.drop_left' (length_bin ..)
  have hlen : input.length = 32 + ((ser T).length + (payload T X ++ P).length) := by
    rw [hin, List.length_append, List.length_append, length_bin]
  have hser := nodes_le_length_ser T
  have hscan := scanHeader_of_fits hcap (show T.nodes ≤ input.length + 1 by omega) (payload T X ++ P)
  have hdeser := deser_ser T (payload T X ++ P)
  rw [← hrest] at hscan hdeser
  have hwalk : walkBits T.unweighted T.unweighted (payload T X ++ P) = { bytes := X, how := .terminator, rest := P } := by
    rw [← payload_unweighted]
    exact walkBits_payload (by rw [symbols_unweighted]; exact hT.terminator_mem)
      (fun b hb => by rw [symbols_unweighted]; exact hT.byte_mem hb) P
  rw [decompressResult_of_complete (by omega) (by rw [hword, val_bin_magic]) hscan hdeser, hwalk, walkResult, WalkEnd.st,
    WalkEnd.err, List.nil_append]

theorem decompressResult_container {p : Params} {X : List Byte} {c : Bits} (hp : p.wellFormed = true)
    (hc : container p X = some c) (P : Bits) :
    decompressResult p (c ++ P) = { st := .done, err := .none, out := bytesToBits X, rp := c.length } := by
  obtain ⟨⟨i, T⟩, hbuild, rfl⟩ := Option.map_eq_some_iff.mp hc
  have hT := treeFor_of_build hbuild
  obtain ⟨-, hcap, -⟩ := wellFormed_iff.mp hp
  rw [decompressResult_of_parts hT (hT.nodes.trans hcap) (P := P) (by simp only [List.append_assoc]), List.length_append,
    Nat.add_sub_cancel]

/-- Settles O59: DECOMPRESS ends as `decompressResult` says, which on a container is its input. -/
theorem decompressInvertsCompress : Obligations.DecompressInvertsCompress := by
  intro s X c P hp habout hsized _ hc hin
  obtain ⟨k, t, hrun, hresult, -, -⟩ := decompressEndsInOneOfItsWays s hp habout hsized
  rw [hin, decompressResult_container hp hc, State.result, RunResult.mk.injEq] at hresult
  obtain ⟨hst, herr, hout, hrp⟩ := hresult
  exact ⟨k, t, hrun, hst, herr, hout, hrp⟩

end Sys2Proof.Machine
end

section
/-! SUPPORT. The encodings (R97, R101, R103, R104, R106): the tables of the decoder and of the encoder undo each other. -/

namespace Sys2Proof

/-! ## Words of a number -/

/-- The bits of a word and more bits after them split at the word's length. -/
theorem take_bin_append (n v : Nat) (u : Bits) : (bin n v ++ u).take n = bin n v := List.take_left' (length_bin n v)

theorem drop_bin_append (n v : Nat) (u : Bits) : (bin n v ++ u).drop n = u := List.drop_left' (length_bin n v)

theorem phaseCode_of_phaseOf {code : BitVec 5} {ph : Phase} (h : phaseOf code = some ph) : phaseCode ph = code := by
  have hall : ∀ c : BitVec 5, ∀ q, phaseOf c = some q → phaseCode q = c := by decide
  exact hall code ph h

/-! ## Stream tokens (R97, R106) -/

theorem decodeToken_hdrLeaf (p : Params) (x : Symbol) (rest : Bits) :
    decodeToken p .header (true :: bin 9 x.toNat ++ rest) = .ok (.hdrLeaf x) rest := by
  have hlen : ¬ (bin 9 x.toNat ++ rest).length < 9 := by simp
  rw [List.cons_append, decodeToken, if_neg hlen, take_bin_append, drop_bin_append, val_bin_symbol, BitVec.ofNat_toNat,
    BitVec.setWidth_eq]

theorem decodeToken_magic (p : Params) (rest : Bits) :
    decodeToken p .magic (bin 32 p.magic.toNat ++ rest) = .ok .magic rest := by
  have hlen : ¬ (bin 32 p.magic.toNat ++ rest).length < 32 := by simp
  rw [decodeToken, if_neg hlen, take_bin_append, if_pos (val_bin_magic _), drop_bin_append]

/-- A token read off the front of a bit sequence is its own word, and the rest is left. -/
theorem encode_of_decodeToken {p : Params} {sec : Sect} {bits rest : Bits} {i : Instr}
    (h : decodeToken p sec bits = .ok i rest) : ∃ w, encode p i = .stream sec w ∧ bits = w ++ rest := by
  cases sec with
  | magic =>
    rw [decodeToken] at h
    split at h
    next => cases h
    next hlen =>
      split at h
      next hval =>
        cases h
        have htake : (bits.take 32).length = 32 := List.length_take_of_le (Nat.le_of_not_lt hlen)
        refine ⟨_, rfl, ?_⟩
        rw [← hval, bin_val_of_length htake, List.take_append_drop]
      next => cases h
  | header =>
    cases bits with
    | nil => cases h
    | cons t u =>
      cases t with
      | false =>
        cases h
        exact ⟨_, rfl, rfl⟩
      | true =>
        rw [decodeToken] at h
        split at h
        next => cases h
        next hlen =>
          cases h
          have htake : (u.take 9).length = 9 := List.length_take_of_le (Nat.le_of_not_lt hlen)
          have hlt := val_lt (u.take 9)
          rw [htake] at hlt
          refine ⟨_, rfl, ?_⟩
          rw [BitVec.toNat_ofNat, Nat.mod_eq_of_lt hlt, bin_val_of_length htake, List.cons_append, List.take_append_drop]
  | payload =>
    cases bits with
    | nil => cases h
    | cons b u => cases b <;> cases h <;> exact ⟨_, rfl, rfl⟩

/-! ## Phases with a condition (R104) -/

/-- No two rows of the selection table name the same unit operation. -/
theorem encode_of_decodePhase {p : Params} {ph : Phase} {c : Cond} {i : Instr} (h : decodePhase ph c = .ok i) :
    encode p i = .phase (phaseCode ph) c := by
  cases ph <;> cases c <;> cases h <;> rfl

theorem encode_decodeCmd (p : Params) (op : BitVec 2) : encode p (decodeCmd op) = .cmd op := by
  have hall : ∀ op : BitVec 2, op = 0#2 ∨ op = 1#2 ∨ op = 2#2 ∨ op = 3#2 := by decide
  rcases hall op with rfl | rfl | rfl | rfl <;> rfl

/-! ## The statements -/

/-- Settles O50: the words with bits in them are read back by the lemmas on tokens, all others by the tables. -/
theorem decodeInvertsEncode : Obligations.DecodeInvertsEncode := by
  intro p i
  cases i with
  | magic =>
    have h := decodeToken_magic p []
    rw [List.append_nil] at h
    simp only [encode, decode, h]
  | hdrLeaf x =>
    have h := decodeToken_hdrLeaf p x []
    rw [List.append_nil] at h
    simp only [encode, decode, h]
  | _ => rfl

/-- Settles O51, by the three kinds of word. -/
theorem encodeInvertsDecode : Obligations.EncodeInvertsDecode := by
  refine ⟨fun p w i h => ?_, fun p sec bits rest i h => encode_of_decodeToken h⟩
  cases w with
  | cmd op =>
    cases h
    exact encode_decodeCmd p op
  | phase code c =>
    rw [decode] at h
    split at h
    next => cases h
    next ph hph => rw [← phaseCode_of_phaseOf hph, encode_of_decodePhase h]
  | stream sec bits =>
    rw [decode] at h
    split at h
    next htok =>
      cases h
      obtain ⟨w, hw, rfl⟩ := encode_of_decodeToken htok
      rw [hw, List.append_nil]
    next => cases h
    next => cases h

/-- Settles O52: closed words, read by the decoder. -/
theorem wordsOfTheSpecDecode : Obligations.WordsOfTheSpecDecode := by
  refine ⟨rfl, rfl, rfl, rfl, ?_, ?_, ?_, rfl, rfl, rfl, rfl⟩ <;> decide

end Sys2Proof
end

section
/-! SUPPORT. Codes, headers and payloads as functions: no code begins with another (R144), and what is written is read
back (R161, R185). -/

namespace Sys2Proof.Machine

/-- Every code below a path begins with it. -/
theorem prefix_of_mem_codeWalk {T : Tree} {p : Bits} {y : Symbol × Bits} (h : y ∈ codeWalk T p) : p <+: y.2 := by
  obtain ⟨q, -, hq, -⟩ := walkAt_of_mem_codeWalk (w := 0) (a := T) (b := T) h
  exact ⟨q, hq.symm⟩

/-- Of two sequences that leave a path by its two branches neither begins with the other (R144). -/
theorem not_prefix_of_branches {p u v : Bits} {b : Bit} (hu : p ++ [b] <+: u) (hv : p ++ [!b] <+: v) : ¬ u <+: v := by
  intro h
  have hlen : (p ++ [b]).length = (p ++ [!b]).length := by rw [List.length_append, List.length_append]; rfl
  have heq := (List.prefix_of_prefix_length_le (hu.trans h) hv hlen.le).eq_of_length hlen
  cases b <;> simp at heq

theorem pairwise_codeWalk (T : Tree) (p : Bits) :
    (codeWalk T p).Pairwise fun x y => ¬ x.2 <+: y.2 ∧ ¬ y.2 <+: x.2 := by
  induction T generalizing p with
  | leaf x w => exact List.pairwise_singleton _ _
  | internal w a b iha ihb =>
    refine List.pairwise_append.mpr ⟨iha _, ihb _, fun x hx y hy => ?_⟩
    have hx := prefix_of_mem_codeWalk hx
    have hy := prefix_of_mem_codeWalk hy
    exact ⟨not_prefix_of_branches hx hy, not_prefix_of_branches hy hx⟩

/-- Settles O22: two leaves part at a node, and their codes with them. -/
theorem codesArePrefixFree : Obligations.CodesArePrefixFree := by
  intro T
  cases T with
  | leaf x w => exact List.pairwise_singleton _ _
  | internal w a b => exact pairwise_codeWalk (.internal w a b) []

/-- Settles O32. -/
theorem headerRoundTrip : Obligations.HeaderRoundTrip := deser_ser

/-- Settles O43: each code leads the walk to its own leaf. -/
theorem walkInvertsThePayload : Obligations.WalkInvertsThePayload :=
  fun _ _ P _ hterm hX => walkBits_payload hterm hX P

end Sys2Proof.Machine
end

section
/-! SUPPORT. The transactions (R60 to R71): what a read returns and what a write appends. -/

namespace Sys2Proof.Machine

/-- Settles O10, by whether n bits are left. -/
theorem bitReadReturnsTheNextBits : Obligations.BitReadReturnsTheNextBits := by
  refine fun n s => ⟨fun hle => ?_, bitRead_of_gt n s⟩
  obtain ⟨v, hv⟩ := exists_word (n := n) (u := s.inBits.drop s.rp) (by rw [List.length_drop]; omega)
  have hval : val (bin n v.toNat) = v.toNat := (val_bin n v.toNat).trans (Nat.mod_eq_of_lt v.isLt)
  refine ⟨v, hv.symm, ?_⟩
  rw [bitRead_of_le n s hle, hv, hval, BitVec.ofNat_toNat, BitVec.setWidth_eq]

theorem memWrite_of_closed (n v : Nat) {s : State} (h : s.closed = true) : memWrite n v s = .fault .writeAfterClose :=
  if_pos h

/-- Settles O11, by whether OUT is open. -/
theorem bitWriteAppendsTheLowBits : Obligations.BitWriteAppendsTheLowBits :=
  ⟨memWrite_of_open, fun n v i => ⟨length_bin n v, getElem?_bin n v i⟩, writeCode_of_open,
    fun n v _ => memWrite_of_closed n v⟩

end Sys2Proof.Machine
end

section
/-! SUPPORT. The second pass of COMPRESS over any table of codes (R165, R171). -/

namespace Sys2Proof.Machine

theorem State.sameOutside.err_eq {s t : State} (h : t.sameOutside s) : t.err = s.err :=
  show (dropTables t).err = (dropTables s).err from congrArg State.err h

/-- CODE_LEN and CODE_BITS hold the code c of the symbol x, of 1 to 256 bits (R34). -/
structure State.hasCode (s : State) (x : Symbol) (c : Bits) : Prop where
  len : s.codeLen[x.toNat]? = some (some c.length)
  bits : s.codeBits[x.toNat]? = some (some c)
  pos : 1 ≤ c.length
  le : c.length ≤ 256

section
variable {s : State} {X : List Byte} {K : Symbol → Bits} {x : Symbol} {b : Byte} {c : Bits}

theorem State.hasCode.congr {t : State} (h : s.hasCode x c) (hl : t.codeLen = s.codeLen) (hb : t.codeBits = s.codeBits) :
    t.hasCode x c :=
  ⟨hl ▸ h.len, hb ▸ h.bits, h.pos, h.le⟩

/-- In C_REWIND and C_ENC the codes are live (R40). -/
theorem State.hasCode.expire (h : s.hasCode x c) (hph : s.phase = .cRewind ∨ s.phase = .cEnc) :
    (expire s).hasCode x c := by
  have hlen : (Machine.expire s).codeLen = s.codeLen := keep_of_mem (by rcases hph with h | h <;> rw [h] <;> decide)
  have hbits : (Machine.expire s).codeBits = s.codeBits := keep_of_mem (by rcases hph with h | h <;> rw [h] <;> decide)
  exact h.congr hlen hbits

/-- EN_SYM on a byte with the code c appends c (R168). -/
theorem exec_enSym_of_hasCode (h : s.hasCode (zext9 b) c) (hopen : s.closed = false) :
    exec (.enSym b) s = .next { s with
      outBits := s.outBits ++ c
      trace := s.trace ++ [codeWrite c]
      phase := .cEnc } := by
  obtain ⟨hlen, hbits, hpos, hle⟩ := h
  rw [toNat_zext9] at hlen hbits
  rw [exec_enSym_of_code hlen hbits le_rfl hpos hle hopen, List.take_length]
  rfl

/-- EN_TERM where the terminator has the code c appends c (R169). -/
theorem exec_enTerm_of_hasCode (h : s.hasCode 256#9 c) (hopen : s.closed = false) :
    exec .enTerm s = .next { s with
      outBits := s.outBits ++ c
      trace := s.trace ++ [codeWrite c]
      phase := .cClose } := by
  obtain ⟨hlen, hbits, hpos, hle⟩ := h
  rw [exec_enTerm_of_code hlen hbits le_rfl hpos hle hopen, List.take_length]
  rfl

/-- What the step of C_ENC that reads the byte b, of the code c, makes of a core. -/
def encoded (b : Byte) (c : Bits) (s : State) : State :=
  { expire s with
    rp := s.rp + 8
    outBits := s.outBits ++ c
    trace := s.trace ++ [.read 8 (some b.toNat)] ++ [codeWrite c]
    phase := .cEnc }

theorem encoded_inCommand (b : Byte) (c : Bits) (h : s.inCommand .cEnc) : (encoded b c s).inCommand .cEnc :=
  ⟨h.noReset, h.ready, h.busy, rfl⟩

theorem step_encodes_byte (h : s.inCommand .cEnc) (hopen : s.closed = false) (hcode : s.hasCode (zext9 b) c)
    (hin : (s.inBits.drop s.rp).take 8 = bin 8 b.toNat) : step s = .next (encoded b c s) :=
  (step_of_byte h (.inr rfl) hin rfl).trans
    (exec_enSym_of_hasCode ((hcode.expire (.inr h.inPhase)).congr rfl rfl) hopen)

theorem step_encodes_terminator (h : s.inCommand .cEnc) (hopen : s.closed = false) (hcode : s.hasCode 256#9 c)
    (hin : s.inBits.length < s.rp + 8) :
    step s = .next { expire s with
      outBits := s.outBits ++ c
      trace := s.trace ++ [.read 8 none] ++ [codeWrite c]
      phase := .cClose } :=
  (step_of_end h (.inr rfl) hin rfl).trans
    (exec_enTerm_of_hasCode ((hcode.expire (.inr h.inPhase)).congr rfl rfl) hopen)

/-- The core outside its tables when the bytes X and the terminator are encoded with the codes K, from C_ENC on. -/
def encodedAll (K : Symbol → Bits) (X : List Byte) (s : State) : State :=
  { s with
    phase := .cClose
    rp := s.rp + 8 * X.length
    outBits := s.outBits ++ (X.flatMap fun b => K (zext9 b)) ++ K 256#9
    trace := s.trace ++ (X.flatMap fun b => [.read 8 (some b.toNat), codeWrite (K (zext9 b))]) ++
      [.read 8 none, codeWrite (K 256#9)] }

/-- Encoding a byte and then the rest is encoding all of them. -/
theorem encodedAll_encoded (K : Symbol → Bits) (b : Byte) (X : List Byte) (s : State) :
    (encodedAll K X (encoded b (K (zext9 b)) s)).sameOutside (encodedAll K (b :: X) s) := by
  have hrp : s.rp + 8 + 8 * X.length = s.rp + 8 * (b :: X).length := by rw [List.length_cons]; omega
  simp [State.sameOutside, dropTables, encodedAll, encoded, hrp]

/-- From C_ENC the second pass over the bytes X writes the codes K (R165, R168, R169). -/
theorem run_encodes (h : s.inCommand .cEnc) (hopen : s.closed = false) (hin : s.inBits.drop s.rp = bytesToBits X)
    (hX : ∀ b ∈ X, s.hasCode (zext9 b) (K (zext9 b))) (hterm : s.hasCode 256#9 (K 256#9)) :
    ∃ t, run (X.length + 1) s = .next t ∧ t.sameOutside (encodedAll K X s) := by
  induction X generalizing s with
  | nil =>
    have hend : s.inBits.length < s.rp + 8 := by
      have := List.drop_eq_nil_iff.mp hin
      omega
    refine ⟨_, (run_one s).trans (step_encodes_terminator h hopen hterm hend), ?_⟩
    simp [State.sameOutside, dropTables, encodedAll]
  | cons b X ih =>
    obtain ⟨hb, hX⟩ := List.forall_mem_cons.mp hX
    have hlive : ∀ {x c}, s.hasCode x c → (encoded b (K (zext9 b)) s).hasCode x c :=
      fun hc => (hc.expire (.inr h.inPhase)).congr rfl rfl
    have hstep := step_encodes_byte h hopen hb (take_of_drop_eq_bytesToBits hin)
    obtain ⟨t, ht, hout⟩ := ih (encoded_inCommand b _ h) hopen (drop_add_of_drop_eq_bytesToBits hin)
      (fun b hb => hlive (hX b hb)) (hlive hterm)
    exact ⟨t, (run_succ_of_step hstep).trans ht, hout.trans (encodedAll_encoded K b X s)⟩

end

/-- Settles O38: EN_REWIND, the codes by `run_encodes`, and EN_CLOSE. -/
theorem secondPassWritesThePayload : Obligations.SecondPassWritesThePayload := by
  intro s X K h hopen hin hK
  have hcode : ∀ x, (x = 256#9 ∨ ∃ b ∈ X, x = zext9 b) →
      State.hasCode { rewind (expire s) with phase := .cEnc } x (K x) := fun x hx => by
    obtain ⟨hlen, hbits, hpos, hle⟩ := hK x hx
    exact (State.hasCode.expire ⟨hlen, hbits, hpos, hle⟩ (.inl h.inPhase)).congr rfl rfl
  have hstep : step s = .next { rewind (expire s) with phase := .cEnc } := step_of_always h (by decide) rfl
  obtain ⟨t, hrun, hout⟩ := run_encodes (X := X) (s := { rewind (expire s) with phase := .cEnc })
    ⟨h.noReset, h.ready, h.busy, rfl⟩ hopen hin (fun b hb => hcode _ (.inr ⟨b, hb, rfl⟩)) (hcode _ (.inl rfl))
  have hclose : step t = .next (finish (expire t)) :=
    step_of_always (hout.inCommand (ph := .cClose) ⟨h.noReset, h.ready, h.busy, rfl⟩) (by decide) rfl
  refine ⟨_, (run_succ_of_step hstep).trans ((run_add hrun).trans ((run_one t).trans hclose)), rfl,
    hout.err_eq, rfl, rfl, hout.outBits_eq, ?_, ?_⟩
  · rw [finish_rp, expire_rp, hout.rp_eq, hin, length_bytesToBits]
    exact Nat.zero_add _
  · rw [finish_trace, expire_trace, hout.trace_eq]
    simp [encodedAll]

end Sys2Proof.Machine
end

section
/-! SUPPORT. HD_STEP and the header tokens, one record at a time (R156 to R158, R218). -/

namespace Sys2Proof.Machine

/-! ## The record at the read position -/

/-- The state after the reads l, of n bits in all. -/
def readOn (n : Nat) (l : List Transaction) (s : State) : State :=
  { s with rp := s.rp + n, trace := s.trace ++ l }

section
variable {s : State} {op : Instr} {x : Symbol} {i : Nat}

/-- Of the ten bits of a leaf record the first is its tag and the others are its symbol (R92). -/
theorem leafRecord_bits (h : (s.inBits.drop s.rp).take 10 = true :: bin 9 x.toNat) :
    s.inBits[s.rp]? = some true ∧ (s.inBits.drop (s.rp + 1)).take 9 = bin 9 x.toNat := by
  have hdrop : (s.inBits.drop s.rp).drop 1 = s.inBits.drop (s.rp + 1) := List.drop_drop
  rw [← hdrop]
  cases hu : s.inBits.drop s.rp with
  | nil => rw [hu] at h; cases h
  | cons b u =>
    rw [hu, List.take_succ_cons] at h
    obtain ⟨rfl, h⟩ := List.cons.inj h
    refine ⟨?_, by rwa [List.drop_succ_cons, List.drop_zero]⟩
    rw [← Nat.add_zero s.rp, ← List.getElem?_drop, hu, List.getElem?_cons_zero]

/-- The unit operation and the token read an internal node's record and add it (R156, R157). -/
theorem exec_internalRecord (hop : op = .hdStep ∨ op = .hdrInternal) (hin : s.inBits[s.rp]? = some false)
    (hi : s.dnext = some i) (hne : i ≠ s.par.decNodeCap) :
    exec op s = addInternal (readOn 1 [.read 1 (some 0)] s) := by
  rcases hop with rfl | rfl
  · show headerTag s _ = _
    rw [headerTag, bitRead_one hin]
    exact chain_of_next (need_eq_next.mpr hi) (if_neg hne)
  · show headerTag s _ = _
    rw [headerTag, bitRead_one hin]
    exact chain_of_next (need_eq_next.mpr hi) (if_neg hne)

/-- The unit operation and the token read a leaf's record and add it (R156, R158). -/
theorem exec_leafRecord (hop : op = .hdStep ∨ op = .hdrLeaf x)
    (hin : (s.inBits.drop s.rp).take 10 = true :: bin 9 x.toNat) (hi : s.dnext = some i) (hne : i ≠ s.par.decNodeCap) :
    exec op s = addLeaf x (readOn 10 [.read 1 (some 1), .read 9 (some x.toNat)] s) := by
  obtain ⟨htag, hsym⟩ := leafRecord_bits hin
  rw [readOn, List.append_cons]
  rcases hop with rfl | rfl
  · show headerTag s _ = _
    rw [headerTag, bitRead_one htag]
    exact chain_of_next (need_eq_next.mpr hi) ((if_neg hne).trans (headerSymbol_of_take hsym))
  · show headerTag s _ = _
    rw [headerTag, bitRead_one htag]
    exact chain_of_next (need_eq_next.mpr hi) ((if_neg hne).trans (headerSymbol_of_take hsym))

end

/-! ## The record added, by the place it goes to -/

section
variable {s a : State} {x : Symbol} {i n : Nat}

/-- An internal node's record after its attachment has left the state a. -/
theorem addInternal_of_attach (hi : s.dnext = some i) (ha : attach i { s with dnext := some (i + 1) } = .next a)
    (hlt : i < a.dnode.length) (hn : a.dsp = some n) (hdsp : n < a.dstack.length) :
    addInternal s = .next { a with
      dnode := a.dnode.modify i DNode.asInternal
      dstack := a.dstack.set n (some { node := i, stage := false })
      dsp := some (n + 1)
      phase := .dHdr } :=
  addInternal_eq_next.mpr ⟨i, a, n, hi, ha, hlt, hn, hdsp, rfl⟩

/-- A leaf's record after its attachment has left the state a. -/
theorem addLeaf_of_attach (hi : s.dnext = some i) (ha : attach i { s with dnext := some (i + 1) } = .next a)
    (hlt : i < a.dnode.length) (hn : a.dsp = some n) :
    addLeaf x s = .next { a with
      dnode := a.dnode.set i (DNode.ofLeaf x)
      cur := if n = 0 then some 0 else a.cur
      phase := if n = 0 then .dDec else .dHdr } := by
  refine addLeaf_eq_next.mpr ⟨i, a, hi, ha, hlt, headerEnd_eq_next.mpr ?_⟩
  rw [modify_const]
  cases n with
  | zero => exact .inl ⟨hn, rfl⟩
  | succ n => exact .inr ⟨n, hn, rfl⟩

end

/-- Settles O26: a record attached to nothing. -/
theorem hdStepStoresAFirstRecord : Obligations.HdStepStoresAFirstRecord := by
  intro s i hi hlt hd hds hdsp
  refine ⟨fun op hop hin => ?_, fun op x hop hin => ?_⟩
  · rw [exec_internalRecord hop hin hi hlt.ne]
    exact addInternal_of_attach (s := readOn _ _ s) hi (attach_eq_next.mpr (.inl ⟨hdsp, rfl⟩)) (hlt.trans_eq hd.symm) hdsp
      ((Nat.zero_lt_of_lt hlt).trans_eq hds.symm)
  · rw [exec_leafRecord hop hin hi hlt.ne]
    exact addLeaf_of_attach (s := readOn _ _ s) hi (attach_eq_next.mpr (.inl ⟨hdsp, rfl⟩)) (hlt.trans_eq hd.symm) hdsp

/-- Settles O27: a record attached to the left. -/
theorem hdStepAttachesALeftChild : Obligations.HdStepAttachesALeftChild := by
  intro s i k p hi hlt hd hds hdsp hk htop hp
  refine ⟨fun op hop hin => ?_, fun op x hop hin => ?_⟩
  · rw [exec_internalRecord hop hin hi hlt.ne]
    exact addInternal_of_attach (s := readOn _ _ s) hi
      (attach_eq_next.mpr (.inr (.inr ⟨k, p, hdsp, htop, hp.trans_eq hd.symm, rfl⟩)))
      (hlt.trans_eq (List.length_modify ..|>.trans hd).symm) hdsp (hk.trans_eq (List.length_set ..|>.trans hds).symm)
  · rw [exec_leafRecord hop hin hi hlt.ne]
    exact addLeaf_of_attach (s := readOn _ _ s) hi
      (attach_eq_next.mpr (.inr (.inr ⟨k, p, hdsp, htop, hp.trans_eq hd.symm, rfl⟩)))
      (hlt.trans_eq (List.length_modify ..|>.trans hd).symm) hdsp

/-- Settles O28: a record attached to the right. -/
theorem hdStepAttachesARightChild : Obligations.HdStepAttachesARightChild := by
  intro s i k p hi hlt hd hds hdsp htop hp
  have hk : k < s.dstack.length := lt_of_getElem?_some htop
  refine ⟨fun op hop hin => ?_, fun op x hop hin => ?_⟩
  · rw [exec_internalRecord hop hin hi hlt.ne]
    exact addInternal_of_attach (s := readOn _ _ s) hi
      (attach_eq_next.mpr (.inr (.inl ⟨k, p, hdsp, htop, hp.trans_eq hd.symm, rfl⟩)))
      (hlt.trans_eq (List.length_modify ..|>.trans hd).symm) rfl hk
  · rw [exec_leafRecord hop hin hi hlt.ne]
    exact addLeaf_of_attach (s := readOn _ _ s) hi
      (attach_eq_next.mpr (.inr (.inl ⟨k, p, hdsp, htop, hp.trans_eq hd.symm, rfl⟩)))
      (hlt.trans_eq (List.length_modify ..|>.trans hd).symm) rfl

end Sys2Proof.Machine
end

section
/-! SUPPORT. Trees in DNODE and the bits of a header (R36, R154): `dtreeOf` reads the trees that DNODE holds, and `deser`
reads ser(T) only. -/

namespace Sys2Proof.Machine

/-- A stored tree is tree(DNODE, i), read with enough depth and without its weights. -/
theorem dtreeOf_of_dstored {d : List DNode} {T : Tree} {i k : Nat} (h : DStored d T i) (hk : T.depth < k) :
    dtreeOf d k i = some T.unweighted := by
  induction T generalizing i k with
  | leaf x w =>
    obtain ⟨hl, hs⟩ := h
    obtain ⟨n, hn, hl⟩ := Option.bind_eq_some_iff.mp hl
    rw [field, hn] at hs
    obtain ⟨k, rfl⟩ := Nat.exists_eq_add_one_of_ne_zero (Nat.ne_of_gt hk)
    obtain ⟨leaf, sym, left, right⟩ := n
    cases hl
    cases hs
    simp only [dtreeOf, hn, Tree.unweighted]
  | internal w a b iha ihb =>
    obtain ⟨hl, l, r, hleft, hright, ha, hb⟩ := h
    obtain ⟨n, hn, hl⟩ := Option.bind_eq_some_iff.mp hl
    rw [field, hn] at hleft hright
    rw [Tree.depth] at hk
    obtain ⟨k, rfl⟩ := Nat.exists_eq_add_one_of_ne_zero (Nat.ne_of_gt (Nat.zero_lt_of_lt hk))
    obtain ⟨leaf, sym, left, right⟩ := n
    cases hl
    cases hleft
    cases hright
    simp only [dtreeOf, hn, iha ha (by omega : a.depth < k), ihb hb (by omega : b.depth < k), Tree.unweighted]

theorem dstored_of_dtreeOf {d : List DNode} {k i : Nat} {T : Tree} (h : dtreeOf d k i = some T) : DStored d T i := by
  induction k generalizing i T with
  | zero => cases h
  | succ k ih =>
    rw [dtreeOf] at h
    split at h
    next hn =>
      cases h
      exact ⟨Option.bind_eq_some_iff.mpr ⟨_, hn, rfl⟩, Option.bind_eq_some_iff.mpr ⟨_, hn, rfl⟩⟩
    next l r hn =>
      split at h
      next a b ha hb =>
        cases h
        exact ⟨Option.bind_eq_some_iff.mpr ⟨_, hn, rfl⟩, l, r, Option.bind_eq_some_iff.mpr ⟨_, hn, rfl⟩,
          Option.bind_eq_some_iff.mpr ⟨_, hn, rfl⟩, ih ha, ih hb⟩
      next => cases h
    next => cases h

/-- What deser reads is the header of the tree it gives, which has no weights (R154, R161). -/
theorem eq_ser_of_deserFuel {k : Nat} {u rest : Bits} {T : Tree} (h : deserFuel k u = some (T, rest)) :
    u = ser T ++ rest ∧ T.unweighted = T := by
  induction k generalizing u rest T with
  | zero => cases h
  | succ k ih =>
    cases u with
    | nil => cases h
    | cons b u =>
      cases b with
      | true =>
        rw [deserFuel] at h
        split at h
        next => cases h
        next hlen =>
          cases h
          obtain ⟨x, hx⟩ := exists_word (Nat.le_of_not_lt hlen)
          refine ⟨?_, rfl⟩
          rw [hx, val_bin_symbol, BitVec.ofNat_toNat, BitVec.setWidth_eq, ser, ← hx, List.cons_append,
            List.take_append_drop]
      | false =>
        rw [deserFuel] at h
        split at h
        next => cases h
        next l v hl =>
          split at h
          next => cases h
          next r w hr =>
            cases h
            obtain ⟨rfl, hlw⟩ := ih hl
            obtain ⟨rfl, hrw⟩ := ih hr
            exact ⟨by rw [ser, List.cons_append, List.append_assoc], by rw [Tree.unweighted, hlw, hrw]⟩

end Sys2Proof.Machine
end

section
/-! SUPPORT. The header reader reads one tree in one step per node (R154, R156, R159). -/

namespace Sys2Proof.Machine

/-- t is s after header records of the bits w: before them n records were stored and the holes hs open, now m and hs'. -/
structure State.readRecords (t s : State) (n : Nat) (hs : List Hole) (m : Nat) (hs' : List Hole) (w : Bits) : Prop where
  lacks : t.lacks m hs'
  cur : hs' = [] → t.cur = some 0
  outside : ∃ l, t.sameOutside { s with phase := headerPhase hs', rp := s.rp + w.length, trace := l }
  rebuilds : ∀ d v, Rebuilds t.dnode d m hs' v → Rebuilds s.dnode d n hs (w ++ v)

theorem State.readRecords.trans {s t u : State} {n m k : Nat} {hs hs' hs'' : List Hole} {w w' : Bits}
    (hu : u.readRecords t m hs' k hs'' w') (ht : t.readRecords s n hs m hs' w) :
    u.readRecords s n hs k hs'' (w ++ w') where
  lacks := hu.lacks
  cur := hu.cur
  outside := by
    obtain ⟨l, hout⟩ := ht.outside
    obtain ⟨l', hout'⟩ := hu.outside
    have hrp : t.rp = s.rp + w.length := hout.rp_eq
    refine ⟨l', hout'.trans ?_⟩
    rw [List.length_append, ← Nat.add_assoc, ← hrp]
    have hfields := congrArg (fun v : State => { v with phase := headerPhase hs'', rp := t.rp + w'.length, trace := l' })
      (show dropTables t = _ from hout)
    exact hfields
  rebuilds d v h := by
    rw [List.append_assoc]
    exact ht.rebuilds d _ (hu.rebuilds d v h)

section
variable {s : State} {n : Nat} {h : Hole} {hs : List Hole} {u : Bits}

/-- One record, in one step, goes into the first hole. -/
theorem State.recordsAt.readRecords {t : State} {r : DNode → DNode} {hs' : List Hole} {w : Bits} {l : List Transaction}
    (hph : s.phase = .dHdr) (ht : t.recordsAt (readOn w.length l (expire s)) n r h hs')
    (hr : ∀ d v, Rebuilds ((h.fill n s.dnode).modify n r) d (n + 1) hs' v → Rebuilds s.dnode d n (h :: hs) (w ++ v)) :
    t.readRecords s n (h :: hs) (n + 1) hs' w := by
  have hdnode : t.dnode = (h.fill n s.dnode).modify n r :=
    ht.dnode.trans (congrArg (fun d => (h.fill n d).modify n r) (expire_dnode_of_dHdr hph))
  exact ⟨ht.lacks, ht.cur, ⟨_, ht.outside⟩, hdnode ▸ hr⟩

variable (hcmd : s.inCommand .dHdr) (hl : s.lacks n (h :: hs)) (hn : n < s.par.decNodeCap)
include hcmd hl hn

/-- A leaf's record (R156, R158). -/
theorem step_readRecords_leaf {x : Symbol} (hin : Unread s.inBits s.rp ((true :: bin 9 x.toNat) ++ u)) :
    ∃ t, step s = .next t ∧ t.readRecords s n (h :: hs) (n + 1) hs (true :: bin 9 x.toNat) := by
  have hl' := hl.expire hcmd.inPhase
  have htake : (s.inBits.drop s.rp).take 10 = true :: bin 9 x.toNat := by
    rw [hin.drop_eq]
    exact List.take_left' (by rw [List.length_cons, length_bin])
  obtain ⟨t, hadd, ht⟩ := addLeaf_records (x := x) (hl'.afterRead (s.rp + 10)
    (s.trace ++ [.read 1 (some 1), .read 9 (some x.toNat)])) hn
  have hstep : step s = .next t := (step_of_always hcmd (by decide) rfl).trans
    ((exec_leafRecord (s := expire s) (.inl rfl) htake hl'.dnext hn.ne).trans hadd)
  have hw : (true :: bin 9 x.toNat).length = 10 := by rw [List.length_cons, length_bin]
  refine ⟨t, hstep, State.recordsAt.readRecords (l := [.read 1 (some 1), .read 9 (some x.toNat)]) hcmd.inPhase ?_
    fun d v hr => hr.leaf (hl.fits h List.mem_cons_self) (hl.dnode ▸ hn) (List.nodup_cons.mp hl.nodup).1⟩
  rw [hw]
  exact ht

/-- An internal node's record (R156, R157). -/
theorem step_readRecords_internal (hin : Unread s.inBits s.rp ([false] ++ u)) :
    ∃ t, step s = .next t ∧ t.readRecords s n (h :: hs) (n + 1) (.child n false :: .child n true :: hs) [false] := by
  have hl' := hl.expire hcmd.inPhase
  obtain ⟨t, hadd, ht⟩ := addInternal_records (hl'.afterRead (s.rp + 1) (s.trace ++ [.read 1 (some 0)])) hn
  have hstep : step s = .next t := (step_of_always hcmd (by decide) rfl).trans
    ((exec_internalRecord (s := expire s) (.inl rfl) hin.head hl'.dnext hn.ne).trans hadd)
  exact ⟨t, hstep, State.recordsAt.readRecords (l := [.read 1 (some 0)]) hcmd.inPhase ht
    fun d v hr => hr.internal (hl.fits h List.mem_cons_self) (hl.dnode ▸ hn) (List.nodup_cons.mp hl.nodup).1⟩

end

/-- After records that leave a hole the bits after them are read on in D_HDR. -/
theorem State.readRecords.goesOn {s t : State} {n m : Nat} {h : Hole} {hs hs' : List Hole} {w u : Bits}
    (ht : t.readRecords s n hs m (h :: hs') w) (hs : s.inCommand .dHdr) (hin : Unread s.inBits s.rp (w ++ u)) :
    t.inCommand .dHdr ∧ t.par = s.par ∧ Unread t.inBits t.rp u := by
  obtain ⟨l, hout⟩ := ht.outside
  refine ⟨hout.inCommand ⟨hs.noReset, hs.ready, hs.busy, rfl⟩, hout.par_eq, ?_⟩
  rw [hout.inBits_eq, hout.rp_eq]
  exact hin.advance

/-- The records of a tree go into the first hole and those they open (R154, R159). -/
theorem run_readRecords {T : Tree} {s : State} {n : Nat} {h : Hole} {hs : List Hole} {u : Bits} (hcmd : s.inCommand .dHdr)
    (hl : s.lacks n (h :: hs)) (hcap : n + T.nodes ≤ s.par.decNodeCap) (hin : Unread s.inBits s.rp (ser T ++ u)) :
    ∃ t, run T.nodes s = .next t ∧ t.readRecords s n (h :: hs) (n + T.nodes) hs (ser T) := by
  induction T generalizing s n h hs u with
  | leaf x w =>
    obtain ⟨t, hstep, ht⟩ := step_readRecords_leaf hcmd hl hcap hin
    exact ⟨t, (run_one s).trans hstep, ht⟩
  | internal w a b iha ihb =>
    rw [Tree.nodes] at hcap
    have hser : ser (.internal w a b) ++ u = [false] ++ (ser a ++ (ser b ++ u)) := by
      rw [ser, List.cons_append, List.append_assoc]
      rfl
    rw [hser] at hin
    obtain ⟨t, hstep, ht⟩ := step_readRecords_internal hcmd hl (by omega) hin
    obtain ⟨hcmd', hpar, hin'⟩ := ht.goesOn hcmd hin
    obtain ⟨v, hrun, hv⟩ := iha hcmd' ht.lacks (by rw [hpar]; omega) hin'
    obtain ⟨hcmd'', hpar', hin''⟩ := hv.goesOn hcmd' hin'
    obtain ⟨z, hrun', hz⟩ := ihb hcmd'' hv.lacks (by rw [hpar', hpar]; omega) hin''
    have hcount : n + 1 + a.nodes + b.nodes = n + (a.nodes + b.nodes + 1) := by omega
    rw [hcount] at hz
    exact ⟨z, (run_succ_of_step hstep).trans ((run_add hrun).trans hrun'), (hz.trans hv).trans ht⟩

/-- Before the first record the root's hole is open. -/
theorem lacks_root {s : State} (hdnext : s.dnext = some 0) (hdsp : s.dsp = some 0)
    (hdnode : s.dnode.length = s.par.decNodeCap) (hdstack : s.dstack.length = s.par.decNodeCap) :
    s.lacks 0 [.root] :=
  ⟨hdnext, Nat.zero_le _, hdnode, hdstack,
    ⟨[], hdsp, ⟨trivial, le_rfl, fun _ he => absurd he List.not_mem_nil⟩, .inr ⟨rfl, rfl, rfl⟩⟩, List.nodup_singleton _⟩

/-- Where no hole is left DSTACK is empty. -/
theorem State.lacks.dsp_of_nil {s : State} {n : Nat} (h : s.lacks n []) : s.dsp = some 0 := by
  obtain ⟨es, hdsp, -, hnil | ⟨-, -, hroot⟩⟩ := h.frames
  · cases es with
    | nil => exact hdsp
    | cons e es =>
      rw [holesOf] at hnil
      split at hnil <;> cases hnil
  · cases hroot

/-- The trees rebuilt from the header of one tree without weights are that tree. -/
theorem dstored_of_rebuilds {d d' : List DNode} {T : Tree} (hT : T.unweighted = T)
    (h : Rebuilds d d' 0 [.root] (ser T ++ [])) : DStored d' T 0 := by
  obtain ⟨-, Ts, hfilled, hser, hTs⟩ := h
  cases hfilled with
  | cons hfirst hnil =>
    cases hnil
    rename_i T'
    have hT' : T'.unweighted = T' := hTs T' (List.mem_singleton_self _)
    have hread := deser_ser T []
    rw [hser, List.flatMap_singleton, ← List.append_nil (ser T'), deser_ser, hT, hT'] at hread
    cases hread
    exact hfirst

/-- Settles O31: HD_START opens the root's hole, and the records of the tree read fill it. -/
theorem deserializerRebuildsTheTree : Obligations.DeserializerRebuildsTheTree := by
  intro s T rest hcmd hsized _ hdeser hcap
  obtain ⟨hdnode, hdstack, hrp⟩ := hsized
  obtain ⟨hbits, hT⟩ := eq_ser_of_deserFuel hdeser
  have hunread : Unread s.inBits s.rp (ser T ++ rest) :=
    ⟨s.inBits.take s.rp, by rw [← hbits, List.take_append_drop], (List.length_take_of_le hrp).symm⟩
  have hdnode' : (expire s).dnode = s.dnode := keep_of_mem (by rw [hcmd.inPhase]; decide)
  have hdstack' : (expire s).dstack = s.dstack := keep_of_mem (by rw [hcmd.inPhase]; decide)
  have hstep : step s = .next { expire s with dnext := some 0, dsp := some 0, phase := .dHdr } :=
    step_of_always hcmd (by decide) rfl
  obtain ⟨t, hrun, ht⟩ := run_readRecords (T := T) (u := rest)
    (s := { expire s with dnext := some 0, dsp := some 0, phase := .dHdr }) ⟨hcmd.noReset, hcmd.ready, hcmd.busy, rfl⟩
    (lacks_root rfl rfl (hdnode'.symm ▸ hdnode) (hdstack'.symm ▸ hdstack)) ((Nat.zero_add _).trans_le hcap) hunread
  obtain ⟨l, hout⟩ := ht.outside
  have hcount : 0 + T.nodes = T.nodes := Nat.zero_add _
  have hstored := dstored_of_rebuilds hT (ht.rebuilds _ [] (rebuilds_nil _ _))
  have hsize : t.dnode.length = s.par.decNodeCap := ht.lacks.dnode.trans (congrArg Params.decNodeCap hout.par_eq)
  have htree : t.dtree 0 = some T := by
    have hdepth := depth_lt_nodes T
    rw [State.dtree, dtreeOf_of_dstored hstored (by omega), hT]
  have hdrop : t.inBits.drop t.rp = rest := by
    rw [hout.inBits_eq, hout.rp_eq]
    exact hunread.advance.drop_eq
  exact ⟨t, (run_succ_of_step hstep).trans hrun, hout.inCommand ⟨hcmd.noReset, hcmd.ready, hcmd.busy, rfl⟩, htree,
    ht.cur rfl, ht.lacks.dnext.trans (congrArg some hcount), ht.lacks.dsp_of_nil, hout.inBits_eq, hdrop, hout.outBits_eq,
    hout.closed_eq⟩

end Sys2Proof.Machine
end

section
/-! SUPPORT. What each unit operation can do: where it answers a next state, that state written out (files 40 to 45). Every
rule about all steps is derived from these lemmas. -/

namespace Sys2Proof.Machine

section
variable {s t : State}

/-! ## FrequencyCounter and TreeBuilder -/

theorem exec_fcAcc_cases {r : Byte} (h : exec (.fcAcc r) s = .next t) :
    ∃ f, s.freq = some f ∧ freqTotal f + 1 < 2 ^ s.par.weightW ∧
      t = { s with freq := some (f.set (symIndex r) (f[symIndex r] + 1)), phase := .cCount } := by
  obtain ⟨f, hf, h⟩ := chain_eq_next.mp h
  split at h
  next hlt =>
    cases h
    exact ⟨f, need_eq_next.mp hf, hlt, rfl⟩
  next => cases h

theorem exec_tbInit_cases (h : exec .tbInit s = .next t) : ∃ f, s.freq = some f ∧ t = afterTbInit f s := by
  obtain ⟨f, hf, h⟩ := chain_eq_next.mp h
  cases h
  exact ⟨f, need_eq_next.mp hf, rfl⟩

theorem exec_tbMerge_cases (h : exec .tbMerge s = .next t) :
    ∃ act a b n, a < 513 ∧ b < 513 ∧ s.nextIdx = some n ∧ n < 513 ∧
      weightAt s a + weightAt s b < 2 ^ s.par.weightW ∧
      t = { s with node := mergedNode s a b n, active := some act, nextIdx := some (n + 1), phase := .cMerge } := by
  obtain ⟨act, -, h⟩ := chain_eq_next.mp h
  obtain ⟨a, -, h⟩ := chain_eq_next.mp h
  obtain ⟨act₁, hact₁, h⟩ := chain_eq_next.mp h
  obtain ⟨b, -, h⟩ := chain_eq_next.mp h
  obtain ⟨act₂, hact₂, h⟩ := chain_eq_next.mp h
  obtain ⟨na, hna, h⟩ := chain_eq_next.mp h
  obtain ⟨nb, hnb, h⟩ := chain_eq_next.mp h
  obtain ⟨n, hn, h⟩ := chain_eq_next.mp h
  have hwa := weightAt_of_node (nodeAt_eq_next.mp hna)
  have hwb := weightAt_of_node (nodeAt_eq_next.mp hnb)
  split at h
  next hlt =>
    obtain ⟨node, hnode, h⟩ := chain_eq_next.mp h
    obtain ⟨act₃, -, h⟩ := chain_eq_next.mp h
    obtain ⟨hlt₁, -⟩ := putVec_eq_next.mp hact₁
    obtain ⟨hlt₂, -⟩ := putVec_eq_next.mp hact₂
    obtain ⟨hltn, rfl⟩ := putVec_eq_next.mp hnode
    cases h
    rw [← hwa, ← hwb] at hlt ⊢
    exact ⟨act₃, a, b, n, hlt₁, hlt₂, need_eq_next.mp hn, hltn, hlt, rfl⟩
  next => cases h

theorem exec_tbRoot_cases (h : exec .tbRoot s = .next t) :
    ∃ i, i < 513 ∧ t = { s with root := some i, phase := .cCginit } := by
  obtain ⟨act, -, h⟩ := chain_eq_next.mp h
  split at h
  next i hi =>
    cases h
    have hmem : i ∈ activeIndices act := by rw [hi]; exact List.mem_singleton_self i
    exact ⟨i, lt_of_vector_getElem?_some (mem_activeIndices.mp hmem), rfl⟩
  next => cases h

/-! ## CodeTableGenerator -/

theorem pushEdges_cases {l r d : Nat} (h : pushEdges l r d s = .next t) :
    ∃ n, s.sp = some n ∧ n + 1 < 257 ∧ t = { s with stack := withEdges s.stack n l r d, sp := some (n + 2) } := by
  obtain ⟨u, hu, h⟩ := chain_eq_next.mp h
  obtain ⟨n, hn, -, rfl⟩ := push_eq_next.mp hu
  obtain ⟨m, hm, hlt, rfl⟩ := push_eq_next.mp h
  cases hm
  exact ⟨n, hn, hlt, rfl⟩

theorem exec_cgInit_cases (h : exec .cgInit s = .next t) :
    ∃ i n, s.root = some i ∧ s.node[i]? = some (some n) ∧
      ((∃ x w, n = .leaf x w ∧ t = { s with
          codeLen := (Vector.replicate 257 (some 0)).setIfInBounds x.toNat (some 1)
          codeBits := s.codeBits.setIfInBounds x.toNat (some [false])
          sp := some 0
          phase := .cMagic }) ∨
        ∃ w l r, n = .internal w l r ∧ t = { s with
          codeLen := Vector.replicate 257 (some 0)
          stack := withEdges s.stack 0 l r 1
          sp := some 2
          phase := .cCgen }) := by
  obtain ⟨i, hi, h⟩ := chain_eq_next.mp h
  obtain ⟨n, hn, h⟩ := chain_eq_next.mp h
  refine ⟨i, n, need_eq_next.mp hi, nodeAt_eq_next.mp hn, ?_⟩
  cases n with
  | leaf x w =>
    obtain ⟨u, hu, h⟩ := chain_eq_next.mp h
    obtain ⟨-, rfl⟩ := setCode_eq_next.mp hu
    cases h
    exact .inl ⟨x, w, rfl, rfl⟩
  | internal w l r =>
    obtain ⟨u, hu, h⟩ := chain_eq_next.mp h
    obtain ⟨m, hm, -, rfl⟩ := pushEdges_cases hu
    cases hm
    cases h
    exact .inr ⟨w, l, r, rfl, rfl⟩

theorem exec_cgStep_cases (h : exec .cgStep s = .next t) :
    ∃ k d n b e, s.sp = some (k + 1) ∧ d < 256 ∧ s.stack[k]? = some (some e) ∧ s.node[e.node]? = some (some n) ∧
      ((∃ x w c, n = .leaf x w ∧ t = { s with
          sp := some k
          path := s.path.setIfInBounds d (some b)
          codeLen := s.codeLen.setIfInBounds x.toNat (some (d + 1))
          codeBits := s.codeBits.setIfInBounds x.toNat (some c)
          phase := if k = 0 then .cMagic else .cCgen }) ∨
        ∃ w l r, n = .internal w l r ∧ k + 1 < 257 ∧ t = { s with
          sp := some (k + 2)
          path := s.path.setIfInBounds d (some b)
          stack := withEdges s.stack k l r (d + 2)
          phase := .cCgen }) := by
  obtain ⟨⟨e, u⟩, hpop, h⟩ := chain_eq_next.mp h
  obtain ⟨k, hk, he, rfl⟩ := pop_eq_next.mp hpop
  obtain ⟨d, -, h⟩ := chain_eq_next.mp h
  obtain ⟨b, -, h⟩ := chain_eq_next.mp h
  cases d with
  | zero => cases h
  | succ d =>
    obtain ⟨u, hu, h⟩ := chain_eq_next.mp h
    obtain ⟨hd, rfl⟩ := setPath_eq_next.mp hu
    obtain ⟨n, hn, h⟩ := chain_eq_next.mp h
    refine ⟨k, d, n, b, e, hk, hd, he, nodeAt_eq_next.mp hn, ?_⟩
    cases n with
    | leaf x w =>
      obtain ⟨c, -, h⟩ := chain_eq_next.mp h
      obtain ⟨u, hu, h⟩ := chain_eq_next.mp h
      obtain ⟨-, rfl⟩ := setCode_eq_next.mp hu
      obtain ⟨m, hm, rfl⟩ := walkPhase_eq_next.mp h
      cases hm
      exact .inl ⟨x, w, c, rfl, rfl⟩
    | internal w l r =>
      obtain ⟨u, hu, h⟩ := chain_eq_next.mp h
      obtain ⟨m, hm, hlt, rfl⟩ := pushEdges_cases hu
      cases hm
      obtain ⟨m, hm, rfl⟩ := walkPhase_eq_next.mp h
      cases hm
      exact .inr ⟨w, l, r, rfl, hlt, rfl⟩

/-! ## StreamEncoder and HeaderCodec, serialize half -/

theorem exec_enMagic_cases (h : exec .enMagic s = .next t) :
    t = { s with
      outBits := s.outBits ++ bin 32 s.par.magic.toNat
      trace := s.trace ++ [.write 32 s.par.magic.toNat]
      phase := .cHsinit } := by
  obtain ⟨u, hu, h⟩ := chain_eq_next.mp h
  obtain ⟨-, -, -, rfl⟩ := memWrite_eq_next.mp hu
  cases h
  rfl

theorem exec_hsStart_cases (h : exec .hsStart s = .next t) :
    ∃ i, s.root = some i ∧ t = { s with
      stack := s.stack.setIfInBounds 0 (some (nodeEntry i))
      sp := some 1
      phase := .cHdr } := by
  obtain ⟨i, hi, -⟩ := chain_eq_next.mp h
  have hi := need_eq_next.mp hi
  exact ⟨i, hi, Host.Outcome.next.inj (h.symm.trans (exec_hsStart hi))⟩

theorem exec_hsStep_cases (h : exec .hsStep s = .next t) :
    ∃ k e n, s.sp = some (k + 1) ∧ s.stack[k]? = some (some e) ∧ s.node[e.node]? = some (some n) ∧
      ((∃ x w, n = .leaf x w ∧ t = { s with
          sp := some k
          outBits := s.outBits ++ true :: bin 9 x.toNat
          trace := s.trace ++ [.write 1 1, .write 9 x.toNat]
          phase := if k = 0 then .cRewind else .cHdr }) ∨
        ∃ w l r, n = .internal w l r ∧ k + 1 < 257 ∧ t = { s with
          sp := some (k + 2)
          stack := withChildren s.stack k l r
          outBits := s.outBits ++ [false]
          trace := s.trace ++ [.write 1 0]
          phase := .cHdr }) := by
  obtain ⟨⟨e, u⟩, hpop, h'⟩ := chain_eq_next.mp h
  obtain ⟨k, hk, he, rfl⟩ := pop_eq_next.mp hpop
  obtain ⟨n, hn, h'⟩ := chain_eq_next.mp h'
  have hn := nodeAt_eq_next.mp hn
  refine ⟨k, e, n, hk, he, hn, ?_⟩
  cases n with
  | leaf x w =>
    obtain ⟨u, hu, -⟩ := chain_eq_next.mp h'
    obtain ⟨hopen, -⟩ := memWrite_eq_next.mp hu
    exact .inl ⟨x, w, rfl, Host.Outcome.next.inj (h.symm.trans (exec_hsStep_of_leaf hk he hopen hn))⟩
  | internal w l r =>
    obtain ⟨u, hu, h'⟩ := chain_eq_next.mp h'
    obtain ⟨hopen, -, -, rfl⟩ := memWrite_eq_next.mp hu
    obtain ⟨u, hu, h'⟩ := chain_eq_next.mp h'
    obtain ⟨m, hm, -, rfl⟩ := push_eq_next.mp hu
    cases hm
    obtain ⟨u, hu, -⟩ := chain_eq_next.mp h'
    obtain ⟨m, hm, hlt, -⟩ := push_eq_next.mp hu
    cases hm
    exact .inr ⟨w, l, r, rfl, hlt, Host.Outcome.next.inj (h.symm.trans (exec_hsStep_of_internal hk he hopen hn hlt))⟩

theorem exec_enSym_cases {r : Byte} (h : exec (.enSym r) s = .next t) :
    t = abort .noCode s ∨
      ∃ c, t = { s with outBits := s.outBits ++ c, trace := s.trace ++ [codeWrite c], phase := .cEnc } := by
  obtain ⟨len, -, h⟩ := chain_eq_next.mp h
  split at h
  next => exact .inl (raise_eq_next.mp h)
  next =>
    obtain ⟨c, -, h⟩ := chain_eq_next.mp h
    obtain ⟨u, hu, h⟩ := chain_eq_next.mp h
    obtain ⟨-, -, -, rfl⟩ := writeCode_eq_next.mp hu
    cases h
    exact .inr ⟨c, rfl⟩

theorem exec_enTerm_cases (h : exec .enTerm s = .next t) :
    ∃ c, t = { s with outBits := s.outBits ++ c, trace := s.trace ++ [codeWrite c], phase := .cClose } := by
  obtain ⟨len, -, h⟩ := chain_eq_next.mp h
  obtain ⟨c, -, h⟩ := chain_eq_next.mp h
  obtain ⟨u, hu, h⟩ := chain_eq_next.mp h
  obtain ⟨-, -, -, rfl⟩ := writeCode_eq_next.mp hu
  cases h
  exact ⟨c, rfl⟩

/-! ## HeaderCodec, deserialize half -/

/-- The ways of the header reader (R156, R218): the end of the stream, a full store, the end within a symbol, a record. -/
theorem exec_hdStep_cases (h : exec .hdStep s = .next t) :
    (s.inBits.length < s.rp + 1 ∧ t = abort .malformed { s with trace := s.trace ++ [.read 1 none] }) ∨
    ∃ b i, s.inBits[s.rp]? = some b ∧ s.dnext = some i ∧
      ((i = s.par.decNodeCap ∧ t = abort .capacity (readOn 1 [.read 1 (some b.toNat)] s)) ∨
        i ≠ s.par.decNodeCap ∧
          ((b = true ∧ s.inBits.length < s.rp + 10 ∧
              t = abort .malformed (readOn 1 [.read 1 (some 1), .read 9 none] s)) ∨
            (b = true ∧ s.rp + 10 ≤ s.inBits.length ∧
              ∃ x : Symbol, addLeaf x (readOn 10 [.read 1 (some 1), .read 9 (some x.toNat)] s) = .next t) ∨
            (b = false ∧ addInternal (readOn 1 [.read 1 (some 0)] s) = .next t))) := by
  rcases Nat.lt_or_ge s.inBits.length (s.rp + 1) with hend | hlt
  · exact .inl ⟨hend, Host.Outcome.next.inj (h.symm.trans (headerTag_of_end hend))⟩
  obtain ⟨b, hb⟩ : ∃ b, s.inBits[s.rp]? = some b := ⟨_, List.getElem?_eq_getElem hlt⟩
  have h' : headerTag s _ = .next t := h
  rw [headerTag, bitRead_one hb] at h'
  obtain ⟨i, hneed, h'⟩ := chain_eq_next.mp h'
  have hi : s.dnext = some i := need_eq_next.mp hneed
  refine .inr ⟨b, i, hb, hi, ?_⟩
  by_cases hcap : i = s.par.decNodeCap
  · subst hcap
    exact .inl ⟨rfl, Host.Outcome.next.inj (h.symm.trans (headerTag_of_full hb hi))⟩
  refine .inr ⟨hcap, ?_⟩
  cases b with
  | false => exact .inr (.inr ⟨rfl, (exec_internalRecord (.inl rfl) hb hi hcap).symm.trans h⟩)
  | true =>
    replace h' := (if_neg hcap).symm.trans h'
    rcases Nat.lt_or_ge s.inBits.length (s.rp + 10) with hend | hle
    · refine .inl ⟨rfl, hend, ?_⟩
      have hab := Host.Outcome.next.inj (h'.symm.trans (headerSymbol_of_end
        (s := { s with rp := s.rp + 1, trace := s.trace ++ [.read 1 (some 1)] }) hend))
      rw [readOn, List.append_cons]
      exact hab
    · obtain ⟨x, hx⟩ := exists_word (n := 9) (u := s.inBits.drop (s.rp + 1)) (by rw [List.length_drop]; omega)
      have hrec : (s.inBits.drop s.rp).take 10 = true :: bin 9 x.toNat := by
        rw [List.drop_eq_getElem_cons hlt, List.take_succ_cons, hx, (List.getElem?_eq_some_iff.mp hb).2]
      exact .inr (.inl ⟨rfl, hle, x, (exec_leafRecord (.inl rfl) hrec hi hcap).symm.trans h⟩)

/-! ## StreamDecoder -/

theorem exec_deMagic_cases (h : exec .deMagic s = .next t) :
    (t = abort .format { s with trace := s.trace ++ [.read 32 none] }) ∨
    s.rp + 32 ≤ s.inBits.length ∧ ∃ m : BitVec 32,
      (t = abort .format (readOn 32 [.read 32 (some m.toNat)] s) ∨
        t = { readOn 32 [.read 32 (some m.toNat)] s with phase := .dHdinit }) := by
  rcases Nat.lt_or_ge s.inBits.length (s.rp + 32) with hend | hle
  · exact .inl (Host.Outcome.next.inj (h.symm.trans (exec_deMagic_of_end hend)))
  obtain ⟨m, hm⟩ := exists_word (n := 32) (u := s.inBits.drop s.rp) (by rw [List.length_drop]; omega)
  refine .inr ⟨hle, m, ?_⟩
  have hexec := h.symm.trans (exec_deMagic_of_take hm)
  split at hexec
  next => exact .inr (Host.Outcome.next.inj hexec)
  next => exact .inl (Host.Outcome.next.inj hexec)

/-- The move of DE_STEP leaves CUR where it is or takes it to a child. -/
theorem walkDown_cases {b : BitVec 1} (h : walkDown b s = .next t) :
    t = s ∨ ∃ (i : Nat) (n : DNode) (c : Nat), s.dnode[i]? = some n ∧ (n.left = some c ∨ n.right = some c) ∧
      t = { s with cur := some c } := by
  obtain ⟨deg, -, h⟩ := chain_eq_next.mp h
  cases deg with
  | true =>
    cases h
    exact .inl rfl
  | false =>
    obtain ⟨i, -, h⟩ := chain_eq_next.mp h
    obtain ⟨c, hc, h⟩ := chain_eq_next.mp h
    obtain ⟨n, hn, hc⟩ := childOf_eq_next.mp hc
    cases h
    refine .inr ⟨i, n, c, hn, ?_, rfl⟩
    split at hc
    · exact .inl hc
    · exact .inr hc

theorem leafTest_cases (h : leafTest s = .next t) :
    t = { s with phase := .dClose } ∨ t = abort .symRange s ∨ t = { s with phase := .dDec } ∨
      ∃ v, t = { s with
        outBits := s.outBits ++ bin 8 v
        trace := s.trace ++ [.write 8 v]
        cur := some 0
        phase := .dDec } := by
  obtain ⟨c, -, h⟩ := chain_eq_next.mp h
  obtain ⟨leaf, -, h⟩ := chain_eq_next.mp h
  split at h
  next =>
    obtain ⟨x, -, h⟩ := chain_eq_next.mp h
    split at h
    next =>
      cases h
      exact .inl rfl
    next =>
      split at h
      next => exact .inr (.inl (raise_eq_next.mp h))
      next =>
        obtain ⟨u, hu, h⟩ := chain_eq_next.mp h
        obtain ⟨-, -, -, rfl⟩ := memWrite_eq_next.mp hu
        cases h
        exact .inr (.inr (.inr ⟨_, rfl⟩))
  next =>
    cases h
    exact .inr (.inr (.inl rfl))

theorem exec_deStep_cases (h : exec .deStep s = .next t) :
    (t = abort .malformed { s with trace := s.trace ++ [.read 1 none] }) ∨
    s.rp + 1 ≤ s.inBits.length ∧
      ∃ (b : Bit) (u : State), walkDown (BitVec.ofBool b) (readOn 1 [.read 1 (some b.toNat)] s) = .next u ∧
        leafTest u = .next t := by
  have h : payloadBit s _ = .next t := h
  rcases Nat.lt_or_ge s.inBits.length (s.rp + 1) with hend | hlt
  · rw [payloadBit, bitRead_of_gt 1 s hend] at h
    exact .inl (raise_eq_next.mp h)
  · rw [payloadBit, bitRead_one (List.getElem?_eq_getElem hlt)] at h
    obtain ⟨u, hu, h⟩ := chain_eq_next.mp h
    exact .inr ⟨hlt, _, u, hu, h⟩

end

end Sys2Proof.Machine
end

section
/-! SUPPORT. What a step of a command does outside the tables, and which tables it writes (R46, R76, R78, R104, R216): one
classification of all unit operations, from which the rules about every step follow. -/

namespace Sys2Proof.Machine

/-! ## Transactions and the streams (R62, R64, R66) -/

theorem writtenBits_append (l l' : List Transaction) : writtenBits (l ++ l') = writtenBits l ++ writtenBits l' := by
  induction l with
  | nil => rfl
  | cons x l ih => cases x <;> simp [writtenBits, ih]

theorem movedTo_append (n : Nat) (l l' : List Transaction) : movedTo n (l ++ l') = movedTo (movedTo n l) l' := by
  induction l generalizing n with
  | nil => rfl
  | cons x l ih =>
    cases x with
    | read m r => cases r <;> exact ih _
    | rewind => exact ih _
    | write m v => exact ih _
    | close => exact ih _

/-- A Close moves neither OUT nor rp. -/
theorem writtenBits_concat_close (l : List Transaction) : writtenBits (l ++ [.close]) = writtenBits l := by
  rw [writtenBits_append, writtenBits, writtenBits, List.append_nil]

theorem movedTo_concat_close (n : Nat) (l : List Transaction) : movedTo n (l ++ [.close]) = movedTo n l := by
  rw [movedTo_append, movedTo, movedTo]

/-- The state s after the transactions l, in the streams alone. -/
def moved (l : List Transaction) (s : State) : State :=
  { s with rp := movedTo s.rp l, outBits := s.outBits ++ writtenBits l, trace := s.trace ++ l }

section
variable (l : List Transaction) (s : State)

@[simp] theorem moved_par : (moved l s).par = s.par := rfl
@[simp] theorem moved_rst : (moved l s).rst = s.rst := rfl
@[simp] theorem moved_cmdValid : (moved l s).cmdValid = s.cmdValid := rfl
@[simp] theorem moved_cmdOp : (moved l s).cmdOp = s.cmdOp := rfl
@[simp] theorem moved_ioReady : (moved l s).ioReady = s.ioReady := rfl
@[simp] theorem moved_st : (moved l s).st = s.st := rfl
@[simp] theorem moved_err : (moved l s).err = s.err := rfl
@[simp] theorem moved_inBits : (moved l s).inBits = s.inBits := rfl
@[simp] theorem moved_rp : (moved l s).rp = movedTo s.rp l := rfl
@[simp] theorem moved_outBits : (moved l s).outBits = s.outBits ++ writtenBits l := rfl
@[simp] theorem moved_trace : (moved l s).trace = s.trace ++ l := rfl

end

theorem moved_nil (s : State) : moved [] s = s := by
  simp only [moved, movedTo, writtenBits, List.append_nil]

theorem moved_moved (l l' : List Transaction) (s : State) : moved l' (moved l s) = moved (l ++ l') s := by
  simp only [moved, movedTo_append, writtenBits_append, List.append_assoc]

theorem moved_read_some (n v : Nat) (s : State) : moved [.read n (some v)] s = readOn n [.read n (some v)] s := by
  simp only [moved, movedTo, writtenBits, List.append_nil, readOn]

theorem moved_read_none (n : Nat) (s : State) :
    moved [.read n none] s = { s with trace := s.trace ++ [.read n none] } := by
  simp only [moved, movedTo, writtenBits, List.append_nil]

theorem moved_write (n v : Nat) (s : State) :
    moved [.write n v] s = { s with outBits := s.outBits ++ bin n v, trace := s.trace ++ [.write n v] } := by
  simp only [moved, movedTo, writtenBits, List.append_nil]

theorem moved_codeWrite (c : Bits) (s : State) :
    moved [codeWrite c] s = { s with outBits := s.outBits ++ c, trace := s.trace ++ [codeWrite c] } := by
  simp only [codeWrite, moved_write, bin_val]

/-- The transactions l are those of an operation that goes on: no Close is among them, and its reads stay within IN. -/
structure Issues (s : State) (l : List Transaction) : Prop where
  noClose : .close ∉ l
  inside : s.rp ≤ s.inBits.length → movedTo s.rp l ≤ s.inBits.length

theorem issues_nil (s : State) : Issues s [] := ⟨List.not_mem_nil, id⟩

theorem issues_read_none (s : State) (n : Nat) : Issues s [.read n none] := ⟨by simp, id⟩

theorem issues_read_some {s : State} {n : Nat} (v : Nat) (h : s.rp + n ≤ s.inBits.length) :
    Issues s [.read n (some v)] := ⟨by simp, fun _ => h⟩

theorem issues_write (s : State) (n v : Nat) : Issues s [.write n v] := ⟨by simp, id⟩

theorem issues_rewind (s : State) : Issues s [.rewind] := ⟨by simp, fun _ => Nat.zero_le _⟩

theorem Issues.append {s : State} {l l' : List Transaction} (h : Issues s l) (h' : Issues (moved l s) l') :
    Issues s (l ++ l') where
  noClose hm := (List.mem_append.mp hm).elim h.noClose h'.noClose
  inside hrp := by
    rw [movedTo_append]
    exact h'.inside (h.inside hrp)

/-! ## Equality but for some tables -/

/-- The state without the contents of the tables in W. -/
def forget (W : List Reg) (s : State) : State :=
  { s with
    freq := if .freq ∈ W then none else s.freq
    node := if .node ∈ W then Vector.replicate 513 none else s.node
    active := if .active ∈ W then none else s.active
    nextIdx := if .nextIdx ∈ W then none else s.nextIdx
    root := if .root ∈ W then none else s.root
    codeLen := if .codeLen ∈ W then Vector.replicate 257 none else s.codeLen
    codeBits := if .codeBits ∈ W then Vector.replicate 257 none else s.codeBits
    stack := if .stack ∈ W then Vector.replicate 257 none else s.stack
    sp := if .sp ∈ W then none else s.sp
    path := if .path ∈ W then Vector.replicate 256 none else s.path
    dnode := if .dnode ∈ W then [] else s.dnode
    dnext := if .dnext ∈ W then none else s.dnext
    dstack := if .dstack ∈ W then [] else s.dstack
    dsp := if .dsp ∈ W then none else s.dsp
    cur := if .cur ∈ W then none else s.cur }

/-- t is s but for the contents of the tables in W. -/
def State.sameBut (W : List Reg) (t s : State) : Prop := forget W t = forget W s

/-- The table r is the same in both states. -/
def State.sameIn (t s : State) : Reg → Prop
  | .freq => t.freq = s.freq
  | .node => t.node = s.node
  | .active => t.active = s.active
  | .nextIdx => t.nextIdx = s.nextIdx
  | .root => t.root = s.root
  | .codeLen => t.codeLen = s.codeLen
  | .codeBits => t.codeBits = s.codeBits
  | .stack => t.stack = s.stack
  | .sp => t.sp = s.sp
  | .path => t.path = s.path
  | .dnode => t.dnode = s.dnode
  | .dnext => t.dnext = s.dnext
  | .dstack => t.dstack = s.dstack
  | .dsp => t.dsp = s.dsp
  | .cur => t.cur = s.cur

section
variable {s t u : State} {W : List Reg} {r : Reg}

theorem State.sameBut.trans (h : u.sameBut W t) (h' : t.sameBut W s) : u.sameBut W s := Eq.trans h h'

theorem State.sameBut.sameOutside (h : t.sameBut W s) : t.sameOutside s := by
  have hdrop := congrArg dropTables (show forget W t = forget W s from h)
  exact hdrop

theorem State.sameBut.sameIn (h : t.sameBut W s) (hr : r ∉ W) : t.sameIn s r := by
  have hfield {α : Type} (f : State → α) (hf : ∀ v, f (forget W v) = f v) : f t = f s := by
    rw [← hf t, ← hf s, show forget W t = forget W s from h]
  cases r <;> exact hfield _ fun v => if_neg hr

theorem State.holdsNone.of_sameIn (h : s.holdsNone r) (hst : t.sameIn s r) (hpar : t.par = s.par) : t.holdsNone r := by
  cases r with
  | dnode => exact Eq.trans hst (by rw [hpar]; exact h)
  | dstack => exact Eq.trans hst (by rw [hpar]; exact h)
  | _ => exact Eq.trans hst h

end

/-! ## The tables a phase's operation writes (R78) -/

/-- The tables and working registers that the unit operation of the phase writes (files 40 to 45). -/
def written : Phase → List Reg
  | .cClear => [.freq]
  | .cCount => [.freq]
  | .cTbinit => [.node, .active, .nextIdx]
  | .cMerge => [.node, .active, .nextIdx, .root]
  | .cCginit => [.codeLen, .codeBits, .stack, .sp]
  | .cCgen => [.codeLen, .codeBits, .stack, .sp, .path]
  | .cHsinit => [.stack, .sp]
  | .cHdr => [.stack, .sp]
  | .dHdinit => [.dnext, .dsp]
  | .dHdr => [.dnode, .dnext, .dstack, .dsp, .cur]
  | .dDec => [.cur]
  | .pIdle => [] | .cMagic => [] | .cRewind => [] | .cEnc => [] | .cClose => [] | .dMagic => [] | .dClose => []

/-- An operation writes only tables whose lifetime includes it (R40). -/
theorem mem_lifetime_of_written {ph : Phase} {r : Reg} (h : r ∈ written ph) : ph ∈ lifetime r := by
  have hall : ∀ r ∈ written ph, ph ∈ lifetime r := by cases ph <;> decide
  exact hall r h

/-! ## The outcomes of a unit operation -/

/-- What the unit operation of the phase ph makes of s: the command goes on, it ends, or an error ends it. -/
inductive OpResult (ph : Phase) (s t : State) : Prop
  | goesOn (l : List Transaction) (issues : Issues s l) (phase : t.phase ∈ nextPhases ph)
      (same : t.sameBut (written ph) { moved l s with phase := t.phase })
  | done (l : List Transaction) (issues : Issues s l) (phase : ph = .cClose ∨ ph = .dClose)
      (eq : t = finish (moved l s))
  | error (l : List Transaction) (e : ErrCode) (issues : Issues s l) (mem : e ∈ phaseErrors ph)
      (eq : t = abort e (moved l s))

section
variable {s t : State} {ph : Phase}

/-- Transactions made first are part of the operation. -/
theorem OpResult.after {l : List Transaction} (hl : Issues s l) (h : OpResult ph (moved l s) t) : OpResult ph s t := by
  cases h with
  | goesOn l' hl' hph h => exact .goesOn (l ++ l') (hl.append hl') hph (by rwa [moved_moved] at h)
  | done l' hl' hph h => exact .done (l ++ l') (hl.append hl') hph (by rwa [moved_moved] at h)
  | error l' e hl' he h => exact .error (l ++ l') e (hl.append hl') he (by rwa [moved_moved] at h)

/-- What an operation does to the tables it writes anyway does not show in its result. -/
theorem OpResult.of_sameBut {u : State} (hu : u.sameBut (written ph) s) (h : OpResult ph u t) : OpResult ph s t := by
  have hout := hu.sameOutside
  have hissues {l : List Transaction} (hl : Issues u l) : Issues s l :=
    ⟨hl.noClose, by rw [← hout.rp_eq, ← hout.inBits_eq]; exact hl.inside⟩
  have hforget : forget (written ph) u = forget (written ph) s := hu
  have hdrop : dropTables u = dropTables s := hout
  cases h with
  | goesOn l hl hph h =>
    have hmoved := congrArg (fun v : State => { moved l v with phase := t.phase }) hforget
    exact .goesOn l (hissues hl) hph (h.trans hmoved)
  | done l hl hph h =>
    have hfinish := congrArg (fun v => finish (moved l v)) hdrop
    exact .done l (hissues hl) hph (h.trans hfinish)
  | error l e hl he h =>
    have habort := congrArg (fun v => abort e (moved l v)) hdrop
    exact .error l e (hissues hl) he (h.trans habort)

/-- An operation that makes no transaction. -/
theorem OpResult.silent (hph : t.phase ∈ nextPhases ph) (h : t.sameBut (written ph) { s with phase := t.phase }) :
    OpResult ph s t :=
  .goesOn [] (issues_nil s) hph (by rwa [moved_nil])

/-- An operation that ends the command without a transaction before Close. -/
theorem OpResult.doneAtOnce (hph : ph = .cClose ∨ ph = .dClose) (h : t = finish s) : OpResult ph s t :=
  .done [] (issues_nil s) hph (by rwa [moved_nil])

/-- An operation that raises an error without a transaction before it. -/
theorem OpResult.errorAtOnce {e : ErrCode} (he : e ∈ phaseErrors ph) (h : t = abort e s) : OpResult ph s t :=
  .error [] e (issues_nil s) he (by rwa [moved_nil])

/-- A read that finds the end of IN, and the error it raises. -/
theorem OpResult.errorAtEnd {e : ErrCode} {n : Nat} (he : e ∈ phaseErrors ph)
    (h : t = abort e { s with trace := s.trace ++ [.read n none] }) : OpResult ph s t :=
  .after (issues_read_none s n) (.errorAtOnce he (by rwa [moved_read_none]))

/-- A read that fits, and what comes after it. -/
theorem OpResult.afterRead {n : Nat} (v : Nat) (hle : s.rp + n ≤ s.inBits.length)
    (h : OpResult ph (readOn n [.read n (some v)] s) t) : OpResult ph s t :=
  .after (issues_read_some v hle) (by rwa [moved_read_some])

/-! ## Each unit operation -/

theorem opResult_tbMerge (h : exec .tbMerge s = .next t) : OpResult .cMerge s t := by
  obtain ⟨_, _, _, _, -, -, -, -, -, rfl⟩ := exec_tbMerge_cases h
  exact .silent (.head _) rfl

theorem opResult_tbRoot (h : exec .tbRoot s = .next t) : OpResult .cMerge s t := by
  obtain ⟨_, -, rfl⟩ := exec_tbRoot_cases h
  exact .silent (.tail _ (.head _)) rfl

theorem opResult_cCginit (h : exec .cgInit s = .next t) : OpResult .cCginit s t := by
  obtain ⟨_, _, -, -, ⟨_, _, -, rfl⟩ | ⟨_, _, _, -, rfl⟩⟩ := exec_cgInit_cases h
  · exact .silent (.tail _ (.head _)) (by simp [State.sameBut, forget, written])
  · exact .silent (.head _) (by simp [State.sameBut, forget, written])

theorem opResult_cCgen (h : exec .cgStep s = .next t) : OpResult .cCgen s t := by
  obtain ⟨k, _, _, _, _, -, -, -, -, ⟨_, _, _, -, rfl⟩ | ⟨_, _, _, -, -, rfl⟩⟩ := exec_cgStep_cases h
  · refine .silent ?_ rfl
    show (if k = 0 then _ else _) ∈ _
    split
    · exact .tail _ (.head _)
    · exact .head _
  · exact .silent (.head _) rfl

theorem opResult_cMagic (h : exec .enMagic s = .next t) : OpResult .cMagic s t := by
  obtain rfl := exec_enMagic_cases h
  refine .after (issues_write s 32 s.par.magic.toNat) (.silent (.head _) ?_)
  rw [moved_write]
  rfl

theorem opResult_cHsinit (h : exec .hsStart s = .next t) : OpResult .cHsinit s t := by
  obtain ⟨_, -, rfl⟩ := exec_hsStart_cases h
  exact .silent (.head _) rfl

theorem opResult_cHdr (h : exec .hsStep s = .next t) : OpResult .cHdr s t := by
  obtain ⟨k, _, _, -, -, -, ⟨x, _, -, rfl⟩ | ⟨_, _, _, -, -, rfl⟩⟩ := exec_hsStep_cases h
  · refine .after (issues_write s 1 1) (.after (issues_write _ 9 x.toNat) (.silent ?_ ?_))
    · show (if k = 0 then _ else _) ∈ _
      split
      · exact .tail _ (.head _)
      · exact .head _
    · rw [moved_moved]
      simp only [List.cons_append, List.nil_append]
      rfl
  · refine .after (issues_write s 1 0) (.silent (.head _) ?_)
    rw [moved_write]
    rfl

theorem opResult_cRewind (h : exec .enRewind s = .next t) : OpResult .cRewind s t := by
  cases h
  refine .after (issues_rewind s) (.silent (.head _) ?_)
  simp only [moved, movedTo, writtenBits, List.append_nil]
  rfl

theorem issues_codeWrite (s : State) (c : Bits) : Issues s [codeWrite c] := issues_write s _ _

theorem opResult_enSym {r : Byte} (h : exec (.enSym r) s = .next t) : OpResult .cEnc s t := by
  obtain rfl | ⟨c, rfl⟩ := exec_enSym_cases h
  · exact .errorAtOnce (.head _) rfl
  · refine .after (issues_codeWrite s c) (.silent (.head _) ?_)
    rw [moved_codeWrite]
    rfl

theorem opResult_enTerm (h : exec .enTerm s = .next t) : OpResult .cEnc s t := by
  obtain ⟨c, rfl⟩ := exec_enTerm_cases h
  refine .after (issues_codeWrite s c) (.silent (.tail _ (.head _)) ?_)
  rw [moved_codeWrite]
  rfl

theorem opResult_dMagic (h : exec .deMagic s = .next t) : OpResult .dMagic s t := by
  obtain rfl | ⟨hle, m, rfl | rfl⟩ := exec_deMagic_cases h
  · exact .errorAtEnd (.head _) rfl
  · exact .afterRead m.toNat hle (.errorAtOnce (.head _) rfl)
  · exact .afterRead m.toNat hle (.silent (.head _) rfl)

/-- A record is attached in DNODE and DSTACK alone (R156). -/
theorem attach_sameBut {i : Nat} (h : attach i { s with dnext := some (i + 1) } = .next t) :
    t.sameBut (written .dHdr) s := by
  obtain ⟨-, rfl⟩ | ⟨_, _, -, -, -, rfl⟩ | ⟨_, _, -, -, -, rfl⟩ := attach_eq_next.mp h <;> rfl

theorem opResult_addInternal (h : addInternal s = .next t) : OpResult .dHdr s t := by
  obtain ⟨_, a, _, -, ha, -, -, -, rfl⟩ := addInternal_eq_next.mp h
  exact .of_sameBut (attach_sameBut ha) (.silent (.head _) rfl)

theorem opResult_addLeaf {x : Symbol} (h : addLeaf x s = .next t) : OpResult .dHdr s t := by
  obtain ⟨_, a, -, ha, -, h⟩ := addLeaf_eq_next.mp h
  refine .of_sameBut (attach_sameBut ha) ?_
  obtain ⟨-, rfl⟩ | ⟨_, -, rfl⟩ := headerEnd_eq_next.mp h
  · exact .silent (.tail _ (.head _)) rfl
  · exact .silent (.head _) rfl

theorem readOn_readOn (m n : Nat) (l l' : List Transaction) (s : State) :
    readOn n l' (readOn m l s) = readOn (m + n) (l ++ l') s := by
  simp only [readOn, List.append_assoc, Nat.add_assoc]

theorem opResult_dHdr (h : exec .hdStep s = .next t) : OpResult .dHdr s t := by
  obtain ⟨-, rfl⟩ | ⟨b, i, hb, -, hcases⟩ := exec_hdStep_cases h
  · exact .errorAtEnd (.head _) rfl
  have hle : s.rp + 1 ≤ s.inBits.length := lt_of_getElem?_some hb
  obtain ⟨-, rfl⟩ | ⟨-, ⟨-, -, rfl⟩ | ⟨-, hle', x, hadd⟩ | ⟨-, hadd⟩⟩ := hcases
  · exact .afterRead b.toNat hle (.errorAtOnce (.tail _ (.head _)) rfl)
  · refine .afterRead 1 hle (.errorAtEnd (n := 9) (.head _) ?_)
    simp only [readOn, List.append_assoc, List.cons_append, List.nil_append]
  · refine .afterRead 1 hle (.afterRead (n := 9) x.toNat hle' ?_)
    rw [readOn_readOn]
    exact opResult_addLeaf hadd
  · exact .afterRead 0 hle (opResult_addInternal hadd)

theorem opResult_leafTest (h : leafTest s = .next t) : OpResult .dDec s t := by
  obtain rfl | rfl | rfl | ⟨v, rfl⟩ := leafTest_cases h
  · exact .silent (.tail _ (.head _)) rfl
  · exact .errorAtOnce (.tail _ (.head _)) rfl
  · exact .silent (.head _) rfl
  · refine .after (issues_write s 8 v) (.silent (.head _) ?_)
    rw [moved_write]
    rfl

theorem opResult_dDec (h : exec .deStep s = .next t) : OpResult .dDec s t := by
  obtain rfl | ⟨hle, b, u, hdown, htest⟩ := exec_deStep_cases h
  · exact .errorAtEnd (.head _) rfl
  refine .afterRead b.toNat hle (.of_sameBut ?_ (opResult_leafTest htest))
  obtain rfl | ⟨_, _, _, -, -, rfl⟩ := walkDown_cases hdown <;> rfl

/-- The operation that the selection table names for a phase has a result of that phase (R104). -/
theorem opResult_of_decodePhase {c : Cond} {i : Instr} (hdec : decodePhase ph c = .ok i) (h : exec i s = .next t) :
    OpResult ph s t := by
  cases ph <;> cases c <;> cases hdec
  case cClear.always.refl => cases h; exact .silent (.head _) rfl
  case cCount.byte.refl => obtain ⟨f, -, -, rfl⟩ := exec_fcAcc_cases h; exact .silent (.head _) rfl
  case cCount.eos.refl => cases h; exact .silent (.tail _ (.head _)) rfl
  case cTbinit.always.refl =>
    obtain ⟨f, -, rfl⟩ := exec_tbInit_cases h
    exact .silent (.head _) (by simp [State.sameBut, forget, written, afterTbInit])
  case cMerge.many.refl => exact opResult_tbMerge h
  case cMerge.one.refl => exact opResult_tbRoot h
  case cCginit.always.refl => exact opResult_cCginit h
  case cCgen.always.refl => exact opResult_cCgen h
  case cMagic.always.refl => exact opResult_cMagic h
  case cHsinit.always.refl => exact opResult_cHsinit h
  case cHdr.always.refl => exact opResult_cHdr h
  case cRewind.always.refl => exact opResult_cRewind h
  case cEnc.byte.refl => exact opResult_enSym h
  case cEnc.eos.refl => exact opResult_enTerm h
  case cClose.always.refl => cases h; exact .doneAtOnce (.inl rfl) rfl
  case dMagic.always.refl => exact opResult_dMagic h
  case dHdinit.always.refl => cases h; exact .silent (.head _) rfl
  case dHdr.always.refl => exact opResult_dHdr h
  case dDec.always.refl => exact opResult_dDec h
  case dClose.always.refl => cases h; exact .doneAtOnce (.inr rfl) rfl

end

end Sys2Proof.Machine
end

section
/-! SUPPORT. What a step can do: of a BUSY core and of one that waits for a command (R104, R190, R223, R240, R256). -/

namespace Sys2Proof.Machine

section
variable {s t : State}

/-- The start of a step makes its read and nothing else. -/
theorem select_cases {c : Cond} (h : select s = .next (c, t)) : ∃ l, Issues s l ∧ t = moved l s := by
  have hread (h : readCond s = (c, t)) : ∃ l, Issues s l ∧ t = moved l s := by
    rw [readCond] at h
    obtain ⟨v, hle, hr⟩ | ⟨-, hr⟩ := bitRead_cases 8 s
    · rw [hr] at h
      cases h
      exact ⟨_, issues_read_some v hle, (moved_read_some 8 v s).symm⟩
    · rw [hr] at h
      cases h
      exact ⟨_, issues_read_none s 8, (moved_read_none 8 s).symm⟩
  have hstay (h : t = s) : ∃ l, Issues s l ∧ t = moved l s := ⟨[], issues_nil s, h.trans (moved_nil s).symm⟩
  unfold select at h
  split at h
  next => exact hread (Host.Outcome.next.inj h)
  next => exact hread (Host.Outcome.next.inj h)
  next =>
    obtain ⟨a, -, h⟩ := chain_eq_next.mp h
    split at h
    next => cases h; exact hstay rfl
    next =>
      split at h
      next => cases h; exact hstay rfl
      next => cases h
  next => cases h; exact hstay rfl

/-- Without a reset and a command a core between commands does nothing (R223). -/
theorem step_of_waiting (hrst : s.rst = false) (hst : s.st ≠ .busy) (hvalid : s.cmdValid = false) : step s = .next s := by
  rw [step, fetch]
  simp only [hrst, hvalid, hst, Bool.false_eq_true, if_false]
  rfl

/-- A core whose collaborators do not answer stays as it is (R256). -/
theorem step_of_unanswered (hrst : s.rst = false) (hst : s.st = .busy) (hio : s.ioReady = false)
    (hph : issuesTransaction s.phase = true) : step s = .next s := by
  rw [step, fetch]
  simp only [hrst, hst, hio, hph, Bool.false_eq_true, if_false, if_true, Bool.not_false, Bool.and_true]
  rfl

/-- A step in which nothing stands in the way of the unit operation (R104). -/
theorem step_of_answered (hrst : s.rst = false) (hst : s.st = .busy)
    (hwait : ¬ (s.ioReady = false ∧ issuesTransaction s.phase = true)) :
    step s = chain (select (expire s)) fun x => runFetched (.run (.phase (phaseCode s.phase) x.1) x.2) := by
  have hcond : (!s.ioReady && issuesTransaction s.phase) = false := by
    rw [← Bool.not_eq_true, Bool.and_eq_true, Bool.not_eq_true']
    exact hwait
  rw [step, fetch]
  simp only [hrst, hst, hcond, Bool.false_eq_true, if_false, if_true, chain_assoc, chain_next]

theorem step_of_reset (hrst : s.rst = true) (hst : s.st ≠ .busy) : step s = .next (hardReset s) := by
  rw [step, fetch, if_pos hrst, if_neg hst]
  rfl

theorem step_of_resetWhileBusy (hrst : s.rst = true) (hst : s.st = .busy) : step s = .refused .resetWhileBusy := by
  rw [step, fetch, if_pos hrst, if_pos hst]
  rfl

/-- A step of a BUSY core waits for a collaborator, or performs the operation its phase and condition select. -/
theorem step_busy_exec (hst : s.st = .busy) (h : step s = .next t) :
    (t = s ∧ s.ioReady = false) ∨
      ∃ c i l, decodePhase s.phase c = .ok i ∧ Issues (expire s) l ∧ exec i (moved l (expire s)) = .next t := by
  by_cases hrst : s.rst = true
  · rw [step_of_resetWhileBusy hrst hst] at h
    cases h
  replace hrst := Bool.not_eq_true _ ▸ hrst
  by_cases hwait : s.ioReady = false ∧ issuesTransaction s.phase = true
  · obtain ⟨hio, hissues⟩ := hwait
    rw [step_of_unanswered hrst hst hio hissues] at h
    cases h
    exact .inl ⟨rfl, hio⟩
  · rw [step_of_answered hrst hst hwait] at h
    obtain ⟨⟨c, u⟩, hsel, h⟩ := chain_eq_next.mp h
    obtain ⟨l, hl, rfl⟩ := select_cases hsel
    refine .inr ?_
    simp only [runFetched, decode, phaseOf_phaseCode] at h
    split at h
    next i hdec => exact ⟨c, i, l, hdec, hl, h⟩
    next => cases h

theorem step_busy_cases (hst : s.st = .busy) (h : step s = .next t) :
    (t = s ∧ s.ioReady = false) ∨ OpResult s.phase (expire s) t := by
  obtain hwait | ⟨c, i, l, hdec, hl, h⟩ := step_busy_exec hst h
  · exact .inl hwait
  · exact .inr (.after hl (opResult_of_decodePhase hdec h))

/-- The core after it has taken the command off the port (R190, R193, R194). -/
def taken (s : State) : State :=
  match decodeCmd s.cmdOp with
  | .compress => accepted .cClear s
  | .decompress => accepted .dMagic s
  | _ => { s with cmdValid := false }

theorem step_takes_command (hrst : s.rst = false) (hst : s.st ≠ .busy) (hvalid : s.cmdValid = true) :
    step s = .next (taken s) := by
  have hcmd := step_of_command hrst hst hvalid rfl
  have haccept (first : Phase) : accept first { s with cmdValid := false } = accepted first s :=
    accept_of_not_busy first { s with cmdValid := false } hst
  have hall : ∀ op : BitVec 2, decodeCmd op = .nop ∨ decodeCmd op = .compress ∨ decodeCmd op = .decompress ∨
    decodeCmd op = .rsvd3 := by decide
  rcases hall s.cmdOp with hop | hop | hop | hop <;> rw [hop] at hcmd <;> rw [taken, hop]
  · exact hcmd
  · exact hcmd.trans (congrArg Host.Outcome.next (haccept .cClear))
  · exact hcmd.trans (congrArg Host.Outcome.next (haccept .dMagic))
  · exact hcmd

theorem taken_cases (s : State) :
    taken s = { s with cmdValid := false } ∨
      ∃ first, (first = .cClear ∨ first = .dMagic) ∧ taken s = accepted first s := by
  rw [taken]
  split
  · exact .inr ⟨_, .inl rfl, rfl⟩
  · exact .inr ⟨_, .inr rfl, rfl⟩
  · exact .inl rfl

/-- A step of a core that is not BUSY: reset, nothing, NOP, or acceptance. -/
theorem step_idle_cases (hst : s.st ≠ .busy) :
    ∃ t, step s = .next t ∧
      ((s.rst = true ∧ t = hardReset s) ∨ (s.rst = false ∧ s.cmdValid = false ∧ t = s) ∨
        (s.rst = false ∧ t = { s with cmdValid := false }) ∨
        s.rst = false ∧ ∃ first, (first = .cClear ∨ first = .dMagic) ∧ t = accepted first s) := by
  by_cases hrst : s.rst = true
  · exact ⟨_, step_of_reset hrst hst, .inl ⟨hrst, rfl⟩⟩
  replace hrst := Bool.not_eq_true _ ▸ hrst
  by_cases hvalid : s.cmdValid = true
  · have hstep := step_takes_command hrst hst hvalid
    obtain htaken | ⟨first, hfirst, htaken⟩ := taken_cases s
    · exact ⟨_, hstep, .inr (.inr (.inl ⟨hrst, htaken⟩))⟩
    · exact ⟨_, hstep, .inr (.inr (.inr ⟨hrst, first, hfirst, htaken⟩))⟩
  · replace hvalid := Bool.not_eq_true _ ▸ hvalid
    exact ⟨s, step_of_waiting hrst hst hvalid, .inr (.inl ⟨hrst, hvalid, rfl⟩)⟩

end

end Sys2Proof.Machine
end

section
/-! SUPPORT. The rules about every step (R22, R23, R46, R68, R76, R78, R190, R196, R217), from the classification of steps. -/

namespace Sys2Proof.Machine

section
variable {s t : State} {ph : Phase}

section
variable (h : t.sameOutside s)
include h

theorem State.sameOutside.st_eq : t.st = s.st :=
  show (dropTables t).st = (dropTables s).st from congrArg State.st h

theorem State.sameOutside.rst_eq : t.rst = s.rst :=
  show (dropTables t).rst = (dropTables s).rst from congrArg State.rst h

theorem State.sameOutside.ioReady_eq : t.ioReady = s.ioReady :=
  show (dropTables t).ioReady = (dropTables s).ioReady from congrArg State.ioReady h

theorem State.sameOutside.cmdValid_eq : t.cmdValid = s.cmdValid :=
  show (dropTables t).cmdValid = (dropTables s).cmdValid from congrArg State.cmdValid h

theorem State.sameOutside.cmdOp_eq : t.cmdOp = s.cmdOp :=
  show (dropTables t).cmdOp = (dropTables s).cmdOp from congrArg State.cmdOp h

end

/-! ## What every operation leaves alone -/

/-- The port, the inputs and the parameters are not the core's to write. -/
theorem OpResult.frame (h : OpResult ph s t) :
    t.par = s.par ∧ t.inBits = s.inBits ∧ t.cmdValid = s.cmdValid ∧ t.cmdOp = s.cmdOp ∧ t.rst = s.rst ∧
      t.ioReady = s.ioReady := by
  cases h with
  | goesOn l hl hph h =>
    have hout := h.sameOutside
    exact ⟨hout.par_eq, hout.inBits_eq, hout.cmdValid_eq, hout.cmdOp_eq, hout.rst_eq, hout.ioReady_eq⟩
  | done l hl hph h =>
    rw [h]
    exact ⟨finish_par _, finish_inBits _, finish_cmdValid _, finish_cmdOp _, finish_rst _, finish_ioReady _⟩
  | error l e hl he h =>
    rw [h]
    exact ⟨abort_par .., abort_inBits .., abort_cmdValid .., abort_cmdOp .., abort_rst .., abort_ioReady ..⟩

/-- The operation's transactions, and the Close that ends the command with it, account for trace, OUT and rp. -/
theorem OpResult.transactions (h : OpResult ph s t) :
    ∃ l, t.trace = s.trace ++ l ∧ t.outBits = s.outBits ++ writtenBits l ∧ t.rp = movedTo s.rp l := by
  cases h with
  | goesOn l hl hph h => exact ⟨l, h.sameOutside.trace_eq, h.sameOutside.outBits_eq, h.sameOutside.rp_eq⟩
  | done l hl hph h =>
    subst h
    exact ⟨l ++ [.close], by simp, by simp [writtenBits_concat_close], by simp [movedTo_concat_close]⟩
  | error l e hl he h =>
    subst h
    exact ⟨l ++ [.close], by simp, by simp [writtenBits_concat_close], by simp [movedTo_concat_close]⟩

/-! ## STATUS -/

/-- A step of a BUSY core keeps ST and ERR, or ends the command. -/
theorem step_busy_st (hst : s.st = .busy) (h : step s = .next t) :
    (t.st = .busy ∧ t.err = s.err) ∨
      (t.st = .done ∧ t.err = s.err ∧ t.phase = .pIdle ∧ (s.phase = .cClose ∨ s.phase = .dClose)) ∨
      (t.st = .error ∧ t.phase = .pIdle ∧ t.err ∈ phaseErrors s.phase) := by
  obtain ⟨rfl, -⟩ | hop := step_busy_cases hst h
  · exact .inl ⟨hst, rfl⟩
  cases hop with
  | goesOn l hl hph h =>
    exact .inl ⟨h.sameOutside.st_eq.trans hst, h.sameOutside.err_eq⟩
  | done l hl hph h => subst h; exact .inr (.inl ⟨finish_st _, by simp, finish_phase _, hph⟩)
  | error l e hl he h => subst h; exact .inr (.inr ⟨abort_st .., abort_phase .., he⟩)

/-- A step that stays BUSY waits, or goes on along the flow and writes its own tables alone. -/
theorem step_stays_busy (hst : s.st = .busy) (h : step s = .next t) (hst' : t.st = .busy) :
    (t = s ∧ s.ioReady = false) ∨
      ∃ l, Issues (expire s) l ∧ t.phase ∈ nextPhases s.phase ∧
        t.sameBut (written s.phase) { moved l (expire s) with phase := t.phase } := by
  obtain hwait | hop := step_busy_cases hst h
  · exact .inl hwait
  cases hop with
  | goesOn l hl hph h => exact .inr ⟨l, hl, hph, h⟩
  | done l hl hph h => subst h; cases hst'
  | error l e hl he h => subst h; cases hst'

/-- After an operation that goes on, a table outside its lifetime holds nothing. -/
theorem holdsNone_of_goesOn {l : List Transaction} {r : Reg} (hdead : s.phase ∉ lifetime r)
    (hsame : t.sameBut (written s.phase) { moved l (expire s) with phase := t.phase }) : t.holdsNone r := by
  have hnone : State.holdsNone { moved l (expire s) with phase := t.phase } r := by
    have := expire_holdsNone hdead
    cases r <;> exact this
  exact hnone.of_sameIn (hsame.sameIn fun hwritten => hdead (mem_lifetime_of_written hwritten)) hsame.sameOutside.par_eq

end

/-- Settles O45. -/
theorem commandEndsOnlyByCloseOrError : Obligations.CommandEndsOnlyByCloseOrError := fun _ _ => step_busy_st

/-- Settles O46. -/
theorem phaseFollowsTheFlow : Obligations.PhaseFollowsTheFlow := fun _ _ hst h hst' =>
  (step_stays_busy hst h hst').imp_right fun ⟨_, _, hph, _⟩ => hph

/-- Settles O47, by the outcomes of the operation: the last two issue Close after all else. -/
theorem closeIsIssuedExactlyOnce : Obligations.CloseIsIssuedExactlyOnce := by
  intro s t hst h
  obtain ⟨rfl, -⟩ | hop := step_busy_cases hst h
  · exact ⟨[], (List.append_nil _).symm, fun _ => List.not_mem_nil, fun hne => absurd hst hne⟩
  cases hop with
  | goesOn l hl hph h =>
    exact ⟨l, h.sameOutside.trace_eq, fun _ => hl.noClose, fun hne => absurd (h.sameOutside.st_eq.trans hst) hne⟩
  | done l hl hph h =>
    subst h
    exact ⟨l ++ [.close], by simp, nofun, fun _ => ⟨rfl, l, rfl, hl.noClose⟩⟩
  | error l e hl he h =>
    subst h
    exact ⟨l ++ [.close], by simp, nofun, fun _ => ⟨rfl, l, rfl, hl.noClose⟩⟩

/-- Settles O48: a core that is not BUSY makes no transaction, and those of a BUSY one are its operation's. -/
theorem transactionsExplainTheStreams : Obligations.TransactionsExplainTheStreams := by
  intro s t h
  have hnone (htrace : t.trace = s.trace) (hout : t.outBits = s.outBits) (hrp : t.rp = s.rp) :
      ∃ l, t.trace = s.trace ++ l ∧ t.outBits = s.outBits ++ writtenBits l ∧ t.rp = movedTo s.rp l :=
    ⟨[], htrace.trans (List.append_nil _).symm, hout.trans (List.append_nil _).symm, hrp⟩
  have hall : (∃ l, t.trace = s.trace ++ l ∧ t.outBits = s.outBits ++ writtenBits l ∧ t.rp = movedTo s.rp l) ∧
      t.inBits = s.inBits ∧ t.par = s.par := by
    by_cases hst : s.st = .busy
    · obtain ⟨rfl, -⟩ | hop := step_busy_cases hst h
      · exact ⟨hnone rfl rfl rfl, rfl, rfl⟩
      · obtain ⟨hpar, hin, -⟩ := hop.frame
        exact ⟨hop.transactions, hin, hpar⟩
    · obtain ⟨u, hu, hcases⟩ := step_idle_cases hst
      obtain rfl : t = u := Host.Outcome.next.inj (h.symm.trans hu)
      obtain ⟨-, rfl⟩ | ⟨-, -, rfl⟩ | ⟨-, rfl⟩ | ⟨-, first, -, rfl⟩ := hcases
      · exact ⟨hnone (hardReset_trace s) (hardReset_outBits s) (hardReset_rp s), hardReset_inBits s, hardReset_par s⟩
      · exact ⟨hnone rfl rfl rfl, rfl, rfl⟩
      · exact ⟨hnone rfl rfl rfl, rfl, rfl⟩
      · exact ⟨hnone rfl rfl rfl, rfl, rfl⟩
  obtain ⟨⟨l, htrace, hout, hrp⟩, hin, hpar⟩ := hall
  exact ⟨l, htrace, hout, hrp, hin, hpar⟩

/-- Settles O49: an operation keeps the tables that are live in its phase and that it does not write, and a table that is not
live in it holds nothing. -/
theorem tablesAreFixedOnceBuilt : Obligations.TablesAreFixedOnceBuilt := by
  intro s t hst h hst'
  obtain hwait | ⟨l, -, hph, hsame⟩ := step_stays_busy hst h hst'
  · exact .inl hwait
  have hopen : s.phase ≠ .dClose := fun hclose => by rw [hclose] at hph; cases hph
  have kept (r : Reg) (phs : List Phase) (hphs : ∀ p ∈ phs, p ∈ lifetime r ∧ r ∉ written p) (hs : s.phase ∈ phs) :
      t.sameIn s r := by
    obtain ⟨hlive, hwritten⟩ := hphs _ hs
    have hr := hsame.sameIn hwritten
    cases r <;> exact Eq.trans hr (keep_of_mem hlive)
  have gone (r : Reg) (phs : List Phase) (hphs : ∀ p ∈ lifetime r, p ∈ phs ∨ p = .dClose) (hs : s.phase ∉ phs) :
      t.holdsNone r := by
    exact holdsNone_of_goesOn (fun hlive => (hphs _ hlive).elim hs hopen) hsame
  refine .inr ⟨fun hs => kept .freq [.cTbinit] (by decide) (by rw [hs]; exact .head _), gone .freq _ (by decide),
    fun hs => ⟨gone .active _ (by decide) hs, gone .nextIdx _ (by decide) hs⟩,
    fun hs => ⟨kept .node _ (by decide) hs, kept .root _ (by decide) hs⟩,
    fun hs => ⟨fun hne => ?_, gone .root _ (by decide) hs⟩,
    fun hs => ⟨kept .codeLen _ (by decide) hs, kept .codeBits _ (by decide) hs⟩,
    fun hs => ⟨gone .codeLen _ (by decide) hs, gone .codeBits _ (by decide) hs⟩,
    fun hs => ⟨gone .stack _ (by decide) hs, gone .sp _ (by decide) hs, gone .path _ (by decide) hs⟩,
    kept .dnode _ (by decide), gone .dnode _ (by decide),
    fun hs => ⟨gone .dnext _ (by decide) hs, gone .dstack _ (by decide) hs, gone .dsp _ (by decide) hs⟩,
    gone .cur _ (by decide)⟩
  exact gone .node (.cTbinit :: [.cMerge, .cCginit, .cCgen, .cMagic, .cHsinit, .cHdr]) (by decide)
    (List.not_mem_cons_of_ne_of_not_mem hne hs)

/-! ## Acceptance (R190) -/

/-- Settles O5: the handshake runs the command, and no operation of a command touches the port. -/
theorem acceptanceStartsTheCommand : Obligations.AcceptanceStartsTheCommand := by
  refine ⟨fun s hst => ⟨congrArg Host.Outcome.next (accept_of_not_busy .cClear s hst),
    congrArg Host.Outcome.next (accept_of_not_busy .dMagic s hst), fun hrst hvalid hop => ⟨false, ?_⟩,
    fun hrst hvalid hop => ⟨false, ?_⟩⟩, fun s t hst h => ?_⟩
  · rw [step_of_command (i := .compress) hrst hst hvalid (by rw [hop]; rfl)]
    exact congrArg Host.Outcome.next (accept_of_not_busy .cClear { s with cmdValid := false } hst)
  · rw [step_of_command (i := .decompress) hrst hst hvalid (by rw [hop]; rfl)]
    exact congrArg Host.Outcome.next (accept_of_not_busy .dMagic { s with cmdValid := false } hst)
  · obtain ⟨rfl, -⟩ | hop := step_busy_cases hst h
    · exact ⟨rfl, rfl⟩
    · obtain ⟨-, -, hvalid, hcmd, -⟩ := hop.frame
      exact ⟨hvalid, hcmd⟩

end Sys2Proof.Machine
end

section
/-! SUPPORT. The sizes and widths of the tables (R26 to R38), register by register: what they are, and that every unit
operation keeps them. -/

namespace Sys2Proof.Machine

/-! ## One table's share of the invariant -/

/-- The children a record of DNODE names, if it names any, lie below n. -/
def DNode.childrenBelow (n : Nat) (d : DNode) : Prop := holdsOnly d.left (· < n) ∧ holdsOnly d.right (· < n)

/-- The table or working register has its size and its values fit their widths. -/
def State.fits (s : State) : Reg → Prop
  | .freq => holdsOnly s.freq fun f => freqTotal f < 2 ^ s.par.weightW
  | .node => ∀ (i : Nat) (n : Node), s.node[i]? = some (some n) → n.weight < 2 ^ s.par.weightW ∧
      ∀ w l r, n = .internal w l r → l < 513 ∧ r < 513
  | .nextIdx => holdsOnly s.nextIdx fun n => n ≤ 513
  | .root => holdsOnly s.root fun n => n < 513
  | .codeLen => ∀ i len : Nat, s.codeLen[i]? = some (some len) → len ≤ 256
  | .sp => holdsOnly s.sp fun n => n ≤ 257
  | .stack => ∀ (i : Nat) (e : StackEntry), s.stack[i]? = some (some e) →
      e.node < 513 ∧ holdsOnly e.depth fun d => d < 512
  | .dnext => holdsOnly s.dnext fun n => n ≤ s.par.decNodeCap
  | .dsp => holdsOnly s.dsp fun n => n ≤ s.par.decNodeCap
  | .cur => holdsOnly s.cur fun n => n < s.par.decNodeCap
  | .dnode => s.dnode.length = s.par.decNodeCap ∧ ∀ (i : Nat) (d : DNode), s.dnode[i]? = some d →
      d.childrenBelow s.par.decNodeCap
  | .dstack => s.dstack.length = s.par.decNodeCap ∧
      ∀ (i : Nat) (e : DEntry), s.dstack[i]? = some (some e) → e.node < s.par.decNodeCap
  | .active => True
  | .codeBits => True
  | .path => True

/-- Every table fits. -/
def State.allFit (s : State) : Prop := ∀ r, s.fits r

section
variable {s t : State}

theorem allFit_iff : s.allFit ↔ s.compressionFits ∧ s.decompressionFits ∧
    s.dnode.length = s.par.decNodeCap ∧ s.dstack.length = s.par.decNodeCap := by
  constructor
  · intro h
    obtain ⟨hdnode, hchild⟩ := h .dnode
    obtain ⟨hdstack, hentry⟩ := h .dstack
    exact ⟨⟨h .freq, h .node, h .nextIdx, h .root, h .codeLen, h .sp, h .stack⟩,
      ⟨h .dnext, h .dsp, h .cur, hchild, hentry⟩, hdnode, hdstack⟩
  · rintro ⟨⟨hfreq, hnode, hnext, hroot, hlen, hsp, hstack⟩, ⟨hdnext, hdsp, hcur, hchild, hentry⟩, hdnode, hdstack⟩ r
    cases r with
    | dnode => exact ⟨hdnode, hchild⟩
    | dstack => exact ⟨hdstack, hentry⟩
    | active => trivial
    | codeBits => trivial
    | path => trivial
    | _ => assumption

theorem State.fits.of_sameIn {r : Reg} (h : s.fits r) (hst : t.sameIn s r) (hpar : t.par = s.par) : t.fits r := by
  cases r <;> simp only [State.sameIn] at hst <;> simp only [State.fits, hst, hpar] at h ⊢ <;> exact h

theorem fits_of_holdsNone {r : Reg} (h : s.holdsNone r) : s.fits r := by
  cases r with
  | active => trivial
  | codeBits => trivial
  | path => trivial
  | node => exact fun i n hn => absurd (h ▸ hn) getElem?_replicate_none_ne
  | codeLen => exact fun i n hn => absurd (h ▸ hn) getElem?_replicate_none_ne
  | stack => exact fun i n hn => absurd (h ▸ hn) getElem?_replicate_none_ne
  | dnode =>
    have h : s.dnode = List.replicate s.par.decNodeCap DNode.blank := h
    refine ⟨by rw [h, List.length_replicate], fun i d hd => ?_⟩
    rw [h] at hd
    rw [eq_blank_of_getElem?_replicate hd]
    exact ⟨holdsOnly_none rfl, holdsOnly_none rfl⟩
  | dstack =>
    exact ⟨by rw [show s.dstack = _ from h, List.length_replicate],
      fun i e he => absurd (h ▸ he) getElem?_listReplicate_none_ne⟩
  | _ => exact holdsOnly_none h

theorem allFit_dropTables (s : State) : (dropTables s).allFit := fun r =>
  fits_of_holdsNone (holdsNone_of_empty (dropTables_compressionEmpty s) (dropTables_decompressionEmpty s) r)

theorem allFit_expire (h : s.allFit) : (expire s).allFit := by
  intro r
  by_cases hlive : s.phase ∈ lifetime r
  · refine (h r).of_sameIn ?_ rfl
    cases r <;> exact keep_of_mem hlive
  · exact fits_of_holdsNone (expire_holdsNone hlive)

/-- A state fits where the tables written fit and the others are as they were. -/
theorem allFit_of_sameBut {W : List Reg} (h : s.allFit) (hst : t.sameBut W s) (hW : ∀ r ∈ W, t.fits r) : t.allFit := by
  intro r
  by_cases hr : r ∈ W
  · exact hW r hr
  · exact (h r).of_sameIn (hst.sameIn hr) hst.sameOutside.par_eq

/-- PHASE is no matter of the tables. -/
theorem State.allFit.withPhase (h : s.allFit) (ph : Phase) : ({ s with phase := ph } : State).allFit := fun r =>
  (h r).of_sameIn (by cases r <;> rfl) rfl

end

/-! ## Writes that fit -/

theorem holdsOnly_some {α : Type} {a : α} {P : α → Prop} (h : P a) : holdsOnly (some a) P := by
  rintro _ ⟨⟩
  exact h

/-- What holds of all entries of a table holds of all after a write of which it holds. -/
theorem forall_setIfInBounds {α : Type} {m k : Nat} {t : Vector (Option α) m} {x : α} {P : α → Prop}
    (ht : ∀ (i : Nat) (a : α), t[i]? = some (some a) → P a) (hx : P x) :
    ∀ (i : Nat) (a : α), (t.setIfInBounds k (some x))[i]? = some (some a) → P a := by
  intro i a ha
  rw [Vector.getElem?_setIfInBounds] at ha
  split at ha
  next =>
    split at ha
    next =>
      cases ha
      exact hx
    next => cases ha
  next => exact ht i a ha

theorem forall_set {α : Type} {k : Nat} {t : List (Option α)} {x : α} {P : α → Prop}
    (ht : ∀ (i : Nat) (a : α), t[i]? = some (some a) → P a) (hx : P x) :
    ∀ (i : Nat) (a : α), (t.set k (some x))[i]? = some (some a) → P a := by
  intro i a ha
  rw [List.getElem?_set] at ha
  split at ha
  next =>
    split at ha
    next =>
      cases ha
      exact hx
    next => cases ha
  next => exact ht i a ha

theorem forall_modify {α : Type} {k : Nat} {t : List α} {f : α → α} {P : α → Prop}
    (ht : ∀ (i : Nat) (a : α), t[i]? = some a → P a) (hf : ∀ a, P a → P (f a)) :
    ∀ (i : Nat) (a : α), (t.modify k f)[i]? = some a → P a := by
  intro i a ha
  rw [List.getElem?_modify, Option.map_eq_map, Option.map_eq_some_iff] at ha
  obtain ⟨b, hb, rfl⟩ := ha
  split
  · exact hf b (ht i b hb)
  · exact ht i b hb

/-- A count is no more than the sum of all counts. -/
theorem getD_le_freqTotal (f : Vector Nat 257) (i : Nat) : f[i]?.getD 0 ≤ freqTotal f := by
  cases h : f[i]? with
  | none => exact Nat.zero_le _
  | some c =>
    rw [← Vector.getElem?_toList] at h
    exact List.single_le_sum (fun _ _ => Nat.zero_le _) c (List.mem_of_getElem? h)

section
variable {s t : State} (h : s.allFit)
include h

theorem State.allFit.node_lt {e : StackEntry} {k : Nat} (he : s.stack[k]? = some (some e)) : e.node < 513 :=
  (h .stack k e he).1

theorem State.allFit.children_lt {i w l r : Nat} (hi : s.node[i]? = some (some (.internal w l r))) : l < 513 ∧ r < 513 :=
  (h .node i _ hi).2 w l r rfl

theorem State.allFit.weightAt_lt (i : Nat) : weightAt s i < 2 ^ s.par.weightW := by
  rw [weightAt]
  split
  next n hn => exact (h .node i n hn).1
  next => exact Nat.two_pow_pos _

end

/-! ## The tables each unit operation writes -/

section
variable {s t : State} (h : s.allFit)
include h

omit h in
theorem fits_fcAcc {r : Byte} (hx : exec (.fcAcc r) s = .next t) : t.fits .freq := by
  obtain ⟨f, -, hlt, rfl⟩ := exec_fcAcc_cases hx
  refine holdsOnly_some ?_
  rw [freqTotal_set_succ]
  exact hlt

theorem fits_tbInit (hx : exec .tbInit s = .next t) : t.fits .node ∧ t.fits .nextIdx := by
  obtain ⟨f, hf, rfl⟩ := exec_tbInit_cases hx
  refine ⟨fun i n hn => ?_, holdsOnly_some (by decide)⟩
  have hn : (leafRecords f s.node)[i]? = some (some n) := hn
  rw [leafRecords, getElem?_tabulate] at hn
  split at hn
  next =>
    have hn := Option.some.inj hn
    split at hn
    next =>
      cases hn
      exact ⟨(getD_le_freqTotal f i).trans_lt (h .freq f hf), nofun⟩
    next =>
      refine h .node i n ?_
      cases hi : s.node[i]? with
      | none => rw [hi] at hn; cases hn
      | some x => rw [hi] at hn; exact congrArg some hn
  next => cases hn

theorem fits_tbMerge (hx : exec .tbMerge s = .next t) : t.fits .node ∧ t.fits .nextIdx ∧ t.fits .root := by
  obtain ⟨act, a, b, n, ha, hb, -, hn, hlt, rfl⟩ := exec_tbMerge_cases hx
  refine ⟨forall_setIfInBounds (h .node) ⟨hlt, fun w l r heq => ?_⟩, holdsOnly_some hn, h .root⟩
  cases heq
  exact ⟨ha, hb⟩

theorem fits_tbRoot (hx : exec .tbRoot s = .next t) : t.fits .node ∧ t.fits .nextIdx ∧ t.fits .root := by
  obtain ⟨i, hi, rfl⟩ := exec_tbRoot_cases hx
  exact ⟨h .node, h .nextIdx, holdsOnly_some hi⟩

omit h in
/-- The two entries that a walk pushes for the children of a node fit STACK. -/
theorem fits_withEdges {k l r d : Nat} (hstack : s.fits .stack) (hl : l < 513) (hr : r < 513) (hd : d < 512) :
    ∀ (i : Nat) (e : StackEntry), (withEdges s.stack k l r d)[i]? = some (some e) →
      e.node < 513 ∧ holdsOnly e.depth fun d => d < 512 :=
  forall_setIfInBounds (forall_setIfInBounds hstack ⟨hr, holdsOnly_some hd⟩) ⟨hl, holdsOnly_some hd⟩

omit h in
theorem fits_zeroed (i len : Nat) (hi : (Vector.replicate 257 (some 0))[i]? = some (some len)) : len ≤ 256 := by
  rw [Vector.getElem?_replicate] at hi
  split at hi
  next =>
    cases hi
    exact Nat.zero_le _
  next => cases hi

theorem fits_cgInit (hx : exec .cgInit s = .next t) : t.fits .codeLen ∧ t.fits .stack ∧ t.fits .sp := by
  obtain ⟨i, n, -, hn, ⟨x, w, rfl, rfl⟩ | ⟨w, l, r, rfl, rfl⟩⟩ := exec_cgInit_cases hx
  · exact ⟨forall_setIfInBounds fits_zeroed (by decide), h .stack, holdsOnly_some (by decide)⟩
  · obtain ⟨hl, hr⟩ := h.children_lt hn
    exact ⟨fits_zeroed, fits_withEdges (h .stack) hl hr (by decide), holdsOnly_some (by decide)⟩

theorem fits_cgStep (hx : exec .cgStep s = .next t) : t.fits .codeLen ∧ t.fits .stack ∧ t.fits .sp := by
  obtain ⟨k, d, n, b, e, hsp, hd, -, hn, ⟨x, w, c, rfl, rfl⟩ | ⟨w, l, r, rfl, hk, rfl⟩⟩ := exec_cgStep_cases hx
  · exact ⟨forall_setIfInBounds (h .codeLen) hd, h .stack, holdsOnly_some (Nat.le_of_succ_le (h .sp _ hsp))⟩
  · obtain ⟨hl, hr⟩ := h.children_lt hn
    exact ⟨h .codeLen, fits_withEdges (h .stack) hl hr (by omega), holdsOnly_some hk⟩

theorem fits_hsStart (hx : exec .hsStart s = .next t) : t.fits .stack ∧ t.fits .sp := by
  obtain ⟨i, hi, rfl⟩ := exec_hsStart_cases hx
  exact ⟨forall_setIfInBounds (h .stack) ⟨h .root _ hi, holdsOnly_none rfl⟩, holdsOnly_some (by decide)⟩

theorem fits_hsStep (hx : exec .hsStep s = .next t) : t.fits .stack ∧ t.fits .sp := by
  obtain ⟨k, e, n, hsp, -, hn, ⟨x, w, rfl, rfl⟩ | ⟨w, l, r, rfl, hk, rfl⟩⟩ := exec_hsStep_cases hx
  · exact ⟨h .stack, holdsOnly_some (Nat.le_of_succ_le (h .sp _ hsp))⟩
  · obtain ⟨hl, hr⟩ := h.children_lt hn
    exact ⟨forall_setIfInBounds (forall_setIfInBounds (h .stack) ⟨hr, holdsOnly_none rfl⟩) ⟨hl, holdsOnly_none rfl⟩,
      holdsOnly_some hk⟩

/-! ## The header reader -/

/-- A write of fields of a record of DNODE that keeps its children in range. -/
theorem fits_modify {i : Nat} {f : DNode → DNode}
    (hf : ∀ d : DNode, d.childrenBelow s.par.decNodeCap → (f d).childrenBelow s.par.decNodeCap) :
    ({ s with dnode := s.dnode.modify i f } : State).allFit := by
  obtain ⟨hlen, hchild⟩ := h .dnode
  refine allFit_of_sameBut (W := [.dnode]) h rfl (List.forall_mem_singleton.mpr ⟨?_, forall_modify hchild hf⟩)
  exact (List.length_modify ..).trans hlen

theorem fits_dstack_set {k : Nat} {e : DEntry} (he : e.node < s.par.decNodeCap) :
    ({ s with dstack := s.dstack.set k (some e) } : State).allFit := by
  obtain ⟨hlen, hentry⟩ := h .dstack
  refine allFit_of_sameBut (W := [.dstack]) h rfl (List.forall_mem_singleton.mpr ⟨?_, forall_set hentry he⟩)
  exact (List.length_set ..).trans hlen

theorem allFit_attach {i : Nat} (hi : i < s.par.decNodeCap) (ha : attach i s = .next t) : t.allFit := by
  obtain ⟨-, rfl⟩ | ⟨k, p, hdsp, -, -, rfl⟩ | ⟨k, p, hdsp, hp, -, rfl⟩ := attach_eq_next.mp ha
  · exact h
  · have hdnode := fits_modify h (i := p) (f := DNode.withRight i) fun d hd => ⟨hd.1, holdsOnly_some hi⟩
    exact allFit_of_sameBut (W := [.dsp]) hdnode rfl
      (List.forall_mem_singleton.mpr (holdsOnly_some (Nat.le_of_succ_le (h .dsp _ hdsp))))
  · have hdnode := fits_modify h (i := p) (f := DNode.withLeft i) fun d hd => ⟨holdsOnly_some hi, hd.2⟩
    exact fits_dstack_set hdnode (e := { node := p, stage := true }) ((h .dstack).2 k _ hp :)

/-- The next free record (R156): where the store is not full, DNEXT names a record and its successor fits. -/
theorem allFit_allocate {i : Nat} {a : State} (hi : s.dnext = some i) (hcap : i ≠ s.par.decNodeCap)
    (ha : attach i { s with dnext := some (i + 1) } = .next a) : i < s.par.decNodeCap ∧ a.allFit := by
  have hlt : i < s.par.decNodeCap := lt_of_le_of_ne (h .dnext i hi) hcap
  have hnext : ({ s with dnext := some (i + 1) } : State).allFit :=
    allFit_of_sameBut (W := [.dnext]) h rfl (List.forall_mem_singleton.mpr (holdsOnly_some hlt))
  exact ⟨hlt, allFit_attach hnext hlt ha⟩

theorem allFit_addInternal {i : Nat} (hi : s.dnext = some i) (hcap : i ≠ s.par.decNodeCap) (hx : addInternal s = .next t) :
    t.allFit := by
  obtain ⟨j, a, n, hj, ha, -, hdsp, hn, rfl⟩ := addInternal_eq_next.mp hx
  obtain rfl : i = j := Option.some.inj (hi.symm.trans hj)
  obtain ⟨hlt, hfit⟩ := allFit_allocate h hi hcap ha
  have hpar : a.par = s.par := (attach_sameBut ha).sameOutside.par_eq
  have hdnode := fits_modify hfit (i := i) (f := DNode.asInternal) fun d hd => hd
  have hdstack := fits_dstack_set hdnode (k := n) (e := { node := i, stage := false }) (hpar ▸ hlt)
  refine allFit_of_sameBut (W := [.dsp]) (hdstack.withPhase .dHdr) rfl (List.forall_mem_singleton.mpr (holdsOnly_some ?_))
  exact (hfit .dstack).1 ▸ hn

theorem allFit_addLeaf {i : Nat} {x : Symbol} (hi : s.dnext = some i) (hcap : i ≠ s.par.decNodeCap)
    (hx : addLeaf x s = .next t) : t.allFit := by
  obtain ⟨j, a, hj, ha, -, hend⟩ := addLeaf_eq_next.mp hx
  obtain rfl : i = j := Option.some.inj (hi.symm.trans hj)
  obtain ⟨hlt, hfit⟩ := allFit_allocate h hi hcap ha
  have hpar : a.par = s.par := (attach_sameBut ha).sameOutside.par_eq
  have hdnode := fits_modify hfit (i := i) (f := fun _ => DNode.ofLeaf x) fun _ _ =>
    ⟨holdsOnly_none rfl, holdsOnly_none rfl⟩
  obtain ⟨-, rfl⟩ | ⟨n, -, rfl⟩ := headerEnd_eq_next.mp hend
  · refine allFit_of_sameBut (W := [.cur]) (hdnode.withPhase .dDec) rfl (List.forall_mem_singleton.mpr (holdsOnly_some ?_))
    exact Nat.zero_lt_of_lt (hpar ▸ hlt)
  · exact hdnode.withPhase .dHdr

end

end Sys2Proof.Machine
end

section
/-! SUPPORT. Every step keeps the invariant (R22 to R24, R26 to R41, R142, R152). -/

namespace Sys2Proof.Machine

section
variable {s t : State} {ph : Phase}

/-! ## Sizes and widths -/

theorem allFit_finish (s : State) : (finish s).allFit := fun r =>
  (allFit_dropTables (closeOut s) r).of_sameIn (by cases r <;> rfl) rfl

theorem allFit_abort (e : ErrCode) (s : State) : (abort e s).allFit := fun r =>
  (allFit_dropTables (closeOut s) r).of_sameIn (by cases r <;> rfl) rfl

theorem allFit_hardReset (s : State) : (hardReset s).allFit := fun r =>
  (allFit_dropTables s r).of_sameIn (by cases r <;> rfl) rfl

theorem State.allFit.moved (h : s.allFit) (l : List Transaction) : (Machine.moved l s).allFit := fun r =>
  (h r).of_sameIn (by cases r <;> rfl) rfl

theorem State.allFit.readOn (h : s.allFit) (n : Nat) (l : List Transaction) : (Machine.readOn n l s).allFit := fun r =>
  (h r).of_sameIn (by cases r <;> rfl) rfl

theorem allFit_hdStep (h : s.allFit) (hx : exec .hdStep s = .next t) : t.allFit := by
  obtain ⟨-, rfl⟩ | ⟨b, i, -, hi, ⟨-, rfl⟩ | ⟨hcap, ⟨-, -, rfl⟩ | ⟨-, -, x, hadd⟩ | ⟨-, hadd⟩⟩⟩ := exec_hdStep_cases hx
  · exact allFit_abort _ _
  · exact allFit_abort _ _
  · exact allFit_abort _ _
  · exact allFit_addLeaf (h.readOn _ _) hi hcap hadd
  · exact allFit_addInternal (h.readOn _ _) hi hcap hadd

/-- DE_STEP leaves CUR at the root, where it was, or at a child of a record. -/
theorem fits_deStep (h : s.allFit) (hp : s.par.wellFormed = true) (hx : exec .deStep s = .next t) : t.fits .cur := by
  obtain rfl | ⟨-, b, u, hdown, htest⟩ := exec_deStep_cases hx
  · exact allFit_abort _ _ .cur
  have hu : u.fits .cur ∧ u.par = s.par := by
    obtain rfl | ⟨i, n, c, hn, hc, rfl⟩ := walkDown_cases hdown
    · exact ⟨h .cur, rfl⟩
    · obtain ⟨hl, hr⟩ := (h .dnode).2 i n hn
      exact ⟨holdsOnly_some (hc.elim (hl c) (hr c)), rfl⟩
  obtain ⟨hcur, hpar⟩ := hu
  obtain rfl | rfl | rfl | ⟨v, rfl⟩ := leafTest_cases htest
  · exact hcur
  · exact allFit_abort _ _ .cur
  · exact hcur
  · obtain ⟨-, hcap, -⟩ := wellFormed_iff.mp hp
    exact holdsOnly_some (hpar ▸ Nat.zero_lt_of_lt hcap)

/-- Where an operation's own tables fit, all tables fit after it. -/
theorem OpResult.allFit (hop : OpResult ph s t) (h : s.allFit) (hW : ∀ r ∈ written ph, t.fits r) : t.allFit := by
  cases hop with
  | goesOn l hl hph hsame => exact allFit_of_sameBut ((h.moved l).withPhase t.phase) hsame hW
  | done l hl hph ht => exact ht ▸ allFit_finish _
  | error l e hl he ht => exact ht ▸ allFit_abort _ _

theorem fits_written {c : Cond} {i : Instr} (hdec : decodePhase ph c = .ok i) (hx : exec i s = .next t) (h : s.allFit)
    (hp : s.par.wellFormed = true) : ∀ r ∈ written ph, t.fits r := by
  obtain ⟨hweight, -, -⟩ := wellFormed_iff.mp hp
  cases ph <;> cases c <;> cases hdec <;> simp only [written, List.forall_mem_cons, List.not_mem_nil, false_imp_iff,
    implies_true, and_true]
  case cClear.always.refl =>
    rw [exec_fcClear] at hx
    cases hx
    exact holdsOnly_some (by rw [freqTotal_freqTable]; exact Nat.one_lt_two_pow hweight.ne')
  case cCount.byte.refl => exact fits_fcAcc hx
  case cCount.eos.refl => cases hx; exact h .freq
  case cTbinit.always.refl =>
    obtain ⟨hnode, hnext⟩ := fits_tbInit h hx
    exact ⟨hnode, trivial, hnext⟩
  case cMerge.many.refl =>
    obtain ⟨hnode, hnext, hroot⟩ := fits_tbMerge h hx
    exact ⟨hnode, trivial, hnext, hroot⟩
  case cMerge.one.refl =>
    obtain ⟨hnode, hnext, hroot⟩ := fits_tbRoot h hx
    exact ⟨hnode, trivial, hnext, hroot⟩
  case cCginit.always.refl =>
    obtain ⟨hlen, hstack, hsp⟩ := fits_cgInit h hx
    exact ⟨hlen, trivial, hstack, hsp⟩
  case cCgen.always.refl =>
    obtain ⟨hlen, hstack, hsp⟩ := fits_cgStep h hx
    exact ⟨hlen, trivial, hstack, hsp, trivial⟩
  case cHsinit.always.refl => exact fits_hsStart h hx
  case cHdr.always.refl => exact fits_hsStep h hx
  case dHdinit.always.refl =>
    cases hx
    exact ⟨holdsOnly_some (Nat.zero_le _), holdsOnly_some (Nat.zero_le _)⟩
  case dHdr.always.refl =>
    have hall := allFit_hdStep h hx
    exact ⟨hall .dnode, hall .dnext, hall .dstack, hall .dsp, hall .cur⟩
  case dDec.always.refl => exact fits_deStep h hp hx

/-! ## The walks (R142, R152) -/

/-- An operation that leaves the core in one of the walks leaves something on the stack. -/
theorem walking_of_decodePhase {c : Cond} {i : Instr} (hdec : decodePhase ph c = .ok i) (hx : exec i s = .next t) :
    t.walking := by
  have hop := opResult_of_decodePhase hdec hx
  intro hphase
  have hnext : t.phase ∈ nextPhases ph := by
    cases hop with
    | goesOn l hl hph hsame => exact hph
    | done l hl hph ht => subst ht; simp at hphase
    | error l e hl he ht => subst ht; simp at hphase
  have hfour : ph = .cCginit ∨ ph = .cCgen ∨ ph = .cHsinit ∨ ph = .cHdr := by
    have hall : ∀ q ∈ nextPhases ph, (q = .cCgen ∨ q = .cHdr) →
        ph = .cCginit ∨ ph = .cCgen ∨ ph = .cHsinit ∨ ph = .cHdr := by
      cases ph <;> decide
    exact hall _ hnext hphase
  obtain rfl | rfl | rfl | rfl := hfour <;> cases c <;> cases hdec
  · obtain ⟨_, _, -, -, ⟨_, _, -, rfl⟩ | ⟨_, _, _, -, rfl⟩⟩ := exec_cgInit_cases hx
    · simp at hphase
    · exact ⟨1, rfl⟩
  · obtain ⟨k, _, _, _, _, -, -, -, -, ⟨_, _, _, -, rfl⟩ | ⟨_, _, _, -, -, rfl⟩⟩ := exec_cgStep_cases hx
    · cases k with
      | zero => simp at hphase
      | succ k => exact ⟨k, rfl⟩
    · exact ⟨k + 1, rfl⟩
  · obtain ⟨_, -, rfl⟩ := exec_hsStart_cases hx
    exact ⟨0, rfl⟩
  · obtain ⟨k, _, _, -, -, -, ⟨_, _, -, rfl⟩ | ⟨_, _, _, -, -, rfl⟩⟩ := exec_hsStep_cases hx
    · cases k with
      | zero => simp at hphase
      | succ k => exact ⟨k, rfl⟩
    · exact ⟨k + 1, rfl⟩

/-! ## Lifetimes (R40, R41) -/

theorem inv_of_goesOn {l : List Transaction} (hs : s.Inv) (hst : s.st = .busy) (hl : Issues (expire s) l)
    (hph : t.phase ∈ nextPhases s.phase) (hsame : t.sameBut (written s.phase) { moved l (expire s) with phase := t.phase })
    (hfit : t.allFit) (hwalk : t.walking) : t.Inv := by
  have hout := hsame.sameOutside
  obtain ⟨hcompression, hdecompression, hdnode, hdstack⟩ := allFit_iff.mp hfit
  have hbusy : t.st = .busy := hout.st_eq.trans hst
  have hnotIdle : t.phase ≠ .pIdle := by
    intro hidle
    have hall : ∀ p, Phase.pIdle ∉ nextPhases p := by
      intro p
      cases p <;> decide
    exact hall _ (hidle ▸ hph)
  exact {
    params := by rw [hout.par_eq]; exact hs.params
    coherent := ⟨⟨fun h => absurd h hnotIdle, fun h => absurd hbusy h⟩, by
      rw [hout.err_eq, hout.st_eq]
      exact hs.coherent.2⟩
    lifetimes := fun r hr => holdsNone_of_goesOn (fun hlive => hr _ hlive hph) hsame
    sized := ⟨hdnode, hdstack, by
      rw [hout.rp_eq, hout.inBits_eq]
      exact hl.inside hs.sized.2.2⟩
    compressionFits := hcompression
    decompressionFits := hdecompression
    walking := hwalk }

theorem State.Inv.allFit (hs : s.Inv) : s.allFit :=
  allFit_iff.mpr ⟨hs.compressionFits, hs.decompressionFits, hs.sized.1, hs.sized.2.1⟩

/-- A core between commands holds nothing in its tables. -/
theorem State.Inv.tablesEmpty (hs : s.Inv) (hst : s.st ≠ .busy) :
    s.phase = .pIdle ∧ s.compressionEmpty ∧ s.decompressionEmpty := by
  have hph := hs.coherent.1.mpr hst
  exact ⟨hph, compressionEmpty_of_lifetimes hs.lifetimes (by rw [hph]; rfl),
    decompressionEmpty_of_lifetimes hs.lifetimes (by rw [hph]; rfl)⟩

theorem inv_of_finish (hp : s.par.wellFormed = true) (herr : s.err = .none) (hrp : s.rp ≤ s.inBits.length) :
    (finish s).Inv :=
  inv_of_empty (by rw [finish_par]; exact hp) ⟨by simp, by simp [herr]⟩ (finish_phase s)
    (dropTables_compressionEmpty (closeOut s)) (dropTables_decompressionEmpty (closeOut s)) (by simpa using hrp)

theorem inv_of_abort {e : ErrCode} (hp : s.par.wellFormed = true) (he : e ≠ .none) (hrp : s.rp ≤ s.inBits.length) :
    (abort e s).Inv :=
  inv_of_empty (by rw [abort_par]; exact hp) ⟨by simp, by simp [he]⟩ (abort_phase ..)
    (dropTables_compressionEmpty (closeOut s)) (dropTables_decompressionEmpty (closeOut s)) (by simpa using hrp)

theorem inv_hardReset (hs : s.Inv) : (hardReset s).Inv :=
  inv_of_empty (by rw [hardReset_par]; exact hs.params) ⟨by simp, by simp⟩ (hardReset_phase s)
    (dropTables_compressionEmpty s) (dropTables_decompressionEmpty s) (by simpa using hs.sized.2.2)

/-- Acceptance starts a command on empty tables. -/
theorem inv_accepted {first : Phase} (hs : s.Inv) (hst : s.st ≠ .busy) (hfirst : first = .cClear ∨ first = .dMagic) :
    (accepted first s).Inv := by
  obtain ⟨-, hc, hd⟩ := hs.tablesEmpty hst
  have hne : first ≠ .pIdle := by obtain rfl | rfl := hfirst <;> decide
  exact {
    params := hs.params
    coherent := ⟨⟨fun h => absurd h hne, fun h => absurd rfl h⟩, ⟨fun _ => nofun, fun _ => rfl⟩⟩
    lifetimes := fun r _ => holdsNone_of_empty hc hd r
    sized := hs.sized
    compressionFits := hs.compressionFits
    decompressionFits := hs.decompressionFits
    walking := by
      rintro (h | h)
      · obtain rfl | rfl := hfirst <;> cases h
      · obtain rfl | rfl := hfirst <;> cases h }

/-- Every step of a BUSY core keeps the invariant. -/
theorem inv_step_busy (hs : s.Inv) (hst : s.st = .busy) (h : step s = .next t) : t.Inv := by
  obtain ⟨rfl, -⟩ | ⟨c, i, l, hdec, hl, hx⟩ := step_busy_exec hst h
  · exact hs
  have hfit := (allFit_expire hs.allFit).moved l
  have herr : s.err = .none := hs.coherent.2.mpr (by rw [hst]; nofun)
  have hrp : s.rp ≤ s.inBits.length := hs.sized.2.2
  have hresult := opResult_of_decodePhase hdec hx
  have hall := hresult.allFit hfit (fits_written hdec hx hfit hs.params)
  have hop : OpResult s.phase (expire s) t := hresult.after hl
  cases hop with
  | goesOn l hl hph hsame => exact inv_of_goesOn hs hst hl hph hsame hall (walking_of_decodePhase hdec hx)
  | done l hl hph ht => exact ht ▸ inv_of_finish hs.params herr (hl.inside hrp)
  | error l e hl he ht =>
    have hne : e ≠ .none := by
      rintro rfl
      have hnone : ∀ p, ErrCode.none ∉ phaseErrors p := by
        intro p
        cases p <;> decide
      exact hnone _ he
    exact ht ▸ inv_of_abort hs.params hne (hl.inside hrp)

end

/-- Settles O53: by the outcomes of a step; what the unit operations write fits, and what is outside its lifetime is gone. -/
theorem everyStepKeepsTheInvariant : Obligations.EveryStepKeepsTheInvariant := by
  intro s t hs h
  by_cases hst : s.st = .busy
  · exact inv_step_busy hs hst h
  obtain ⟨u, hu, hcases⟩ := step_idle_cases hst
  obtain rfl : t = u := Host.Outcome.next.inj (h.symm.trans hu)
  obtain ⟨-, rfl⟩ | ⟨-, -, rfl⟩ | ⟨-, rfl⟩ | ⟨-, first, hfirst, rfl⟩ := hcases
  · exact inv_hardReset hs
  · exact hs
  · exact ⟨hs.params, hs.coherent, hs.lifetimes, hs.sized, hs.compressionFits, hs.decompressionFits, hs.walking⟩
  · exact inv_accepted hs hst hfirst

/-- Settles O54. -/
theorem invariantHoldsAfterReset : Obligations.InvariantHoldsAfterReset := fun p hp =>
  inv_of_empty hp ⟨by simp [State.resetWith], by simp [State.resetWith]⟩ rfl
    ⟨rfl, rfl, rfl, rfl, rfl, rfl, rfl, rfl, rfl, rfl⟩ ⟨rfl, rfl, rfl, rfl, rfl⟩ (Nat.zero_le _)

end Sys2Proof.Machine
end

section
/-! SUPPORT. Runs that never fault (R41, R35, R37, R132): what keeps a run safe, and what every run keeps. -/

namespace Sys2Proof.Machine

/-- No number of steps from s ends in a fault, or in a refusal other than that of an over-long input. -/
def State.safe (s : State) : Prop := ∀ k, (∃ t, run k s = .next t) ∨ run k s = .refused .inputTooLong

section
variable {s t : State}

theorem safe_of_step (h : step s = .next t) (ht : t.safe) : s.safe := by
  intro k
  cases k with
  | zero => exact .inl ⟨s, rfl⟩
  | succ k =>
    rw [run_succ_of_step h]
    exact ht k

theorem safe_of_refused (h : step s = .refused .inputTooLong) : s.safe := by
  intro k
  cases k with
  | zero => exact .inl ⟨s, rfl⟩
  | succ k => exact .inr (by rw [run_succ, h, chain_refused])

theorem safe_of_stuck (h : step s = .next s) : s.safe := by
  intro k
  induction k with
  | zero => exact .inl ⟨s, rfl⟩
  | succ k ih =>
    rw [run_succ_of_step h]
    exact ih

/-- The steps of a run that reaches a safe state are themselves no faults. -/
theorem State.reaches.safe (h : s.reaches t) (ht : t.safe) : s.safe := by
  obtain ⟨k, hk⟩ := h
  induction k generalizing s with
  | zero => cases hk; exact ht
  | succ k ih =>
    rw [run_succ] at hk
    obtain ⟨u, hu, hk⟩ := chain_eq_next.mp hk
    exact safe_of_step hu (ih hk)

/-- What holds at the start and is kept by every step holds wherever a run leads. -/
theorem State.reaches.keeps {P : State → Prop} (h : s.reaches t) (hstep : ∀ u v, P u → step u = .next v → P v)
    (hs : P s) : P t := by
  obtain ⟨k, hk⟩ := h
  induction k generalizing s with
  | zero => cases hk; exact hs
  | succ k ih =>
    rw [run_succ] at hk
    obtain ⟨u, hu, hk⟩ := chain_eq_next.mp hk
    exact ih (hstep s u hs hu) hk

/-- The input and the parameters stay what they are. -/
theorem State.reaches.inBits_par (h : s.reaches t) : t.inBits = s.inBits ∧ t.par = s.par := by
  refine h.keeps (P := fun u => u.inBits = s.inBits ∧ u.par = s.par) (fun u v ⟨hin, hpar⟩ hv => ?_) ⟨rfl, rfl⟩
  obtain ⟨_, -, -, -, hin', hpar'⟩ := transactionsExplainTheStreams u v hv
  exact ⟨hin'.trans hin, hpar'.trans hpar⟩

theorem State.reaches.inv (h : s.reaches t) (hs : s.Inv) : t.Inv := h.keeps everyStepKeepsTheInvariant hs

/-! ## Between commands -/

/-- A step does not put a command on the port. -/
theorem cmdValid_step (hs : s.cmdValid = false) (h : step s = .next t) : t.cmdValid = false := by
  by_cases hst : s.st = .busy
  · obtain ⟨-, hport⟩ := acceptanceStartsTheCommand
    exact (hport s t hst h).1.trans hs
  obtain ⟨u, hu, hcases⟩ := step_idle_cases hst
  obtain rfl : t = u := Host.Outcome.next.inj (h.symm.trans hu)
  obtain ⟨-, rfl⟩ | ⟨-, -, rfl⟩ | ⟨-, rfl⟩ | ⟨-, first, -, rfl⟩ := hcases
  · exact (hardReset_cmdValid s).trans hs
  · exact hs
  · rfl
  · rfl

theorem State.reaches.cmdValid (h : s.reaches t) (hs : s.cmdValid = false) : t.cmdValid = false :=
  h.keeps (P := (·.cmdValid = false)) (fun _ _ => cmdValid_step) hs

theorem safe_of_waiting (hst : s.st ≠ .busy) (hvalid : s.cmdValid = false) : s.safe := by
  by_cases hrst : s.rst = true
  · refine safe_of_step (step_of_reset hrst hst) (safe_of_stuck (step_of_waiting (hardReset_rst s) ?_ ?_))
    · rw [hardReset_st]; nofun
    · rw [hardReset_cmdValid, hvalid]
  · exact safe_of_stuck (step_of_waiting (Bool.not_eq_true _ ▸ hrst) hst hvalid)

/-- A run that brings the command to its end is safe. -/
theorem safe_of_end (hs : s.Inv) (hvalid : s.cmdValid = false) (h : s.reaches t) (ht : t.phase = .pIdle) : s.safe :=
  h.safe (safe_of_waiting ((h.inv hs).coherent.1.mp ht) (h.cmdValid hvalid))

end

end Sys2Proof.Machine
end

section
/-! SUPPORT. COMPRESS from any core between commands: whatever the host bound, the run ends, waits, or is refused for an
over-long input (R41, U8, U11). -/

namespace Sys2Proof.Machine

/-! ## Codes for all bytes (R34, R141) -/

/-- EN_SYM and EN_TERM find what they read: a byte has a code or the length 0, the terminator has a code. -/
structure State.encodes (s : State) : Prop where
  byte : ∀ b : Byte, s.codeLen[b.toNat]? = some (some 0) ∨ ∃ c, s.hasCode (zext9 b) c
  terminator : ∃ c, s.hasCode 256#9 c

/-- The phases from the first after CG_STEP to the last that reads the codes. -/
def coding : List Phase := [.cMagic, .cHsinit, .cHdr, .cRewind, .cEnc]

/-- The core t still has the codes of s, or is past their last use. -/
def State.codesSince (t s : State) : Prop :=
  (t.phase ∈ coding ∧ t.codeLen = s.codeLen ∧ t.codeBits = s.codeBits) ∨ t.phase = .cClose ∨ t.phase = .pIdle

section
variable {s t u : State} {p : Params} {input out : Bits} {X : List Byte} {T : Tree} {i n : Nat}

theorem State.encodes.congr (h : s.encodes) (hl : t.codeLen = s.codeLen) (hb : t.codeBits = s.codeBits) : t.encodes where
  byte b := by
    rw [hl]
    exact (h.byte b).imp_right fun ⟨c, hc⟩ => ⟨c, hc.congr hl hb⟩
  terminator := by
    obtain ⟨c, hc⟩ := h.terminator
    exact ⟨c, hc.congr hl hb⟩

theorem codeOf_of_not_mem {x : Symbol} (hx : x ∉ T.symbols) : codeOf T x = [] := by
  have hnone : (codes T).lookup x = none := by
    rw [List.lookup_eq_none_iff]
    intro y hy
    rw [bne_iff_ne]
    rintro rfl
    rw [← map_fst_codes] at hx
    exact hx (List.mem_map_of_mem hy)
  rw [codeOf, hnone, Option.getD_none]

/-- The code table of a tree with the terminator serves every byte (R140, R141). -/
theorem encodes_of_codes (hd : T.depth ≤ 256) (hterm : 256#9 ∈ T.symbols)
    (hlen : ∀ x : Symbol, x.toNat ≤ 256 → s.codeLen[x.toNat]? = some (some (codeOf T x).length))
    (hbits : ∀ x ∈ T.symbols, s.codeBits[x.toNat]? = some (some (codeOf T x))) : s.encodes := by
  have hcode {x : Symbol} (hx : x ∈ T.symbols) (hle : x.toNat ≤ 256) : s.hasCode x (codeOf T x) := by
    obtain ⟨hpos, hmax⟩ := length_codeOf hd hx
    exact ⟨hlen x hle, hbits x hx, hpos, hmax⟩
  refine ⟨fun b => ?_, _, hcode hterm (by decide)⟩
  have hle : (zext9 b).toNat ≤ 256 := by
    rw [toNat_zext9]
    exact b.isLt.le
  by_cases hb : zext9 b ∈ T.symbols
  · exact .inr ⟨_, hcode hb hle⟩
  · have hzero := hlen _ hle
    rw [codeOf_of_not_mem hb, toNat_zext9] at hzero
    exact .inl hzero

/-- No step between the CodeTableGenerator and the second pass writes the codes (R78). -/
theorem codesSince_step (ht : t.Inv) (hvalid : t.cmdValid = false) (h : t.codesSince s) (hstep : step t = .next u) :
    u.codesSince s := by
  have hu := everyStepKeepsTheInvariant t u ht hstep
  have hbusy (hne : t.phase ≠ .pIdle) : t.st = .busy := not_not.mp fun hst => hne (ht.coherent.1.mpr hst)
  obtain ⟨hph, hlen, hbits⟩ | hclose | hidle := h
  · have hst := hbusy fun hidle => by rw [hidle] at hph; exact absurd hph (by decide)
    by_cases hst' : u.st = .busy
    · obtain ⟨rfl, -⟩ | hnext := phaseFollowsTheFlow t u hst hstep hst'
      · exact .inl ⟨hph, hlen, hbits⟩
      obtain ⟨rfl, -⟩ | ⟨-, -, -, -, -, hkept, -⟩ := tablesAreFixedOnceBuilt t u hst hstep hst'
      · exact .inl ⟨hph, hlen, hbits⟩
      obtain ⟨hlen', hbits'⟩ := hkept hph
      have hflow : ∀ q ∈ coding, ∀ r ∈ nextPhases q, r ∈ coding ∨ r = .cClose := by decide
      obtain hcoding | hclose := hflow _ hph _ hnext
      · exact .inl ⟨hcoding, hlen'.trans hlen, hbits'.trans hbits⟩
      · exact .inr (.inl hclose)
    · exact .inr (.inr (hu.coherent.1.mpr hst'))
  · have hst := hbusy fun hidle => by rw [hclose] at hidle; cases hidle
    by_cases hst' : u.st = .busy
    · obtain ⟨rfl, -⟩ | hnext := phaseFollowsTheFlow t u hst hstep hst'
      · exact .inr (.inl hclose)
      · rw [hclose] at hnext
        cases hnext
    · exact .inr (.inr (hu.coherent.1.mpr hst'))
  · refine .inr (.inr (hu.coherent.1.mpr ?_))
    have hst := ht.coherent.1.mp hidle
    by_cases hrst : t.rst = true
    · obtain rfl := Host.Outcome.next.inj ((step_of_reset hrst hst).symm.trans hstep)
      rw [hardReset_st]
      nofun
    · obtain rfl := Host.Outcome.next.inj ((step_of_waiting (Bool.not_eq_true _ ▸ hrst) hst hvalid).symm.trans hstep)
      exact hst

/-- The second pass finds the codes that the CodeTableGenerator left. -/
theorem encodes_of_reaches (hs : s.Inv) (hvalid : s.cmdValid = false) (hph : s.phase ∈ coding) (hcodes : s.encodes)
    (h : s.reaches t) (ht : t.phase = .cEnc) : t.encodes := by
  have hkeeps : t.Inv ∧ t.cmdValid = false ∧ t.codesSince s :=
    h.keeps (P := fun u => u.Inv ∧ u.cmdValid = false ∧ u.codesSince s) (fun u v ⟨hu, hport, hsince⟩ hv =>
      ⟨everyStepKeepsTheInvariant u v hu hv, cmdValid_step hport hv, codesSince_step hu hport hsince hv⟩)
      ⟨hs, hvalid, .inl ⟨hph, rfl, rfl⟩⟩
  obtain ⟨-, -, ⟨-, hlen, hbits⟩ | hclose | hidle⟩ := hkeeps
  · exact hcodes.congr hlen hbits
  · rw [ht] at hclose; cases hclose
  · rw [ht] at hidle; cases hidle

/-! ## The second pass over any input -/

/-- A byte whose code has length 0 ends the command (R168). -/
theorem step_of_noCode {b : Byte} (h : s.inCommand .cEnc) (hin : (s.inBits.drop s.rp).take 8 = bin 8 b.toNat)
    (hb : s.codeLen[b.toNat]? = some (some 0)) : ∃ t, step s = .next t ∧ t.phase = .pIdle := by
  have hlen : (expire s).codeLen = s.codeLen := keep_of_mem (by rw [h.inPhase]; decide)
  have hstep := (step_of_byte h (.inr rfl) hin rfl).trans
    (exec_enSym_of_noCode (s := { expire s with rp := s.rp + 8, trace := s.trace ++ [.read 8 (some b.toNat)] }) (hlen ▸ hb))
  exact ⟨_, hstep, abort_phase ..⟩

/-- The step of C_ENC that finds the end of the input leads to the end of the command (R169, R170). -/
theorem exists_end_of_terminator (hs : s.inFlight p input .cEnc out) (h : s.encodes) (hlen : input.length < s.rp + 8) :
    ∃ t, s.reaches t ∧ t.phase = .pIdle := by
  obtain ⟨c, hc⟩ := h.terminator
  have hstep := step_encodes_terminator hs.command hs.isOpen hc (hs.input ▸ hlen)
  obtain ⟨t, hrun, -, -, hph, -⟩ := reaches_done (hs.writes (t := { expire s with
    outBits := s.outBits ++ c
    trace := s.trace ++ [.read 8 none] ++ [codeWrite c]
    phase := .cClose }) rfl)
  exact ⟨t, (State.reaches_of_step hstep).trans hrun, hph⟩

/-- The second pass ends the command, whatever bits the input holds (R165, R168). -/
theorem exists_end_of_encodes (hs : s.inFlight p input .cEnc out) (h : s.encodes) (hn : input.length < s.rp + n) :
    ∃ t, s.reaches t ∧ t.phase = .pIdle := by
  induction n generalizing s out with
  | zero => exact exists_end_of_terminator hs h (by omega)
  | succ n ih =>
    by_cases hlen : input.length < s.rp + 8
    · exact exists_end_of_terminator hs h hlen
    obtain ⟨b, hb⟩ := exists_word (n := 8) (u := s.inBits.drop s.rp) (by rw [List.length_drop, hs.input]; omega)
    obtain hzero | ⟨c, hc⟩ := h.byte b
    · obtain ⟨t, hstep, hph⟩ := step_of_noCode hs.command hb hzero
      exact ⟨t, State.reaches_of_step hstep, hph⟩
    · have hstep := step_encodes_byte hs.command hs.isOpen hc hb
      have hcodes : (encoded b c s).encodes := h.congr
        (show (expire s).codeLen = s.codeLen from keep_of_mem (by rw [hs.command.inPhase]; decide))
        (show (expire s).codeBits = s.codeBits from keep_of_mem (by rw [hs.command.inPhase]; decide))
      obtain ⟨t, hrun, hph⟩ := ih (s := encoded b c s) (hs.writes rfl) hcodes (show input.length < s.rp + 8 + n by omega)
      exact ⟨t, (State.reaches_of_step hstep).trans hrun, hph⟩

/-! ## From the counts to the end -/

/-- The CodeTableGenerator leaves a table that serves every byte, whether the tree has it or not (R140, R141). -/
theorem reaches_codeTable (hs : s.inFlight p input .cCginit out) (hroot : s.root = some i) (htree : s.tree i = some T)
    (hT : TreeFor X T) :
    ∃ t, s.reaches t ∧ t.inFlight p input .cMagic out ∧ t.holdsCodes T ∧ t.root = some i ∧ t.tree i = some T ∧
      t.encodes := by
  obtain ⟨t, hrun, -, hlen, hbits, hnode, hroot', -⟩ :=
    codeTableIsCodesOfTheTree s i T hs.command hroot htree hT.nodup hT.toNat_le hT.depth
  obtain ⟨u, hrun', hu⟩ := run_writes_codes hs.command hroot (stored_of_treeOf htree) hT.toNat_le hT.depth
  obtain rfl : t = u := Host.Outcome.next.inj (hrun.symm.trans hrun')
  refine ⟨t, ⟨_, hrun⟩, hs.goesOn (hu.outside.of_withPhase hu.phase), fun x hx => ⟨hlen x (hT.toNat_le x hx), hbits x hx⟩,
    hroot'.trans hroot, ?_, encodes_of_codes hT.depth hT.terminator_mem hlen hbits⟩
  rw [State.tree, hnode]
  exact htree

/-- From the code table on, COMPRESS ends. -/
theorem exists_end_of_codes (hs : s.inFlight p input .cCginit out) (hinv : s.Inv) (hvalid : s.cmdValid = false)
    (hroot : s.root = some i) (htree : s.tree i = some T) (hT : TreeFor X T) : ∃ t, s.reaches t ∧ t.phase = .pIdle := by
  obtain ⟨t, hrun, ht, hcodes, hroot', htree', hencodes⟩ := reaches_codeTable hs hroot htree hT
  obtain ⟨t₁, hrun₁, ht₁, hcodes₁, hroot₁, htree₁, -⟩ := reaches_magic ht hcodes hroot' htree'
  obtain ⟨t₂, hrun₂, ht₂, hcodes₂, -⟩ := reaches_header ht₁ hcodes₁ hroot₁ htree₁ hT.depth
  obtain ⟨t₃, hrun₃, ht₃, -, -⟩ := reaches_rewind ht₂ hcodes₂
  have hlive : t₃.encodes := encodes_of_reaches (hrun.inv hinv) (hrun.cmdValid hvalid)
    (by rw [ht.command.inPhase]; decide) hencodes (hrun₁.trans (hrun₂.trans hrun₃)) ht₃.command.inPhase
  obtain ⟨u, hrun₄, hph⟩ := exists_end_of_encodes (n := input.length + 1) ht₃ hlive (by omega)
  exact ⟨u, hrun.trans (hrun₁.trans (hrun₂.trans (hrun₃.trans hrun₄))), hph⟩

/-- From any counts of bytes COMPRESS ends. -/
theorem exists_end_of_counts (hs : s.inFlight p input .cTbinit out) (hinv : s.Inv) (hvalid : s.cmdValid = false)
    (hf : s.freq = some (freqTable X)) : ∃ t, s.reaches t ∧ t.phase = .pIdle := by
  have hp := hs.par ▸ hinv.params
  have hlen : X.length ≤ p.lenMax := by
    obtain ⟨hfit, -⟩ := hinv.compressionFits
    have hlt : freqTotal (freqTable X) < 2 ^ s.par.weightW := hfit _ hf
    rw [freqTotal_freqTable, hs.par] at hlt
    unfold Params.lenMax
    omega
  obtain ⟨t, i, T, hrun, ht, hbuild, hroot, htree, -⟩ := reaches_tree hs hf hlen hp
  obtain ⟨u, hrun', hph⟩ := exists_end_of_codes ht (hrun.inv hinv) (hrun.cmdValid hvalid) hroot htree (treeFor_of_build hbuild)
  exact ⟨u, hrun.trans hrun', hph⟩

/-- FC_ACC on a table whose sum is at its limit is refused (U8). -/
theorem exec_fcAcc_of_full {r : Byte} {f : Vector Nat 257} (hf : s.freq = some f)
    (hfull : 2 ^ s.par.weightW ≤ freqTotal f + 1) : exec (.fcAcc r) s = .refused .inputTooLong := by
  show execFcAcc r s = _
  rw [execFcAcc, hf, need_some, chain_next, if_neg (Nat.not_lt.mpr hfull)]

/-- The step of C_COUNT that finds the end of the input leads to the end of the command (R123). -/
theorem safe_of_countingEnd (hs : s.inFlight p input .cCount out) (hinv : s.Inv) (hvalid : s.cmdValid = false)
    (hf : s.freq = some (freqTable X)) (hlen : input.length < s.rp + 8) : s.safe := by
  have hstep := step_ends_pass hs.command (hs.input ▸ hlen)
  obtain ⟨t, hrun, hph⟩ := exists_end_of_counts
    (s := { expire s with phase := .cTbinit, trace := s.trace ++ [.read 8 none] }) (hs.goesOn rfl) (everyStepKeepsTheInvariant _ _ hinv hstep) (cmdValid_step hvalid hstep)
    ((expire_freq_of_cCount hs.command.inPhase).trans hf)
  exact safe_of_end hinv hvalid ((State.reaches_of_step hstep).trans hrun) hph

/-- The first pass ends with counts, or is refused at a byte that is one too many (R122, U8). -/
theorem safe_of_counting (hs : s.inFlight p input .cCount out) (hinv : s.Inv) (hvalid : s.cmdValid = false)
    (hf : s.freq = some (freqTable X)) (hn : input.length < s.rp + n) : s.safe := by
  induction n generalizing s X with
  | zero => exact safe_of_countingEnd hs hinv hvalid hf (by omega)
  | succ n ih =>
    by_cases hlen : input.length < s.rp + 8
    · exact safe_of_countingEnd hs hinv hvalid hf hlen
    obtain ⟨b, hb⟩ := exists_word (n := 8) (u := s.inBits.drop s.rp) (by rw [List.length_drop, hs.input]; omega)
    by_cases hmax : X.length + 1 ≤ s.par.lenMax
    · have hstep := step_counts_byte hs.command hf hb hmax
      exact safe_of_step hstep (ih (s := counted X b s) (hs.goesOn rfl) (everyStepKeepsTheInvariant _ _ hinv hstep)
        (cmdValid_step hvalid hstep) rfl (show input.length < s.rp + 8 + n by omega))
    · refine safe_of_refused ((step_of_byte hs.command (.inl rfl) hb rfl).trans
        (exec_fcAcc_of_full ((expire_freq_of_cCount hs.command.inPhase).trans hf) ?_))
      show 2 ^ s.par.weightW ≤ _
      rw [freqTotal_freqTable]
      unfold Params.lenMax at hmax
      omega

/-- An accepted COMPRESS is safe. -/
theorem safe_of_cClear (hs : s.inFlight p input .cClear out) (hinv : s.Inv) (hvalid : s.cmdValid = false) : s.safe := by
  have hstep : step s = .next { expire s with freq := some (freqTable []), phase := .cCount } := by
    rw [step_of_always hs.command (by decide) rfl, exec_fcClear]
  exact safe_of_step hstep (safe_of_counting (s := { expire s with freq := some (freqTable []), phase := .cCount })
    (n := input.length + 1) (hs.goesOn rfl) (everyStepKeepsTheInvariant _ _ hinv hstep) (cmdValid_step hvalid hstep) rfl
    (by omega))

end

end Sys2Proof.Machine
end

section
/-! SUPPORT. DECOMPRESS from any core between commands, and the safety of all runs (R41, R198). -/

namespace Sys2Proof.Machine

section
variable {s t : State} {p : Params} {input out : Bits} {T : Tree}

/-- A result says that the command has ended. -/
theorem State.ends.exists_end {r : RunResult} (h : s.ends r) : ∃ t, s.reaches t ∧ t.phase = .pIdle := by
  obtain ⟨t, hrun, -, -, hph⟩ := h
  exact ⟨t, hrun, hph⟩

theorem unread_drop {s : State} (hrp : s.rp ≤ input.length) :
    Unread input s.rp (input.drop s.rp) :=
  ⟨input.take s.rp, (List.take_append_drop ..).symm, (List.length_take_of_le hrp).symm⟩

/-- From the header on, DECOMPRESS ends (R156, R178). -/
theorem exists_end_of_header (hs : s.inFlight p input .dHdinit out) (hrp : s.rp ≤ input.length)
    (hdnode : s.dnode.length = p.decNodeCap) (hdstack : s.dstack.length = p.decNodeCap) :
    ∃ t, s.reaches t ∧ t.phase = .pIdle := by
  obtain ⟨t, hrun, ht⟩ := reaches_inHeader hs (unread_drop hrp) hdnode hdstack
  have hscan := headerEnds_scanHeader ht (Nat.lt_succ_self _)
  cases he : scanHeader p.decNodeCap ((input.drop s.rp).length + 1) [Hole.root].length 0 (input.drop s.rp) with
  | malformed rest =>
    rw [he] at hscan
    exact (hrun.ends hscan).exists_end
  | capacity rest =>
    rw [he] at hscan
    exact (hrun.ends hscan).exists_end
  | complete n rest =>
    rw [he] at hscan
    obtain ⟨t', n', v, hrun', ht', -, hr⟩ := hscan
    obtain ⟨T, -, -, hends⟩ := exists_tree_of_rebuilds ht' hr
    exact (hrun.ends (hrun'.ends hends)).exists_end

/-- An accepted DECOMPRESS ends, wherever its input is read from. -/
theorem exists_end_of_dMagic (hs : s.inFlight p input .dMagic out) : ∃ t, s.reaches t ∧ t.phase = .pIdle := by
  by_cases hlen : s.inBits.length < s.rp + 32
  · have hstep := (step_deMagic hs).trans (exec_deMagic_of_end (s := expire s) hlen)
    exact ⟨_, State.reaches_of_step hstep, abort_phase ..⟩
  obtain ⟨m, hm⟩ := exists_word (n := 32) (u := s.inBits.drop s.rp) (by rw [List.length_drop]; omega)
  have hstep := (step_deMagic hs).trans (exec_deMagic_of_take (s := expire s) hm)
  by_cases hmagic : m = (expire s).par.magic
  · rw [if_pos hmagic] at hstep
    obtain ⟨hdnode, hdstack⟩ := expire_tables_of_dMagic hs.command.inPhase
    obtain ⟨t, hrun, hph⟩ := exists_end_of_header
      (s := { readOn 32 [.read 32 (some m.toNat)] (expire s) with phase := .dHdinit }) (hs.goesOn rfl) (show s.rp + 32 ≤ input.length by rw [← hs.input]; omega) (hs.par ▸ hdnode) (hs.par ▸ hdstack)
    exact ⟨t, (State.reaches_of_step hstep).trans hrun, hph⟩
  · rw [if_neg hmagic] at hstep
    exact ⟨_, State.reaches_of_step hstep, abort_phase ..⟩

/-! ## Accepted commands -/

/-- FC_CLEAR issues no transaction, so it needs no collaborator (R256). -/
theorem step_cClear (hrst : s.rst = false) (hst : s.st = .busy) (hph : s.phase = .cClear) :
    step s = .next { expire s with freq := some (freqTable []), phase := .cCount } := by
  have hsel : select (expire s) = .next (.always, expire s) := by
    apply select_of_always <;> rw [expire_phase, hph] <;> decide
  rw [← exec_fcClear, ← runFetched_of_decodePhase (ph := .cClear) (c := .always) (expire s) rfl, ← hph, step, fetch, hsel]
  simp [hrst, hst, hph, issuesTransaction]

/-- A core that has accepted a command is safe, whether the collaborators answer or not. -/
theorem safe_of_accepted {first : Phase} (hs : s.Inv) (hst : s.st ≠ .busy) (hopen : s.closed = false) (hrst : s.rst = false)
    (hfirst : first = .cClear ∨ first = .dMagic) : (accepted first s).safe := by
  have hinv := inv_accepted hs hst hfirst
  by_cases hio : s.ioReady = true
  · have hflight : (accepted first s).inFlight s.par s.inBits first s.outBits :=
      ⟨⟨hrst, hio, rfl, rfl⟩, rfl, rfl, rfl, rfl, hopen⟩
    obtain rfl | rfl := hfirst
    · exact safe_of_cClear hflight hinv rfl
    · obtain ⟨t, hrun, hph⟩ := exists_end_of_dMagic hflight
      exact safe_of_end hinv rfl hrun hph
  · replace hio := Bool.not_eq_true _ ▸ hio
    obtain rfl | rfl := hfirst
    · refine safe_of_step (step_cClear hrst rfl rfl) (safe_of_stuck ?_)
      exact step_of_unanswered (s := { expire (accepted .cClear s) with freq := some (freqTable []), phase := .cCount })
        hrst rfl hio rfl
    · exact safe_of_stuck (step_of_unanswered hrst rfl hio rfl)

theorem safe_between_commands (hs : s.Inv) (hst : s.st ≠ .busy) (hopen : s.closed = false) (hrst : s.rst = false) :
    s.safe := by
  obtain ⟨t, hstep, ⟨hrst', -⟩ | ⟨-, hvalid, -⟩ | ⟨-, rfl⟩ | ⟨-, first, hfirst, rfl⟩⟩ := step_idle_cases hst
  · exact absurd hrst' (hrst ▸ Bool.false_ne_true)
  · exact safe_of_waiting hst hvalid
  · exact safe_of_step hstep (safe_of_waiting hst rfl)
  · exact safe_of_step hstep (safe_of_accepted hs hst hopen hrst hfirst)

end

/-- Settles O55: a core between commands resets, waits, or accepts a command, and every accepted command is safe. -/
theorem noRunEndsInAFault : Obligations.NoRunEndsInAFault := by
  intro s k hs hst hopen
  by_cases hrst : s.rst = true
  · exact safe_of_step (step_of_reset hrst hst) (safe_between_commands (inv_hardReset hs) (by rw [hardReset_st]; nofun)
      ((hardReset_closed s).trans hopen) (hardReset_rst s)) k
  · exact safe_between_commands hs hst hopen (Bool.not_eq_true _ ▸ hrst) k

end Sys2Proof.Machine
end

section
/-! SUPPORT. The StreamDecoder against the walk of the rebuilt tree (R185), and the tables a command finds (R241). -/

namespace Sys2Proof.Machine

/-- A walk leaves the end of its bits. -/
theorem rest_walkBits_suffix (D cur : Tree) (u : Bits) : (walkBits D cur u).rest <:+ u := by
  induction u generalizing cur with
  | nil => rw [walkBits_nil]
  | cons b u ih =>
    rw [walkBits_cons]
    refine List.IsSuffix.trans ?_ (List.suffix_cons b u)
    cases walkPos D cur b with
    | internal w l r => exact ih _
    | leaf x w =>
      rw [walkAt]
      split
      · exact List.suffix_rfl
      · split
        · exact List.suffix_rfl
        · exact ih D

/-- Settles O42: the decoder's run ends with the result of the walk, and no step of it changes the input. -/
theorem decoderWalksThePayload : Obligations.DecoderWalksThePayload := by
  intro s T hcmd herr hopen ⟨_, _, hrp⟩ htree hcur
  have hpayload : s.inPayload s.par s.inBits s.outBits T T (s.inBits.drop s.rp) :=
    ⟨⟨hcmd, herr, rfl, rfl, rfl, hopen⟩, unread_drop hrp, 0, hcur, cursor_root (dstored_of_dtreeOf htree)⟩
  obtain ⟨t, hrun, hresult, hclosed, hph⟩ := ends_walkBits hpayload
  obtain ⟨hin, -⟩ := hrun.inBits_par
  obtain ⟨k, hk⟩ := hrun
  have hout : t.outBits = _ := congrArg RunResult.out hresult
  have hrest : t.rp = _ := congrArg RunResult.rp hresult
  have hst : t.st = _ := congrArg RunResult.st hresult
  have herr' : t.err = _ := congrArg RunResult.err hresult
  refine ⟨k, t, hk, hph, hclosed, hout, ?_, ?_⟩
  · rw [hin, hrest]
    exact (List.suffix_iff_eq_drop.mp ((rest_walkBits_suffix ..).trans (List.drop_suffix ..))).symm
  · rw [walkResult] at hst herr'
    split
    next h => rw [h] at hst herr'; exact ⟨hst, herr'⟩
    next h => rw [h] at hst herr'; exact ⟨hst, herr'⟩
    next h => rw [h] at hst herr'; exact ⟨hst, herr'⟩

/-! ## Earlier tables (R241) -/

/-- Two cores that differ in their tables alone, and in those only where no operation reads them. -/
structure State.alike (s t : State) : Prop where
  outside : s.sameOutside t
  tables : s.st = .busy → s = t ∨ s.phase = .cClear ∨ s.phase = .dMagic

section
variable {s t : State}

/-- In D_MAGIC no table is live (R40). -/
theorem expire_of_dMagic (h : s.phase = .dMagic) : expire s = dropTables s := by
  simp [expire, dropTables, keep, h, lifetime]

/-- FC_CLEAR writes the one table that is live in C_CLEAR (R40, R121). -/
theorem expire_of_cClear (h : s.phase = .cClear) (f : Vector Nat 257) :
    ({ expire s with freq := some f, phase := .cCount } : State) =
      { dropTables s with freq := some f, phase := .cCount } := by
  simp [expire, dropTables, keep, h, lifetime]

/-- Taking a command leaves the cores alike. -/
theorem alike_taken (h : s.sameOutside t) (hst : s.st ≠ .busy) : (taken s).alike (taken t) := by
  have hdrop : dropTables s = dropTables t := h
  have hop : decodeCmd t.cmdOp = decodeCmd s.cmdOp := by rw [h.cmdOp_eq]
  rw [taken, taken, hop]
  split
  · have haccepted := congrArg (accepted .cClear) hdrop
    exact ⟨haccepted, fun _ => .inr (.inl rfl)⟩
  · have haccepted := congrArg (accepted .dMagic) hdrop
    exact ⟨haccepted, fun _ => .inr (.inr rfl)⟩
  · have hport := congrArg (fun u : State => { u with cmdValid := false }) hdrop
    exact ⟨hport, fun hbusy => absurd hbusy hst⟩

/-- Between commands the tables are of no matter to a step. -/
theorem alike_step_idle (h : s.sameOutside t) (hst : s.st ≠ .busy) :
    step s = step t ∨ ∃ u v, step s = .next u ∧ step t = .next v ∧ u.alike v := by
  have hst' : t.st ≠ .busy := h.st_eq ▸ hst
  have hdrop : dropTables s = dropTables t := h
  by_cases hrst : s.rst = true
  · left
    rw [step_of_reset hrst hst, step_of_reset (h.rst_eq ▸ hrst) hst']
    exact congrArg (fun u : State =>
      Host.Outcome.next { u with rst := false, st := .idle, err := .none, phase := .pIdle }) hdrop
  replace hrst := Bool.not_eq_true _ ▸ hrst
  right
  by_cases hvalid : s.cmdValid = true
  · exact ⟨_, _, step_takes_command hrst hst hvalid,
      step_takes_command (h.rst_eq ▸ hrst) hst' (h.cmdValid_eq ▸ hvalid), alike_taken h hst⟩
  · replace hvalid := Bool.not_eq_true _ ▸ hvalid
    exact ⟨s, t, step_of_waiting hrst hst hvalid, step_of_waiting (h.rst_eq ▸ hrst) hst' (h.cmdValid_eq ▸ hvalid), h,
      fun hbusy => absurd hbusy hst⟩

/-- The first operation of a command finds no table but those it writes. -/
theorem alike_step_first (h : s.sameOutside t) (hst : s.st = .busy) (hph : s.phase = .cClear ∨ s.phase = .dMagic) :
    step s = step t ∨ ∃ u v, step s = .next u ∧ step t = .next v ∧ u.alike v := by
  have hst' : t.st = .busy := h.st_eq ▸ hst
  have hdrop : dropTables s = dropTables t := h
  have hphase : t.phase = s.phase := (congrArg State.phase hdrop).symm
  by_cases hrst : s.rst = true
  · exact .inl ((step_of_resetWhileBusy hrst hst).trans (step_of_resetWhileBusy (h.rst_eq ▸ hrst) hst').symm)
  replace hrst := Bool.not_eq_true _ ▸ hrst
  obtain hclear | hmagic := hph
  · left
    rw [step_cClear hrst hst hclear, step_cClear (h.rst_eq ▸ hrst) hst' (hphase.trans hclear), expire_of_cClear hclear,
      expire_of_cClear (hphase.trans hclear), hdrop]
  by_cases hio : s.ioReady = true
  · left
    rw [step_of_always ⟨hrst, hio, hst, hmagic⟩ (by decide) rfl,
      step_of_always ⟨h.rst_eq ▸ hrst, h.ioReady_eq ▸ hio, hst', hphase.trans hmagic⟩ (by decide) rfl, expire_of_dMagic hmagic,
      expire_of_dMagic (hphase.trans hmagic), hdrop]
  · replace hio := Bool.not_eq_true _ ▸ hio
    exact .inr ⟨s, t, step_of_unanswered hrst hst hio (by rw [hmagic]; rfl),
      step_of_unanswered (h.rst_eq ▸ hrst) hst' (h.ioReady_eq ▸ hio) (by rw [hphase, hmagic]; rfl), h,
      fun _ => .inr (.inr hmagic)⟩

theorem alike_step (h : s.alike t) : step s = step t ∨ ∃ u v, step s = .next u ∧ step t = .next v ∧ u.alike v := by
  by_cases hst : s.st = .busy
  · obtain rfl | hph := h.tables hst
    · exact .inl rfl
    · exact alike_step_first h.outside hst hph
  · exact alike_step_idle h.outside hst

theorem alike_run (k : Nat) (h : s.alike t) : mapNext dropTables (run k s) = mapNext dropTables (run k t) := by
  induction k generalizing s t with
  | zero => exact congrArg Host.Outcome.next h.outside
  | succ k ih =>
    rw [run_succ, run_succ]
    obtain heq | ⟨u, v, hu, hv, huv⟩ := alike_step h
    · rw [heq]
    · rw [hu, hv, chain_next, chain_next]
      exact ih huv

end

/-- Settles O56: what the cores differ in is gone after the first operation of a command. -/
theorem commandIgnoresEarlierTables : Obligations.CommandIgnoresEarlierTables := fun _ _ k _ hst _ _ h =>
  alike_run k ⟨h, fun hbusy => absurd hbusy hst⟩

end Sys2Proof.Machine
end

section
/-! SUPPORT. What stands on the command port, and the medium and the draw behind BitOut, are read by no operation of a command
(R69, U10): two cores that differ there alone have outcomes that differ there alone. -/

namespace Sys2Proof.Machine

/-! ## Related outcomes -/

/-- Two outcomes that are related next states, or the same fault, or the same refusal. -/
inductive Outcomes {α : Type} (R : α → α → Prop) : Res α → Res α → Prop
  | next {a b : α} (h : R a b) : Outcomes R (.next a) (.next b)
  | fault (e : Fault) : Outcomes R (.fault e) (.fault e)
  | refused (e : Refusal) : Outcomes R (.refused e) (.refused e)

section
variable {α β : Type} {R : α → α → Prop} {S : β → β → Prop}

theorem Outcomes.chain {x y : Res α} {f g : α → Res β} (h : Outcomes R x y) (hf : ∀ a b, R a b → Outcomes S (f a) (g b)) :
    Outcomes S (Machine.chain x f) (Machine.chain y g) := by
  cases h with
  | next hab => exact hf _ _ hab
  | fault e => exact .fault e
  | refused e => exact .refused e

/-- After the same read. -/
theorem Outcomes.after {x : Res α} {f g : α → Res β} (hf : ∀ a, Outcomes S (f a) (g a)) :
    Outcomes S (Machine.chain x f) (Machine.chain x g) := by
  cases x with
  | next a => exact hf a
  | fault e => exact .fault e
  | refused e => exact .refused e

theorem Outcomes.eq_mapNext {R : State → State → Prop} {x y : Res State} {f : State → State} (h : Outcomes R x y)
    (hf : ∀ a b, x = .next a → y = .next b → R a b → b = f a) : y = mapNext f x := by
  cases h with
  | next hab => exact congrArg Host.Outcome.next (hf _ _ rfl rfl hab)
  | fault e => rfl
  | refused e => rfl

theorem Outcomes.mapNext_eq {R : State → State → Prop} {x y : Res State} {f : State → State} (h : Outcomes R x y)
    (hf : ∀ a b, x = .next a → y = .next b → R a b → f b = f a) : mapNext f y = mapNext f x := by
  cases h with
  | next hab => exact congrArg Host.Outcome.next (hf _ _ rfl rfl hab)
  | fault e => rfl
  | refused e => rfl

theorem Outcomes.ite {c : Prop} [Decidable c] {x y x' y' : Res α} (h : Outcomes R x y) (h' : Outcomes R x' y') :
    Outcomes R (if c then x else x') (if c then y else y') := by
  split
  · exact h
  · exact h'

end

/-! ## Cores that differ in what no operation reads -/

/-- The state with other values on the port and behind BitOut. -/
def wear (v : Bool) (op : BitVec 2) (m : Bits) (d : Nat) (s : State) : State :=
  { s with cmdValid := v, cmdOp := op, medium := m, draw := d }

/-- t is s with some other port and, where `hidden`, some other medium and draw. -/
def Masked (hidden : Bool) (s t : State) : Prop :=
  ∃ v op m d, t = wear v op m d s ∧ (hidden = false → m = s.medium ∧ d = s.draw)

/-- The operation takes cores that differ so to outcomes that differ so. -/
def Preserves (hidden : Bool) (F : State → Res State) : Prop :=
  ∀ s t, Masked hidden s t → Outcomes (Masked hidden) (F s) (F t)

section
variable {b : Bool} {s t : State}

theorem Masked.withPhase (h : Masked b s t) (ph : Phase) : Masked b { s with phase := ph } { t with phase := ph } := by
  obtain ⟨v, op, m, d, rfl, hm⟩ := h
  exact ⟨v, op, m, d, rfl, hm⟩

theorem Masked.closeOut (h : Masked b s t) : Masked b (closeOut s) (closeOut t) := by
  obtain ⟨v, op, m, d, rfl, hm⟩ := h
  refine ⟨v, op, s.outBits ++ Config.padding s.par.mediumUnit d, d + 1, rfl, fun hb => ?_⟩
  obtain ⟨-, rfl⟩ := hm hb
  exact ⟨rfl, rfl⟩

theorem Masked.dropTables (h : Masked b s t) : Masked b (dropTables s) (dropTables t) := by
  obtain ⟨v, op, m, d, rfl, hm⟩ := h
  exact ⟨v, op, m, d, rfl, hm⟩

theorem Masked.expire (h : Masked b s t) : Masked b (expire s) (expire t) := by
  obtain ⟨v, op, m, d, rfl, hm⟩ := h
  exact ⟨v, op, m, d, rfl, hm⟩

theorem Masked.finish (h : Masked b s t) : Masked b (finish s) (finish t) := by
  obtain ⟨v, op, m, d, heq, hm⟩ := h.closeOut.dropTables
  rw [Machine.finish, Machine.finish, heq]
  exact ⟨v, op, m, d, rfl, hm⟩

theorem Masked.abort (h : Masked b s t) (e : ErrCode) : Masked b (abort e s) (abort e t) := by
  obtain ⟨v, op, m, d, heq, hm⟩ := h.closeOut.dropTables
  rw [Machine.abort, Machine.abort, heq]
  exact ⟨v, op, m, d, rfl, hm⟩

/-! ## The shared operations -/

theorem preserves_raise (e : ErrCode) : Preserves b (raise e) := fun _ _ h => .next (h.abort e)

theorem preserves_memWrite (n v : Nat) : Preserves b (memWrite n v) := by
  rintro s _ ⟨v', op, m, d, rfl, hm⟩
  exact .ite (.fault _) (.ite (.next ⟨v', op, m, d, rfl, hm⟩) (.fault _))

theorem preserves_walkPhase (p q : Phase) : Preserves b (walkPhase p q) := by
  rintro s _ ⟨v, op, m, d, rfl, hm⟩
  exact .after fun n => .next ⟨v, op, m, d, rfl, hm⟩

theorem preserves_push (e : StackEntry) : Preserves b (push e) := by
  rintro s _ ⟨v, op, m, d, rfl, hm⟩
  exact .after fun n => .after fun stack => .next ⟨v, op, m, d, rfl, hm⟩

theorem preserves_pushEdges (l r depth : Nat) : Preserves b (pushEdges l r depth) := fun _ _ h =>
  .chain (preserves_push _ _ _ h) fun _ _ h => preserves_push _ _ _ h

/-- The entry popped is the same. -/
theorem outcomes_pop (h : Masked b s t) : Outcomes (fun x y => x.1 = y.1 ∧ Masked b x.2 y.2) (pop s) (pop t) := by
  obtain ⟨v, op, m, d, rfl, hm⟩ := h
  refine .after fun n => ?_
  cases n with
  | zero => exact .fault _
  | succ k => exact .after fun e => .next ⟨rfl, v, op, m, d, rfl, hm⟩

theorem preserves_setPath (i : Nat) (x : Bit) : Preserves b (setPath i x) := by
  rintro s _ ⟨v, op, m, d, rfl, hm⟩
  exact .after fun p => .next ⟨v, op, m, d, rfl, hm⟩

theorem preserves_setCode (sym len : Nat) (c : Bits) : Preserves b (setCode sym len c) := by
  rintro s _ ⟨v, op, m, d, rfl, hm⟩
  exact .after fun cl => .after fun cb => .next ⟨v, op, m, d, rfl, hm⟩

theorem preserves_writeDnode (i : Nat) (f : DNode → DNode) : Preserves b (writeDnode i f) := by
  rintro s _ ⟨v, op, m, d, rfl, hm⟩
  exact .ite (.next ⟨v, op, m, d, rfl, hm⟩) (.fault _)

theorem preserves_setDstack (i : Nat) (e : DEntry) : Preserves b (setDstack i e) := by
  rintro s _ ⟨v, op, m, d, rfl, hm⟩
  exact .after fun ds => .next ⟨v, op, m, d, rfl, hm⟩

theorem preserves_dpush (e : DEntry) : Preserves b (dpush e) := by
  rintro s _ ⟨v, op, m, d, rfl, hm⟩
  refine .after fun n => .chain (preserves_setDstack n e _ _ ⟨v, op, m, d, rfl, hm⟩) fun _ _ h => ?_
  obtain ⟨v, op, m, d, rfl, hm⟩ := h
  exact .next ⟨v, op, m, d, rfl, hm⟩

/-- A read gets the same bits. -/
theorem masked_bitRead (n : Nat) (h : Masked b s t) :
    (bitRead n s).1 = (bitRead n t).1 ∧ Masked b (bitRead n s).2 (bitRead n t).2 := by
  obtain ⟨v, op, m, d, rfl, hm⟩ := h
  by_cases hle : s.rp + n ≤ s.inBits.length
  · rw [bitRead_of_le n s hle, bitRead_of_le n (wear v op m d s) hle]
    exact ⟨rfl, v, op, m, d, rfl, hm⟩
  · rw [bitRead_of_gt n s (Nat.lt_of_not_le hle), bitRead_of_gt n (wear v op m d s) (Nat.lt_of_not_le hle)]
    exact ⟨rfl, v, op, m, d, rfl, hm⟩

/-- An operation that begins with a read, which raises the error e at the end of IN. -/
def readOr (n : Nat) (e : ErrCode) (f : BitVec n → State → Res State) (s : State) : Res State :=
  match bitRead n s with
  | (none, s) => raise e s
  | (some x, s) => f x s

theorem preserves_readOr {n : Nat} {e : ErrCode} {f : BitVec n → State → Res State} (hf : ∀ x, Preserves b (f x)) :
    Preserves b (readOr n e f) := by
  intro s t h
  obtain ⟨heq, hmask⟩ := masked_bitRead n h
  rw [readOr, readOr]
  generalize bitRead n s = r at heq hmask ⊢
  generalize bitRead n t = r' at heq hmask ⊢
  obtain ⟨x, s'⟩ := r
  obtain ⟨y, t'⟩ := r'
  obtain rfl : x = y := heq
  cases x with
  | none => exact preserves_raise e _ _ hmask
  | some x => exact hf x _ _ hmask

theorem exec_deMagic_eq_readOr : exec .deMagic = readOr 32 .format fun m s =>
    if m = s.par.magic then .next { s with phase := .dHdinit } else raise .format s := by
  funext s
  show execDeMagic s = _
  rw [execDeMagic, readOr]
  rcases bitRead 32 s with ⟨_ | m, s'⟩ <;> rfl

theorem headerSymbol_eq_readOr (k : Symbol → State → Res State) (s : State) :
    headerSymbol s k = readOr 9 .malformed k s := by
  rw [headerSymbol, readOr]
  rcases bitRead 9 s with ⟨_ | x, s'⟩ <;> rfl

theorem headerTag_eq_readOr (k : BitVec 1 → State → Res State) (s : State) :
    headerTag s k = readOr 1 .malformed (fun t s => chain (need s.dnext .dnext) fun n =>
      if n = s.par.decNodeCap then raise .capacity s else k t s) s := by
  rw [headerTag, readOr]
  rcases bitRead 1 s with ⟨_ | t, s'⟩ <;> rfl

theorem payloadBit_eq_readOr (k : BitVec 1 → State → Res State) (s : State) : payloadBit s k = readOr 1 .malformed k s := by
  rw [payloadBit, readOr]
  rcases bitRead 1 s with ⟨_ | t, s'⟩ <;> rfl

/-! ## The unit operations -/

theorem preserves_fcAcc (r : Byte) : Preserves b (exec (.fcAcc r)) := by
  rintro s _ ⟨v, op, m, d, rfl, hm⟩
  exact .after fun f => .ite (.next ⟨v, op, m, d, rfl, hm⟩) (.refused _)

theorem preserves_tbInit : Preserves b (exec .tbInit) := by
  rintro s _ ⟨v, op, m, d, rfl, hm⟩
  exact .after fun f => .next ⟨v, op, m, d, rfl, hm⟩

theorem keysOf_wear (v : Bool) (op : BitVec 2) (m : Bits) (d : Nat) (s : State) (is : List Nat) :
    keysOf (wear v op m d s) is = keysOf s is := by
  induction is with
  | nil => rfl
  | cons i is ih => rw [keysOf, keysOf, ih]; rfl

theorem lightest_wear (v : Bool) (op : BitVec 2) (m : Bits) (d : Nat) (s : State) (a : Vector Bool 513) :
    lightest (wear v op m d s) a = lightest s a := by
  rw [lightest, keysOf_wear, lightest]

theorem preserves_tbMerge : Preserves b (exec .tbMerge) := by
  rintro s _ ⟨v, op, m, d, rfl, hm⟩
  show Outcomes _ (execTbMerge s) (execTbMerge (wear v op m d s))
  unfold execTbMerge
  simp only [lightest_wear]
  exact .after fun act => .after fun a => .after fun act => .after fun c => .after fun act => .after fun na =>
    .after fun nc => .after fun n => .ite (.after fun node => .after fun act => .next ⟨v, op, m, d, rfl, hm⟩) (.refused _)

theorem preserves_tbRoot : Preserves b (exec .tbRoot) := by
  rintro s _ ⟨v, op, m, d, rfl, hm⟩
  refine .after fun act => ?_
  rcases activeIndices act with _ | ⟨i, _ | ⟨j, is⟩⟩
  · exact .fault _
  · exact .next ⟨v, op, m, d, rfl, hm⟩
  · exact .fault _

theorem preserves_cgInit : Preserves b (exec .cgInit) := by
  rintro s _ ⟨v, op, m, d, rfl, hm⟩
  refine .after fun i => .after fun n => ?_
  have hstart : Masked b { s with codeLen := Vector.replicate 257 (some 0), sp := some 0 }
      { wear v op m d s with codeLen := Vector.replicate 257 (some 0), sp := some 0 } := ⟨v, op, m, d, rfl, hm⟩
  cases n with
  | leaf x w => exact .chain (preserves_setCode _ _ _ _ _ hstart) fun _ _ h => .next (h.withPhase _)
  | internal w l r => exact .chain (preserves_pushEdges _ _ _ _ _ hstart) fun _ _ h => .next (h.withPhase _)

theorem preserves_cgStep : Preserves b (exec .cgStep) := by
  intro s t h
  refine .chain (outcomes_pop h) fun ⟨e, s⟩ ⟨e', t⟩ ⟨he, h⟩ => ?_
  obtain rfl : e = e' := he
  refine .after fun depth => .after fun bit => ?_
  cases depth with
  | zero => exact .fault _
  | succ k =>
    refine .chain (preserves_setPath k bit _ _ h) fun s _ ⟨v, op, m, d, hw, hm⟩ => ?_
    subst hw
    refine .after fun n => ?_
    cases n with
    | leaf x w =>
      exact .after fun bits => .chain (preserves_setCode _ _ _ _ _ ⟨v, op, m, d, rfl, hm⟩) fun _ _ h =>
        preserves_walkPhase _ _ _ _ h
    | internal w l r =>
      exact .chain (preserves_pushEdges _ _ _ _ _ ⟨v, op, m, d, rfl, hm⟩) fun _ _ h => preserves_walkPhase _ _ _ _ h

theorem preserves_enMagic : Preserves b (exec .enMagic) := by
  rintro s _ ⟨v, op, m, d, rfl, hm⟩
  exact .chain (preserves_memWrite 32 s.par.magic.toNat _ _ ⟨v, op, m, d, rfl, hm⟩) fun _ _ h => .next (h.withPhase _)

theorem preserves_hsStart : Preserves b (exec .hsStart) := by
  rintro s _ ⟨v, op, m, d, rfl, hm⟩
  exact .after fun i => .chain (preserves_push _ _ _ ⟨v, op, m, d, rfl, hm⟩) fun _ _ h => .next (h.withPhase _)

theorem preserves_hsStep : Preserves b (exec .hsStep) := by
  intro s t h
  refine .chain (outcomes_pop h) fun ⟨e, s⟩ ⟨e', t⟩ ⟨he, v, op, m, d, hw, hm⟩ => ?_
  obtain rfl : e = e' := he
  obtain rfl : t = wear v op m d s := hw
  refine .after fun n => ?_
  cases n with
  | leaf x w =>
    exact .chain (preserves_memWrite _ _ _ _ ⟨v, op, m, d, rfl, hm⟩) fun _ _ h =>
      .chain (preserves_memWrite _ _ _ _ h) fun _ _ h => preserves_walkPhase _ _ _ _ h
  | internal w l r =>
    exact .chain (preserves_memWrite _ _ _ _ ⟨v, op, m, d, rfl, hm⟩) fun _ _ h =>
      .chain (preserves_push _ _ _ h) fun _ _ h => .chain (preserves_push _ _ _ h) fun _ _ h => preserves_walkPhase _ _ _ _ h

theorem preserves_enSym (r : Byte) : Preserves b (exec (.enSym r)) := by
  rintro s _ ⟨v, op, m, d, rfl, hm⟩
  exact .after fun len => .ite (preserves_raise _ _ _ ⟨v, op, m, d, rfl, hm⟩) <| .after fun c =>
    .chain (preserves_memWrite _ _ _ _ ⟨v, op, m, d, rfl, hm⟩) fun _ _ h => .next (h.withPhase _)

theorem preserves_enTerm : Preserves b (exec .enTerm) := by
  rintro s _ ⟨v, op, m, d, rfl, hm⟩
  exact .after fun len => .after fun c =>
    .chain (preserves_memWrite _ _ _ _ ⟨v, op, m, d, rfl, hm⟩) fun _ _ h => .next (h.withPhase _)

theorem preserves_deMagic : Preserves b (exec .deMagic) := by
  rw [exec_deMagic_eq_readOr]
  refine preserves_readOr fun x => ?_
  rintro s _ ⟨v, op, m, d, rfl, hm⟩
  exact .ite (.next ⟨v, op, m, d, rfl, hm⟩) (preserves_raise _ _ _ ⟨v, op, m, d, rfl, hm⟩)

theorem preserves_attach (i : Nat) : Preserves b (attach i) := by
  rintro s _ ⟨v, op, m, d, rfl, hm⟩
  refine .after fun n => ?_
  cases n with
  | zero => exact .next ⟨v, op, m, d, rfl, hm⟩
  | succ k =>
    refine .after fun p => .ite ?_ ?_
    · refine .chain (preserves_writeDnode _ _ _ _ ⟨v, op, m, d, rfl, hm⟩) fun _ _ ⟨v, op, m, d, hw, hm⟩ => ?_
      subst hw
      exact .next ⟨v, op, m, d, rfl, hm⟩
    · exact .chain (preserves_writeDnode _ _ _ _ ⟨v, op, m, d, rfl, hm⟩) fun _ _ h => preserves_setDstack _ _ _ _ h

theorem preserves_headerEnd : Preserves b headerEnd := by
  rintro s _ ⟨v, op, m, d, rfl, hm⟩
  exact .after fun n => .ite (.next ⟨v, op, m, d, rfl, hm⟩) (.next ⟨v, op, m, d, rfl, hm⟩)

theorem outcomes_allocate {k : Nat → State → Res State} (h : Masked b s t) (hk : ∀ i, Preserves b (k i)) :
    Outcomes (Masked b) (allocate s k) (allocate t k) := by
  obtain ⟨v, op, m, d, rfl, hm⟩ := h
  exact .after fun i => .chain (preserves_attach i _ _ ⟨v, op, m, d, rfl, hm⟩) (hk i)

theorem preserves_addInternal : Preserves b addInternal := fun _ _ h =>
  outcomes_allocate h fun _ _ _ h => .chain (preserves_writeDnode _ _ _ _ h) fun _ _ h =>
    .chain (preserves_dpush _ _ _ h) preserves_headerEnd

theorem preserves_addLeaf (x : Symbol) : Preserves b (addLeaf x) := fun _ _ h =>
  outcomes_allocate h fun _ _ _ h => .chain (preserves_writeDnode _ _ _ _ h) preserves_headerEnd

theorem preserves_hdStep : Preserves b (exec .hdStep) := by
  intro s t h
  show Outcomes _ (execHdStep s) (execHdStep t)
  simp only [execHdStep, headerTag_eq_readOr, headerSymbol_eq_readOr]
  refine preserves_readOr (fun x => ?_) s t h
  rintro s _ ⟨v, op, m, d, rfl, hm⟩
  exact .after fun n => .ite (preserves_raise _ _ _ ⟨v, op, m, d, rfl, hm⟩) <|
    .ite (preserves_readOr preserves_addLeaf _ _ ⟨v, op, m, d, rfl, hm⟩) (preserves_addInternal _ _ ⟨v, op, m, d, rfl, hm⟩)

theorem preserves_walkDown (x : BitVec 1) : Preserves b (walkDown x) := by
  rintro s _ ⟨v, op, m, d, rfl, hm⟩
  exact .after fun degenerate => .ite (.next ⟨v, op, m, d, rfl, hm⟩) <| .after fun c => .after fun c' =>
    .next ⟨v, op, m, d, rfl, hm⟩

theorem preserves_leafTest : Preserves b leafTest := by
  rintro s _ ⟨v, op, m, d, rfl, hm⟩
  refine .after fun c => .after fun leaf => .ite (.after fun sym => .ite (.next ⟨v, op, m, d, rfl, hm⟩) <|
    .ite (preserves_raise _ _ _ ⟨v, op, m, d, rfl, hm⟩) <| .chain (preserves_memWrite _ _ _ _ ⟨v, op, m, d, rfl, hm⟩)
      fun _ _ ⟨v, op, m, d, hw, hm⟩ => ?_) (.next ⟨v, op, m, d, rfl, hm⟩)
  subst hw
  exact .next ⟨v, op, m, d, rfl, hm⟩

theorem preserves_deStep : Preserves b (exec .deStep) := by
  intro s t h
  show Outcomes _ (execDeStep s) (execDeStep t)
  rw [execDeStep, execDeStep, payloadBit_eq_readOr, payloadBit_eq_readOr]
  refine preserves_readOr (f := fun x s => chain (walkDown x s) leafTest) (fun x s t h => ?_) s t h
  exact .chain (preserves_walkDown x s t h) preserves_leafTest

/-- An operation that answers a next state always, and leaves these fields alone. -/
theorem preserves_of_wear {i : Instr} (F : State → State) (hi : ∀ s, exec i s = .next (F s))
    (hF : ∀ v op m d s, F (wear v op m d s) = wear v op m d (F s) ∧ (F s).medium = s.medium ∧ (F s).draw = s.draw) :
    Preserves b (exec i) := by
  rintro s _ ⟨v, op, m, d, rfl, hm⟩
  obtain ⟨hwear, hmedium, hdraw⟩ := hF v op m d s
  rw [hi, hi, hwear]
  exact .next ⟨v, op, m, d, rfl, by rwa [hmedium, hdraw]⟩

/-- No operation of a command reads the port, the medium or the draw. -/
theorem preserves_decodePhase {ph : Phase} {c : Cond} {i : Instr} (hdec : decodePhase ph c = .ok i) :
    Preserves b (exec i) := by
  cases ph <;> cases c <;> cases hdec
  case cClear.always.refl => exact preserves_of_wear _ exec_fcClear fun _ _ _ _ _ => ⟨rfl, rfl, rfl⟩
  case cCount.byte.refl => exact preserves_fcAcc _
  case cCount.eos.refl => exact preserves_of_wear _ exec_fcEnd fun _ _ _ _ _ => ⟨rfl, rfl, rfl⟩
  case cTbinit.always.refl => exact preserves_tbInit
  case cMerge.many.refl => exact preserves_tbMerge
  case cMerge.one.refl => exact preserves_tbRoot
  case cCginit.always.refl => exact preserves_cgInit
  case cCgen.always.refl => exact preserves_cgStep
  case cMagic.always.refl => exact preserves_enMagic
  case cHsinit.always.refl => exact preserves_hsStart
  case cHdr.always.refl => exact preserves_hsStep
  case cRewind.always.refl =>
    exact preserves_of_wear (fun s => { rewind s with phase := .cEnc }) (fun _ => rfl) fun _ _ _ _ _ => ⟨rfl, rfl, rfl⟩
  case cEnc.byte.refl => exact preserves_enSym _
  case cEnc.eos.refl => exact preserves_enTerm
  case cClose.always.refl => exact fun _ _ h => .next h.finish
  case dMagic.always.refl => exact preserves_deMagic
  case dHdinit.always.refl =>
    exact preserves_of_wear (fun s => { s with dnext := some 0, dsp := some 0, phase := .dHdr }) (fun _ => rfl)
      fun _ _ _ _ _ => ⟨rfl, rfl, rfl⟩
  case dHdr.always.refl => exact preserves_hdStep
  case dDec.always.refl => exact preserves_deStep
  case dClose.always.refl => exact fun _ _ h => .next h.finish

/-! ## The step of a BUSY core -/

theorem masked_readCond (h : Masked b s t) : (readCond s).1 = (readCond t).1 ∧ Masked b (readCond s).2 (readCond t).2 := by
  obtain ⟨heq, hmask⟩ := masked_bitRead 8 h
  rw [readCond, readCond]
  generalize bitRead 8 s = r at heq hmask ⊢
  generalize bitRead 8 t = r' at heq hmask ⊢
  obtain ⟨x, s'⟩ := r
  obtain ⟨y, t'⟩ := r'
  obtain rfl : x = y := heq
  cases x <;> exact ⟨rfl, hmask⟩

/-- The same condition is selected. -/
theorem outcomes_select (h : Masked b s t) :
    Outcomes (fun x y => x.1 = y.1 ∧ Masked b x.2 y.2) (select s) (select t) := by
  have hread := masked_readCond h
  have hph : t.phase = s.phase := by
    obtain ⟨_, _, _, _, rfl, -⟩ := h
    rfl
  have hactive : t.active = s.active := by
    obtain ⟨_, _, _, _, rfl, -⟩ := h
    rfl
  rw [select, select, hph, hactive]
  split
  · exact .next hread
  · exact .next hread
  · exact .after fun a => .ite (.next ⟨rfl, h⟩) (.ite (.next ⟨rfl, h⟩) (.refused _))
  · exact .next ⟨rfl, h⟩

/-- The step of a BUSY core does not read the port, the medium or the draw either. -/
theorem outcomes_step_busy (hst : s.st = .busy) (h : Masked b s t) : Outcomes (Masked b) (step s) (step t) := by
  have hsel := outcomes_select h.expire
  obtain ⟨v, op, m, d, rfl, hm⟩ := h
  have hst' : (wear v op m d s).st = .busy := hst
  by_cases hrst : s.rst = true
  · rw [step_of_resetWhileBusy hrst hst, step_of_resetWhileBusy (s := wear v op m d s) hrst hst']
    exact .refused _
  replace hrst := Bool.not_eq_true _ ▸ hrst
  by_cases hwait : s.ioReady = false ∧ issuesTransaction s.phase = true
  · obtain ⟨hio, hissues⟩ := hwait
    rw [step_of_unanswered hrst hst hio hissues, step_of_unanswered (s := wear v op m d s) hrst hst' hio hissues]
    exact .next ⟨v, op, m, d, rfl, hm⟩
  · rw [step_of_answered hrst hst hwait, step_of_answered (s := wear v op m d s) hrst hst' hwait]
    refine .chain hsel fun ⟨c, u⟩ ⟨c', u'⟩ ⟨hc, hu⟩ => ?_
    obtain rfl : c = c' := hc
    show Outcomes _ (runFetched (.run (.phase (phaseCode s.phase) c) u)) (runFetched (.run (.phase (phaseCode s.phase) c) u'))
    simp only [runFetched, decode, phaseOf_phaseCode]
    cases hdec : decodePhase s.phase c with
    | ok i => exact preserves_decodePhase hdec _ _ hu
    | reject e => exact .refused _

end

end Sys2Proof.Machine
end

section
/-! SUPPORT. Noninterference: the port in a command (U10, R190), and the padding (R69). -/

namespace Sys2Proof.Machine

/-- Settles O6: the step's next states differ in the port alone, which neither of them changed. -/
theorem busyCoreIgnoresThePort : Obligations.BusyCoreIgnoresThePort := by
  intro s v op hst
  obtain ⟨-, hport⟩ := acceptanceStartsTheCommand
  have h := outcomes_step_busy (b := false) (t := wear v op s.medium s.draw s) hst ⟨v, op, _, _, rfl, fun _ => ⟨rfl, rfl⟩⟩
  refine h.eq_mapNext fun u _ _ hstep ⟨v', op', m, d, hw, hm⟩ => ?_
  subst hw
  obtain ⟨rfl, rfl⟩ := hm rfl
  obtain ⟨hv, hop⟩ := hport (wear v op s.medium s.draw s) _ hst hstep
  obtain rfl : v' = v := hv
  obtain rfl : op' = op := hop
  rfl

/-! ## The padding (R69) -/

/-- What a state shows apart from the medium and the draw. -/
def unpadded (s : State) : State := { s with medium := [], draw := 0 }

theorem unpadded_taken (m : Bits) (d : Nat) (s : State) :
    unpadded (taken { s with medium := m, draw := d }) = unpadded (taken s) := by
  simp only [taken]
  split <;> rfl

/-- Between commands no step reads the padding. -/
theorem step_ignores_padding_idle {s : State} (m : Bits) (d : Nat) (hst : s.st ≠ .busy) :
    mapNext unpadded (step { s with medium := m, draw := d }) = mapNext unpadded (step s) := by
  have hst' : ({ s with medium := m, draw := d } : State).st ≠ .busy := hst
  by_cases hrst : s.rst = true
  · rw [step_of_reset hrst hst, step_of_reset (s := { s with medium := m, draw := d }) hrst hst']
    rfl
  replace hrst := Bool.not_eq_true _ ▸ hrst
  by_cases hvalid : s.cmdValid = true
  · rw [step_takes_command hrst hst hvalid, step_takes_command (s := { s with medium := m, draw := d }) hrst hst' hvalid]
    exact congrArg Host.Outcome.next (unpadded_taken m d s)
  · replace hvalid := Bool.not_eq_true _ ▸ hvalid
    rw [step_of_waiting hrst hst hvalid, step_of_waiting (s := { s with medium := m, draw := d }) hrst hst' hvalid]
    rfl

theorem step_ignores_padding_busy {s : State} (m : Bits) (d : Nat) (hst : s.st = .busy) :
    mapNext unpadded (step { s with medium := m, draw := d }) = mapNext unpadded (step s) := by
  obtain ⟨-, hport⟩ := acceptanceStartsTheCommand
  have h := outcomes_step_busy (b := true) (t := wear s.cmdValid s.cmdOp m d s) hst ⟨_, _, m, d, rfl, nofun⟩
  refine h.mapNext_eq fun u _ hstep hstep' ⟨v', op', m', d', hw, _⟩ => ?_
  subst hw
  obtain ⟨hv, hop⟩ := hport s u hst hstep
  obtain ⟨hv', hop'⟩ := hport (wear s.cmdValid s.cmdOp m d s) _ hst hstep'
  obtain rfl : v' = u.cmdValid := Eq.trans hv' hv.symm
  obtain rfl : op' = u.cmdOp := Eq.trans hop' hop.symm
  rfl

/-- Settles O37. -/
theorem paddingIsADrawNothingReads : Obligations.PaddingIsADrawNothingReads := by
  refine ⟨fun s hunit => ⟨_, closeOut_medium s, ?_⟩, fun s m d => ?_⟩
  · rw [Config.padding, List.length_map, List.length_range]
    exact Nat.mod_lt _ hunit
  · by_cases hst : s.st = .busy
    · exact step_ignores_padding_busy m d hst
    · exact step_ignores_padding_idle m d hst

end Sys2Proof.Machine
end

section
/-! SUPPORT. Statements of single operations: reset and STATUS (R240, R25), the waiting core (R223, R256), the selection of the
unit operation (R104), and the operations that no rule above says whole. -/

namespace Sys2Proof.Machine

/-! ## Reset, STATUS, the step -/

/-- Settles O1. -/
theorem resetLeavesNoValue : Obligations.ResetLeavesNoValue := fun p =>
  ⟨rfl, rfl, rfl, rfl, rfl, rfl, rfl, ⟨rfl, rfl, rfl, rfl, rfl, rfl, rfl, rfl, rfl, rfl⟩, ⟨rfl, rfl, rfl, rfl, rfl⟩, rfl,
    step_of_waiting (s := State.resetWith p) rfl nofun rfl⟩

/-- Settles O2. -/
theorem resetInputRestoresTheCore : Obligations.ResetInputRestoresTheCore :=
  ⟨fun _ => step_of_reset, fun _ => step_of_resetWhileBusy, fun s => ⟨hardReset_st s, hardReset_err s, hardReset_phase s,
    hardReset_rst s, dropTables_compressionEmpty s, dropTables_decompressionEmpty s, hardReset_inBits s, hardReset_rp s,
    hardReset_outBits s, hardReset_closed s, hardReset_medium s, hardReset_trace s, hardReset_draw s, hardReset_cmdValid s,
    hardReset_cmdOp s, hardReset_ioReady s, hardReset_par s⟩⟩

theorem getLsbD_status (p : BitVec 5) (e : BitVec 3) (c : BitVec 2) (i : Nat) :
    ((p ++ e ++ c).setWidth 32).getLsbD i =
      (decide (i < 32) && if i < 2 then c.getLsbD i else if i - 2 < 3 then e.getLsbD (i - 2) else p.getLsbD (i - 2 - 3)) := by
  rw [BitVec.getLsbD_setWidth, BitVec.getLsbD_append, BitVec.getLsbD_append]

/-- The fields of STATUS lie one above the other (R25). -/
theorem extract_status (p : BitVec 5) (e : BitVec 3) (c : BitVec 2) :
    ((p ++ e ++ c).setWidth 32).extractLsb' 0 2 = c ∧ ((p ++ e ++ c).setWidth 32).extractLsb' 2 3 = e ∧
      ((p ++ e ++ c).setWidth 32).extractLsb' 5 5 = p ∧ ((p ++ e ++ c).setWidth 32).extractLsb' 10 22 = 0#22 := by
  refine ⟨?_, ?_, ?_, ?_⟩ <;> ext i hi <;> rw [BitVec.getElem_extractLsb', getLsbD_status]
  · rw [decide_eq_true (by omega), Bool.true_and, if_pos (by omega), Nat.zero_add, BitVec.getLsbD_eq_getElem]
  · rw [decide_eq_true (by omega), Bool.true_and, if_neg (by omega), if_pos (by omega), Nat.add_sub_cancel_left,
      BitVec.getLsbD_eq_getElem]
  · have hidx : 5 + i - 2 - 3 = i := by omega
    rw [decide_eq_true (by omega), Bool.true_and, if_neg (by omega), if_neg (by omega), hidx, BitVec.getLsbD_eq_getElem]
  · rw [if_neg (by omega), if_neg (by omega), BitVec.getLsbD_of_ge _ _ (by omega), Bool.and_false, BitVec.getElem_zero]
/-- Settles O3: the fields are the codes, and the codes are those of the tables. -/
theorem statusWordAndLevelOutputs : Obligations.StatusWordAndLevelOutputs := by
  intro s
  obtain ⟨hst, herr, hph, hhigh⟩ := extract_status (phaseCode s.phase) (errCode s.err) (stCode s.st)
  refine ⟨hst, herr, hph, hhigh, fun c hc h => hst.trans ?_, fun c hc h => herr.trans ?_, fun c hc h => hph.trans ?_,
    decide_eq_true_iff, decide_eq_true_iff, decide_eq_true_iff⟩
  · rw [h]
    clear * - hc
    revert c
    decide
  · rw [h]
    clear * - hc
    revert c
    decide
  · rw [h]
    clear * - hc
    revert c
    decide

/-- Settles O7. -/
theorem coreWaits : Obligations.CoreWaits := ⟨fun _ => step_of_waiting, fun _ => step_of_unanswered⟩

/-- Settles O8. -/
theorem stepRunsTheDecodedInstruction : Obligations.StepRunsTheDecodedInstruction := by
  intro s s' w i hfetch hdec
  rw [step, hfetch, chain_next, runFetched, hdec]

/-- The two rows of C_MERGE, by the number of members of ACTIVE (R104). -/
theorem select_cMerge {s : State} {act : Vector Bool 513} (h : s.phase = .cMerge) (hact : s.active = some act) :
    select (expire s) = if 2 ≤ countActive act then .next (.many, expire s)
      else if countActive act = 1 then .next (.one, expire s) else .refused .noUnitOperation := by
  have hlive : (expire s).active = some act := (keep_of_mem (by rw [h]; decide)).trans hact
  simp only [select, expire_phase, h, hlive, need_some, chain_next]

/-- Settles O9, row by row: most phases need no condition, C_COUNT and C_ENC a read, C_MERGE the members of ACTIVE. -/
theorem unitOperationSelection : Obligations.UnitOperationSelection := by
  refine ⟨fun s h => step_of_always h (by decide) rfl, fun s r h hin => step_of_byte h (.inl rfl) hin rfl,
    fun s h hin => step_of_end h (.inl rfl) hin rfl, fun s h => step_of_always h (by decide) rfl,
    fun s act h hact hmany => step_of_select h ((select_cMerge h.inPhase hact).trans (if_pos hmany)) rfl,
    fun s act h hact hone => step_of_select (c := .one) h ((select_cMerge h.inPhase hact).trans ?_) rfl,
    fun s h => step_of_always h (by decide) rfl, fun s h => step_of_always h (by decide) rfl,
    fun s h => step_of_always h (by decide) rfl, fun s h => step_of_always h (by decide) rfl,
    fun s h => step_of_always h (by decide) rfl, fun s h => step_of_always h (by decide) rfl,
    fun s r h hin => step_of_byte h (.inr rfl) hin rfl, fun s h hin => step_of_end h (.inr rfl) hin rfl,
    fun s h => step_of_always h (by decide) rfl, fun s h => step_of_always h (by decide) rfl,
    fun s h => step_of_always h (by decide) rfl, fun s h => step_of_always h (by decide) rfl,
    fun s h => step_of_always h (by decide) rfl, fun s h => step_of_always h (by decide) rfl⟩
  rw [if_neg (by omega), if_pos hone]

/-! ## Single operations -/

/-- Settles O13: a count is set to its successor, and the others stay. -/
theorem fcAccCountsOneByte : Obligations.FcAccCountsOneByte := by
  refine ⟨fun p r => rfl, fun r s f hf hlt => ⟨_, exec_fcAcc_of_lt hf hlt, ?_, fun i hi => ?_, freqTotal_set_succ f _⟩,
    fun r s f => exec_fcAcc_of_full⟩
  · have hr : r.toNat < 257 := r.isLt.trans (by decide)
    simp [hr]
  · simp [Ne.symm hi]

/-- Settles O23. -/
theorem headerWalksStartEmpty : Obligations.HeaderWalksStartEmpty :=
  ⟨fun _ => ⟨rfl, rfl⟩, fun _ _ => exec_hsStart, fun _ => rfl⟩

/-- Settles O24. -/
theorem hsStepWritesOneRecord : Obligations.HsStepWritesOneRecord :=
  ⟨fun _ => rfl, fun _ _ _ _ _ hsp htop hnode hopen => exec_hsStep_of_leaf hsp htop hopen hnode,
    fun _ _ _ _ _ _ hsp htop hnode hopen hk => exec_hsStep_of_internal hsp htop hopen hnode hk⟩

/-- Settles O33. -/
theorem enMagicAndEnRewind : Obligations.EnMagicAndEnRewind :=
  ⟨fun _ => ⟨rfl, rfl⟩, fun _ => exec_enMagic_of_open, fun _ => rfl⟩

/-- What Close delivers begins with OUT (R68). -/
theorem outBits_prefix_closeOut (s : State) : s.outBits <+: (closeOut s).medium := by
  rw [closeOut_medium]
  exact List.prefix_append ..

/-- Settles O36: both operations are `finish`. -/
theorem closeOperationsEndTheCommand : Obligations.CloseOperationsEndTheCommand := by
  refine ⟨fun p => ⟨rfl, rfl⟩, fun s op hop => ⟨finish s, by rcases hop with rfl | rfl <;> rfl, ?_⟩⟩
  exact ⟨finish_closed s, finish_st s, finish_phase s, finish_err s, finish_trace s, finish_outBits s, finish_inBits s,
    finish_rp s, dropTables_compressionEmpty (closeOut s), dropTables_decompressionEmpty (closeOut s), finish_par s,
    finish_rst s, finish_cmdValid s, finish_cmdOp s, finish_ioReady s, outBits_prefix_closeOut s⟩

/-- Settles O44: `raise` is `abort`. -/
theorem abortSequence : Obligations.AbortSequence := fun e s =>
  ⟨abort e s, rfl, abort_closed e s, abort_err e s, abort_st e s, abort_phase e s, abort_trace e s, abort_outBits e s,
    abort_rp e s, abort_inBits e s, dropTables_compressionEmpty (closeOut s), dropTables_decompressionEmpty (closeOut s),
    abort_par e s, abort_rst e s, abort_cmdValid e s, abort_cmdOp e s, abort_ioReady e s, outBits_prefix_closeOut s⟩

end Sys2Proof.Machine
end

section
/-! SUPPORT. The header tokens and the payload tokens as their unit operations read them (R156 to R158, R178 to R182, R218). -/

namespace Sys2Proof.Machine

section
variable {s : State} {b : Bit} {op : Instr} {x sym : Symbol} {n : Nat}

/-! ## The checks of a read (R218) -/

theorem payloadBit_of_end {k : BitVec 1 → State → Res State} (hin : s.inBits.length < s.rp + 1) :
    payloadBit s k = .next (abort .malformed { s with trace := s.trace ++ [.read 1 none] }) := by
  rw [payloadBit, bitRead_of_gt 1 s hin]
  rfl

theorem payloadBit_of_bit {k : BitVec 1 → State → Res State} (hin : s.inBits[s.rp]? = some b) :
    payloadBit s k = k (BitVec.ofBool b) (readOn 1 [.read 1 (some b.toNat)] s) := by
  rw [payloadBit, bitRead_one hin]
  rfl

/-- A leaf record whose symbol is cut short (R156, R158). -/
theorem headerTag_of_cutSymbol {k : BitVec 1 → State → Res State} {k' : Symbol → State → Res State}
    (hk : ∀ t, k (BitVec.ofBool true) t = headerSymbol t k') (hin : s.inBits[s.rp]? = some true) (hn : s.dnext = some n)
    (hcap : n ≠ s.par.decNodeCap) (hend : s.inBits.length < s.rp + 10) :
    headerTag s k = .next (abort .malformed
      { s with rp := s.rp + 1, trace := s.trace ++ [.read 1 (some 1), .read 9 none] }) := by
  rw [headerTag, bitRead_one hin]
  refine chain_of_next (need_eq_next.mpr hn) ((if_neg hcap).trans ((hk _).trans ?_))
  rw [headerSymbol_of_end (by simpa using hend), List.append_assoc]
  rfl

/-- Settles O29, by the read that fails. -/
theorem endOfStreamAndCapacityOrder : Obligations.EndOfStreamAndCapacityOrder := by
  refine ⟨fun s op x hop hin => ?_, fun s op x t hop hin hn => ?_, fun s op x n hop hin hn hcap hend => ?_⟩
  · rcases hop with rfl | rfl | rfl | rfl | rfl | rfl
    · exact headerTag_of_end (Nat.lt_succ_of_le hin)
    · exact headerTag_of_end (Nat.lt_succ_of_le hin)
    · exact headerTag_of_end (Nat.lt_succ_of_le hin)
    · exact payloadBit_of_end (Nat.lt_succ_of_le hin)
    · exact payloadBit_of_end (Nat.lt_succ_of_le hin)
    · exact payloadBit_of_end (Nat.lt_succ_of_le hin)
  · rcases hop with rfl | rfl | rfl <;> exact headerTag_of_full hin hn
  · rcases hop with rfl | rfl
    · exact headerTag_of_cutSymbol (fun _ => rfl) hin hn hcap hend
    · exact headerTag_of_cutSymbol (fun _ => rfl) hin hn hcap hend

/-! ## One bit of the payload -/

/-- The unit operation and the token of the bit at rp read it and move (R178 to R180). -/
theorem exec_payloadBit (hop : op = .deStep ∨ op = if b then .brRight else .brLeft) (hin : s.inBits[s.rp]? = some b) :
    exec op s = chain (walkDown (BitVec.ofBool b) (readOn 1 [.read 1 (some b.toNat)] s)) leafTest := by
  rcases hop with rfl | rfl
  · exact payloadBit_of_bit hin
  · cases b with
    | false => exact payloadBit_of_bit hin
    | true => exact payloadBit_of_bit hin

/-- Under the degenerate tree nothing moves (R182). -/
theorem walkDown_of_leaf {top : DNode} (v : BitVec 1) (htop : s.dnode[0]? = some top) (hleaf : top.leaf = some true) :
    walkDown v s = .next s :=
  chain_of_next (isLeaf_eq_next.mpr ⟨top, htop, hleaf⟩) rfl

/-- Under an ordinary tree CUR goes to the child the bit names (R178). -/
theorem walkDown_of_child {top m : DNode} {c c' : Nat} (htop : s.dnode[0]? = some top) (hleaf : top.leaf = some false)
    (hcur : s.cur = some c) (hm : s.dnode[c]? = some m) (hc' : (if b then m.right else m.left) = some c') :
    walkDown (BitVec.ofBool b) s = .next { s with cur := some c' } := by
  refine chain_of_next (isLeaf_eq_next.mpr ⟨top, htop, hleaf⟩) (chain_of_next (need_eq_next.mpr hcur)
    (chain_of_next (childOf_eq_next.mpr ⟨m, hm, ?_⟩) rfl))
  cases b <;> exact hc'

/-- A record that is a leaf stores that leaf. -/
theorem dstored_of_leaf {d : List DNode} {m : DNode} {c : Nat} (hm : d[c]? = some m) (hleaf : m.leaf = some true)
    (hsym : m.sym = some x) : DStored d (.leaf x 0) c :=
  ⟨Option.bind_eq_some_iff.mpr ⟨m, hm, hleaf⟩, Option.bind_eq_some_iff.mpr ⟨m, hm, hsym⟩⟩

theorem leafTest_of_inner {m : DNode} {c : Nat} (hcur : s.cur = some c) (hm : s.dnode[c]? = some m)
    (hleaf : m.leaf = some false) : leafTest s = .next { s with phase := .dDec } :=
  chain_of_next (need_eq_next.mpr hcur) (chain_of_next (isLeaf_eq_next.mpr ⟨m, hm, hleaf⟩) rfl)

/-- The leaf test at a byte's leaf, whose low eight bits are the symbol (R178). -/
theorem leafTest_of_lt {c : Nat} (hcur : s.cur = some c) (h : DStored s.dnode (.leaf x 0) c) (hlt : x.toNat < 256)
    (hopen : s.closed = false) :
    leafTest s = .next { s with
      outBits := s.outBits ++ bin 8 x.toNat
      trace := s.trace ++ [.write 8 x.toNat]
      cur := some 0
      phase := .dDec } := by
  have hne : x ≠ 256#9 := by
    rintro rfl
    exact absurd hlt (by decide)
  have htest := leafTest_of_byte hcur h hne (by omega) hopen
  rwa [toNat_lowByte x hlt] at htest

theorem ne_terminator_of_gt (h : 256 < x.toNat) : x ≠ 256#9 := by
  rintro rfl
  exact absurd h (by decide)

end

/-- Settles O40: the move to the child and the leaf test there. -/
theorem deStepWalksTheTree : Obligations.DeStepWalksTheTree := by
  intro s top n m c c' b op htop hleaf hcur hn hc' hm hin hop
  rw [exec_payloadBit hop hin, walkDown_of_child (s := readOn _ _ s) htop hleaf hcur hn hc', chain_next]
  refine ⟨fun hinner => leafTest_of_inner rfl hm hinner,
    fun hl hsym => leafTest_of_terminator rfl (dstored_of_leaf hm hl hsym) rfl, fun x hl hsym hlt hopen => ?_, fun x hl hsym hgt =>
      leafTest_of_reserved rfl (dstored_of_leaf hm hl hsym) (ne_terminator_of_gt hgt) hgt⟩
  rw [leafTest_of_lt (s := { readOn _ _ s with cur := some c' }) rfl (dstored_of_leaf hm hl hsym) hlt hopen]
  simp only [readOn, List.append_assoc, List.cons_append, List.nil_append]

/-- Settles O41: no move, and the leaf test of the root. -/
theorem degenerateTreeIgnoresTheBit : Obligations.DegenerateTreeIgnoresTheBit := by
  intro s b top x op htop hleaf hsym hcur hin hop
  have hexec : exec op s = leafTest (readOn 1 [.read 1 (some b.toNat)] s) := by
    have hmove (v : BitVec 1) := walkDown_of_leaf (s := readOn 1 [.read 1 (some b.toNat)] s) v htop hleaf
    rcases hop with rfl | rfl | rfl
    · exact (payloadBit_of_bit hin).trans (chain_of_next (hmove _) rfl)
    · exact (payloadBit_of_bit hin).trans (chain_of_next (hmove _) rfl)
    · exact (payloadBit_of_bit hin).trans (chain_of_next (hmove _) rfl)
  have hroot := dstored_of_leaf htop hleaf hsym
  rw [hexec]
  refine ⟨fun hx => leafTest_of_terminator (s := readOn _ _ s) hcur hroot hx, fun hlt hopen => ?_,
    fun hgt => leafTest_of_reserved (s := readOn _ _ s) hcur hroot (ne_terminator_of_gt hgt) hgt⟩
  rw [leafTest_of_lt (s := readOn _ _ s) hcur hroot hlt hopen, ← hcur]
  simp only [readOn, List.append_assoc, List.cons_append, List.nil_append]

/-! ## Unit operations and tokens (R157, R158, R177, R179, R180) -/

section
variable {s : State} {tok : Instr} {rest : Bits}

/-- The bit at the read position. -/
theorem getElem?_of_drop {b : Bit} {u : Bits} (h : s.inBits.drop s.rp = b :: u) : s.inBits[s.rp]? = some b := by
  rw [← Nat.add_zero s.rp, ← List.getElem?_drop, h, List.getElem?_cons_zero]

theorem exec_hdStep_eq_token (h : decodeToken s.par .header (s.inBits.drop s.rp) = .ok tok rest) :
    exec .hdStep s = exec tok s := by
  obtain ⟨w, hw, hbits⟩ := encode_of_decodeToken h
  have hbit (b : Bit) (u : Bits) (hwb : w = b :: u) : s.inBits[s.rp]? = some b := getElem?_of_drop (by rw [hbits, hwb]; rfl)
  cases tok <;> cases hw
  case hdrInternal.refl =>
    show headerTag s _ = headerTag s _
    rw [headerTag, headerTag, bitRead_one (hbit _ _ rfl)]
    rfl
  case hdrLeaf.refl x =>
    have htake : (s.inBits.drop s.rp).take 10 = true :: bin 9 x.toNat := by
      rw [hbits]
      exact List.take_left' (by rw [List.length_cons, length_bin])
    obtain ⟨htag, hsym⟩ := leafRecord_bits htake
    have hread (k : Symbol → State → Res State) := headerSymbol_of_take (k := k)
      (s := { s with rp := s.rp + 1, trace := s.trace ++ [.read 1 (some true.toNat)] }) hsym
    show headerTag s _ = headerTag s _
    rw [headerTag, headerTag, bitRead_one htag]
    refine congrArg (chain _) (funext fun n => ?_)
    split
    · rfl
    · exact (hread fun x t => addLeaf x t).trans (hread fun _ t => addLeaf x t).symm

theorem exec_deStep_eq_token (h : decodeToken s.par .payload (s.inBits.drop s.rp) = .ok tok rest) :
    exec .deStep s = exec tok s := by
  obtain ⟨w, hw, hbits⟩ := encode_of_decodeToken h
  have hboth (b : Bit) (hwb : w = [b]) (htok : tok = if b then .brRight else .brLeft) : exec .deStep s = exec tok s := by
    have hin : s.inBits[s.rp]? = some b := getElem?_of_drop (u := rest) (by rw [hbits, hwb]; rfl)
    exact (exec_payloadBit (.inl rfl) hin).trans (exec_payloadBit (.inr htok) hin).symm
  cases tok <;> cases hw
  case brLeft.refl => exact hboth false rfl rfl
  case brRight.refl => exact hboth true rfl rfl

theorem exec_deMagic_eq_token (h : decodeToken s.par .magic (s.inBits.drop s.rp) = .ok tok rest) :
    exec .deMagic s = exec tok s := by
  obtain ⟨w, hw, hbits⟩ := encode_of_decodeToken h
  cases tok <;> cases hw
  case magic.refl =>
    have htake : (s.inBits.drop s.rp).take 32 = bin 32 s.par.magic.toNat := by rw [hbits, take_bin_append]
    rw [exec_magic_of_take htake, exec_deMagic_of_take htake, if_pos rfl]

end

/-- Settles O30, section by section. -/
theorem unitOperationsInterpretTheTokens : Obligations.UnitOperationsInterpretTheTokens :=
  ⟨fun _ _ _ => exec_hdStep_eq_token, fun _ _ _ => exec_deStep_eq_token, fun _ _ _ => exec_deMagic_eq_token⟩

end Sys2Proof.Machine
end

section
/-! SUPPORT. Reads of state that holds no value (R41, U11): each ends its operation in the fault of its register. -/

namespace Sys2Proof.Machine

/-! ## The reads -/

theorem chain_of_fault {α β : Type} {x : Res α} {f : α → Res β} {e : Fault} (h : x = .fault e) : chain x f = .fault e := by
  rw [h, chain_fault]

theorem need_of_none {α : Type} {x : Option α} {r : Reg} (h : x = none) : need x r = .fault (.noValue r) := by
  rw [h, need_none]

theorem entry_of_none {α : Type} {x : Option (Option α)} {r : Reg} (h : x = some none) :
    entry x r = .fault (.noValue r) := by
  rw [h]
  rfl

theorem entry_of_some {α : Type} {x : Option (Option α)} {r : Reg} {a : α} (h : x = some (some a)) :
    entry x r = .next a := by
  rw [h]
  rfl

section
variable {s : State} {act : Vector Bool 513} {i k n : Nat} {e : StackEntry} {x : Symbol} {op : Instr} {b : Bit}

/-! ## TreeBuilder -/

/-- A collection with a member that has no record has no keys: the first such member is a fault. -/
theorem keysOf_of_none {is : List Nat} (hlt : ∀ j ∈ is, j < 513) (hi : i ∈ is) (hnode : s.node[i]? = some none) :
    keysOf s is = .fault (.noValue .node) := by
  induction is with
  | nil => cases hi
  | cons j is ih =>
    obtain ⟨hj, hlt⟩ := List.forall_mem_cons.mp hlt
    rw [keysOf]
    obtain ⟨y, hy⟩ : ∃ y, s.node[j]? = some y := ⟨_, Vector.getElem?_eq_getElem hj⟩
    cases y with
    | none => exact chain_of_fault (entry_of_none hy)
    | some m =>
      have htail : i ∈ is := (List.mem_cons.mp hi).resolve_left fun heq => by
        rw [heq, hy] at hnode
        cases hnode
      exact chain_of_next (entry_of_some hy) (chain_of_fault (ih hlt htail))

theorem lightest_of_none (hi : act[i]? = some true) (hnode : s.node[i]? = some none) :
    lightest s act = .fault (.noValue .node) := by
  refine chain_of_fault (keysOf_of_none (fun j hj => ?_) (mem_activeIndices.mpr hi) hnode)
  exact lt_of_vector_getElem?_some (mem_activeIndices.mp hj)

/-- TB_MERGE reads NEXT only after both members and their records. -/
theorem exec_tbMerge_of_noNext (hact : s.active = some act) (hcount : 2 ≤ countActive act)
    (hval : ∀ i, i < 513 → act[i]? = some true → s.node[i]? ≠ some none) (hnext : s.nextIdx = none) :
    exec .tbMerge s = .fault (.noValue .nextIdx) := by
  have hrec : ∀ i : Nat, act[i]? = some true → ∃ m, s.node[i]? = some (some m) := by
    intro i hi
    have hlt := lt_of_vector_getElem?_some hi
    have hsome := hval i hlt hi
    rw [Vector.getElem?_eq_getElem hlt] at hsome ⊢
    exact (Option.ne_none_iff_exists'.mp fun hnone => hsome (congrArg some hnone)).imp fun m hm => congrArg some hm
  have hne : activeIndices act ≠ [] := fun h => by
    rw [countActive, h, List.length_nil] at hcount
    omega
  have hne' (a : Nat) := activeIndices_setIfInBounds_false_ne_nil a hcount
  obtain ⟨a, ha⟩ := exists_lightest hne hrec
  obtain ⟨c, hc⟩ := exists_lightest (hne' a) fun i hi => hrec i (getElem?_setIfInBounds_false.mp hi).1
  obtain ⟨-, hma, -⟩ := lightest_eq_next.mp ha
  obtain ⟨-, hmc, -⟩ := lightest_eq_next.mp hc
  obtain ⟨na, hna, -⟩ := nodeAt_of_lightest ha
  obtain ⟨nc, hnc, -⟩ := nodeAt_of_lightest hc
  exact chain_of_next (need_eq_next.mpr hact) <| chain_of_next ha <|
    chain_of_next (putVec_of_lt _ _ _ _ (lt_of_vector_getElem?_some hma)) <| chain_of_next hc <|
    chain_of_next (putVec_of_lt _ _ _ _ (lt_of_vector_getElem?_some hmc)) <| chain_of_next hna <| chain_of_next hnc <|
    chain_of_fault (need_of_none hnext)

/-! ## The walks -/

theorem pop_of_none (hsp : s.sp = some (k + 1)) (htop : s.stack[k]? = some none) : pop s = .fault (.noValue .stack) :=
  chain_of_next (need_eq_next.mpr hsp) (chain_of_fault (entry_of_none htop))

theorem pathBits_of_none {d j : Nat} (hj : j < d) (hnone : s.path[j]? = some none) :
    pathBits s d = .fault (.noValue .path) := by
  cases h : (s.path.toList.take d).mapM id with
  | none => rw [pathBits, h]
  | some bits =>
    have hbits : pathBits s d = .next bits := by rw [pathBits, h]
    have hget := congrArg (·[j]?) (pathBits_eq_next.mp hbits)
    simp [hj, hnone] at hget

section
variable (hsp : s.sp = some (k + 1)) (htop : s.stack[k]? = some (some e))
include hsp htop

theorem exec_cgStep_of_noEdge (h : e.depth = none ∨ e.bit = none) : exec .cgStep s = .fault (.noValue .stack) := by
  refine chain_of_next (pop_eq_next.mpr ⟨k, hsp, htop, rfl⟩) ?_
  cases hd : e.depth with
  | none => exact chain_of_fault (need_of_none hd)
  | some d => exact chain_of_next (need_eq_next.mpr hd) (chain_of_fault (need_of_none (h.resolve_left (by rw [hd]; nofun))))

theorem exec_hsStep_of_noNode (hnode : s.node[e.node]? = some none) : exec .hsStep s = .fault (.noValue .node) :=
  chain_of_next (pop_eq_next.mpr ⟨k, hsp, htop, rfl⟩) (chain_of_fault (entry_of_none hnode))

section
variable {d : Nat} (hdepth : e.depth = some (d + 1)) (hbit : e.bit = some b) (hd : d < 256)
include hdepth hbit hd

theorem exec_cgStep_of_noNode (hnode : s.node[e.node]? = some none) : exec .cgStep s = .fault (.noValue .node) :=
  chain_of_next (pop_eq_next.mpr ⟨k, hsp, htop, rfl⟩) <| chain_of_next (need_eq_next.mpr hdepth) <|
    chain_of_next (need_eq_next.mpr hbit) <| chain_of_next (setPath_eq_next.mpr ⟨hd, rfl⟩) <|
      chain_of_fault (entry_of_none hnode)

theorem exec_cgStep_of_noPath {w j : Nat} (hnode : s.node[e.node]? = some (some (.leaf x w))) (hj : j < d)
    (hnone : s.path[j]? = some none) : exec .cgStep s = .fault (.noValue .path) := by
  refine chain_of_next (pop_eq_next.mpr ⟨k, hsp, htop, rfl⟩) <| chain_of_next (need_eq_next.mpr hdepth) <|
    chain_of_next (need_eq_next.mpr hbit) <| chain_of_next (setPath_eq_next.mpr ⟨hd, rfl⟩) <|
      chain_of_next (entry_of_some hnode) <| chain_of_fault (pathBits_of_none (Nat.lt_succ_of_lt hj) ?_)
  exact (Vector.getElem?_setIfInBounds_ne hj.ne').trans hnone

end

end

/-! ## StreamEncoder -/

theorem codeBitsAt_of_none {sym len : Nat}
    (h : s.codeBits[sym]? = some none ∨ ∃ c, s.codeBits[sym]? = some (some c) ∧ c.length < len) :
    codeBitsAt s sym len = .fault (.noValue .codeBits) := by
  obtain hnone | ⟨c, hc, hlt⟩ := h
  · exact chain_of_fault (entry_of_none hnone)
  · exact chain_of_next (entry_of_some hc) (if_neg (Nat.not_le.mpr hlt))

theorem exec_enSym_of_noBits {r : Byte} {len : Nat} (hlen : s.codeLen[r.toNat]? = some (some len)) (hne : len ≠ 0)
    (h : s.codeBits[r.toNat]? = some none ∨ ∃ c, s.codeBits[r.toNat]? = some (some c) ∧ c.length < len) :
    exec (.enSym r) s = .fault (.noValue .codeBits) := by
  rw [← toNat_zext9] at hlen h
  exact chain_of_next (codeLenAt_eq_next.mpr hlen) ((if_neg hne).trans (chain_of_fault (codeBitsAt_of_none h)))

/-! ## The header reader -/

theorem exec_header_of_noDnext {t : Bit} (hop : op = .hdStep ∨ op = .hdrInternal ∨ op = .hdrLeaf x)
    (hin : s.inBits[s.rp]? = some t) (hnone : s.dnext = none) : exec op s = .fault (.noValue .dnext) := by
  have htag (f : BitVec 1 → State → Res State) : headerTag s f = .fault (.noValue .dnext) := by
    rw [headerTag, bitRead_one hin]
    exact chain_of_fault (need_of_none hnone)
  rcases hop with rfl | rfl | rfl <;> exact htag _

/-- A record is not attached where DSTACK holds no value to attach it to. -/
theorem allocate_of_fault {f : Nat → State → Res State} {e : Fault} (hi : s.dnext = some i)
    (ha : attach i { s with dnext := some (i + 1) } = .fault e) : allocate s f = .fault e :=
  chain_of_next (need_eq_next.mpr hi) (chain_of_fault ha)

theorem exec_header_of_fault {e : Fault} (hi : s.dnext = some i) (hne : i ≠ s.par.decNodeCap)
    (hop : (op = .hdStep ∨ op = .hdrInternal) ∧ s.inBits[s.rp]? = some false ∨
      (op = .hdStep ∨ op = .hdrLeaf x) ∧ (s.inBits.drop s.rp).take 10 = true :: bin 9 x.toNat)
    (ha : ∀ m l, attach i { readOn m l s with dnext := some (i + 1) } = .fault e) : exec op s = .fault e := by
  obtain ⟨hop, hin⟩ | ⟨hop, hin⟩ := hop
  · rw [exec_internalRecord hop hin hi hne]
    exact allocate_of_fault (s := readOn _ _ s) hi (ha ..)
  · rw [exec_leafRecord hop hin hi hne]
    exact allocate_of_fault (s := readOn _ _ s) hi (ha ..)

/-! ## The payload decoder -/

theorem isLeaf_of_none {m : DNode} (hm : s.dnode[i]? = some m) (hleaf : m.leaf = none) :
    isLeaf s i = .fault (.noValue .dnode) :=
  chain_of_next (dnodeAt_eq_next.mpr hm) (need_of_none hleaf)

theorem symOf_of_none {m : DNode} (hm : s.dnode[i]? = some m) (hsym : m.sym = none) : symOf s i = .fault (.noValue .dnode) :=
  chain_of_next (dnodeAt_eq_next.mpr hm) (need_of_none hsym)

/-- The leaf test reads whether the record is a leaf, and of a leaf its symbol. -/
theorem leafTest_of_noValue {m : DNode} {c : Nat} (hcur : s.cur = some c) (hm : s.dnode[c]? = some m)
    (h : m.leaf = none ∨ m.leaf = some true ∧ m.sym = none) : leafTest s = .fault (.noValue .dnode) := by
  refine chain_of_next (need_eq_next.mpr hcur) ?_
  obtain hleaf | ⟨hleaf, hsym⟩ := h
  · exact chain_of_fault (isLeaf_of_none hm hleaf)
  · exact chain_of_next (isLeaf_eq_next.mpr ⟨m, hm, hleaf⟩) (chain_of_fault (symOf_of_none hm hsym))

/-- CUR is read under either kind of tree: by the move, or by the leaf test (R178, R182). -/
theorem walkDown_leafTest_of_noCur {top : DNode} (v : BitVec 1) (htop : s.dnode[0]? = some top) (hleaf : top.leaf ≠ none)
    (hcur : s.cur = none) : chain (walkDown v s) leafTest = .fault (.noValue .cur) := by
  obtain ⟨leaf, hl⟩ := Option.ne_none_iff_exists'.mp hleaf
  cases leaf with
  | true => exact chain_of_next (walkDown_of_leaf v htop hl) (chain_of_fault (need_of_none hcur))
  | false =>
    exact chain_of_fault (chain_of_next (isLeaf_eq_next.mpr ⟨top, htop, hl⟩) (chain_of_fault (need_of_none hcur)))

theorem walkDown_of_noChild {top m : DNode} {c : Nat} (htop : s.dnode[0]? = some top) (hleaf : top.leaf = some false)
    (hcur : s.cur = some c) (hm : s.dnode[c]? = some m) (hchild : (if b then m.right else m.left) = none) :
    walkDown (BitVec.ofBool b) s = .fault (.noValue .dnode) := by
  refine chain_of_next (isLeaf_eq_next.mpr ⟨top, htop, hleaf⟩) (chain_of_next (need_eq_next.mpr hcur)
    (chain_of_fault (chain_of_next (dnodeAt_eq_next.mpr hm) (need_of_none ?_))))
  cases b <;> exact hchild

end

/-- Settles O60, register by register. -/
theorem readsOfNoValueFault : Obligations.ReadsOfNoValueFault := by
  refine ⟨fun s hfreq => ⟨fun r => chain_of_fault (need_of_none hfreq), chain_of_fault (need_of_none hfreq)⟩,
    fun s hactive => ⟨chain_of_fault (need_of_none hactive), chain_of_fault (need_of_none hactive), fun h => ?_⟩,
    fun s act i hact hi hnode => chain_of_next (need_eq_next.mpr hact) (chain_of_fault (lightest_of_none hi hnode)),
    fun s act hact hcount hval hnext => exec_tbMerge_of_noNext hact hcount hval hnext,
    fun s hroot => ⟨chain_of_fault (need_of_none hroot), chain_of_fault (need_of_none hroot)⟩,
    fun s i hroot hnode => chain_of_next (need_eq_next.mpr hroot) (chain_of_fault (entry_of_none hnode)),
    fun s hsp => ⟨chain_of_fault (chain_of_fault (need_of_none hsp)), chain_of_fault (chain_of_fault (need_of_none hsp))⟩,
    fun s k hsp htop => ⟨chain_of_fault (pop_of_none hsp htop), chain_of_fault (pop_of_none hsp htop)⟩,
    fun s k e hsp htop => ⟨exec_cgStep_of_noEdge hsp htop, exec_hsStep_of_noNode hsp htop, fun d b hdepth hbit hd =>
      ⟨exec_cgStep_of_noNode hsp htop hdepth hbit hd,
        fun x w j hnode => exec_cgStep_of_noPath hsp htop hdepth hbit hd hnode⟩⟩,
    fun s r => ⟨fun hlen => ?_, fun hlen => chain_of_fault (entry_of_none hlen)⟩,
    fun s r len => ⟨exec_enSym_of_noBits, fun hlen h =>
      chain_of_next (codeLenAt_eq_next.mpr hlen) (chain_of_fault (codeBitsAt_of_none h))⟩,
    fun s t x op => exec_header_of_noDnext,
    fun s i x op hi hne hop => ⟨fun hdsp => exec_header_of_fault hi hne hop fun m l => chain_of_fault (need_of_none hdsp),
      fun k hdsp htop => exec_header_of_fault hi hne hop fun m l =>
        chain_of_next (need_eq_next.mpr hdsp) (chain_of_fault (entry_of_none htop))⟩,
    fun s b op hop hin top htop => ?_⟩
  · have hnone : (expire s).active = none := (keep_of_mem (by rw [h.inPhase]; decide)).trans hactive
    have hsel : select (expire s) = .fault (.noValue .active) := by
      simp only [select, expire_phase, h.inPhase, hnone, need_none, chain_fault]
    rw [step, fetch_of_inCommand h, hsel, chain_fault, chain_fault]
  · rw [← toNat_zext9] at hlen
    exact chain_of_fault (entry_of_none hlen)
  · have hexec := exec_payloadBit hop hin
    refine ⟨fun hleaf => ?_, fun hleaf hcur => ?_, fun hleaf hcur hsym => ?_, fun c n hleaf hcur hn => ⟨fun hchild => ?_,
      fun c' m hchild hm h => ?_⟩⟩
    · exact hexec.trans (chain_of_fault (chain_of_fault (isLeaf_of_none (s := readOn _ _ s) htop hleaf)))
    · exact hexec.trans (walkDown_leafTest_of_noCur (s := readOn _ _ s) _ htop hleaf hcur)
    · exact hexec.trans (chain_of_next (walkDown_of_leaf (s := readOn _ _ s) _ htop hleaf)
        (leafTest_of_noValue (s := readOn _ _ s) hcur htop (.inr ⟨hleaf, hsym⟩)))
    · exact hexec.trans (chain_of_fault (walkDown_of_noChild (s := readOn _ _ s) htop hleaf hcur hn hchild))
    · exact hexec.trans (chain_of_next (walkDown_of_child (s := readOn _ _ s) htop hleaf hcur hn hchild)
        (leafTest_of_noValue (s := { readOn _ _ s with cur := some c' }) rfl hm h))

end Sys2Proof.Machine
end
